-- ==== Sys2Proof/Word.lean ====
section
/-! DEFINITION. The words of the block: the 32-bit bus word, the 16-bit slot word and the 8-bit byte
lane (00_scope.md R11, 20_memory.md R68, R71). -/

namespace Sys2Proof

/-- One byte lane of a register or slot (20_memory.md R71). -/
abbrev Byte := BitVec 8

/-- One 16-bit sample or header word, the content of one buffer slot (00_scope.md R11). -/
abbrev Half := BitVec 16

/-- One 32-bit bus word (00_scope.md R11). -/
abbrev Word := BitVec 32

end Sys2Proof
end

