-- ==== Sys2Proof/Config.lean ====
section
/-! DEFINITION. What an implementation fixes (the OPEN parameters of 00_scope.md section 3) and the one
free value of the model, the draw of 93_implementation_defined.md U1 and U2. -/

namespace Sys2Proof

/-- The OPEN parameters of an implementation: N_MAX (00_scope.md R7), B_MAX (R8) and BASE (R10).
They are plain data carried in `State` and never change, so that a claim over all states is a claim
for every implementation. Their constraints are `Params.wellFormed`. -/
structure Params where
  /-- N_MAX, the largest waveform length (R7). -/
  nMax : Nat
  /-- B_MAX, the number of BBRF entries (R8). -/
  bMax : Nat
  /-- BASE, the byte address of the window (R10). -/
  base : Nat
deriving DecidableEq, Repr

/-- The parameters `State.reset` takes. DESIGN CHOICE, unsafe (entry 1): the spec leaves them OPEN;
these are the ones 95_test_vectors.md uses for every vector. No statement rests on them. -/
def Config.params : Params := ⟨16, 8, 0⟩

/-- The `n`-th value drawn by a host read that "returns any value" (10_state.md R46, R52, R54;
93_implementation_defined.md U1, U2). It has no body: nothing is known of any of its values.
Safe (entry 3). -/
opaque Config.draw : Nat → Half

end Sys2Proof
end

