-- ==== Sys2Proof/Syntax.lean ====
section
/-! DEFINITION. The instructions: the three commands of spec/opcode_table.json, and the command word
that issues one (30_encoding.md R85 to R91). -/

namespace Sys2Proof

/-- The commands (00_scope.md R2, 30_encoding.md R86), one per row of the opcode table. No command has
an immediate or register-number field: every operand comes from a fixed register or buffer (R89). -/
inductive Instr where
  /-- SUPPRESS: zero suppression without merging (40_suppress.md R108). -/
  | suppress
  /-- SUPPRESS_NN: zero suppression with neighbour merging (40_suppress.md R113). -/
  | suppressNN
  /-- UNSUPPRESS: zero un-suppression (41_unsuppress.md R125). -/
  | unsuppress
deriving DecidableEq, Repr

/-- The fields of a command word, the value of a host write to CTRL (30_encoding.md R85). The reserved
bits take no part (R88). -/
structure CommandWord where
  /-- Bit 0: issue a command. -/
  start : Bool
  /-- Bits [7:4]: the command code. -/
  cmd : BitVec 4
  /-- Bit 8: the interrupt enable. -/
  ie : Bool
deriving DecidableEq, Repr

/-- What a command word issues: the command, and the interrupt enable the same write stores
(10_state.md R21, R23). -/
structure Issue where
  /-- The command issued. -/
  command : Instr
  /-- The IE bit of the issuing word. -/
  ie : Bool
deriving DecidableEq, Repr

/-- Why a command word, or a latched code, is no command. -/
inductive Reject where
  /-- Bit 0 is 0: the word issues nothing (30_encoding.md R91). -/
  | notIssued
  /-- CMD is 0 or 4 to 15, reserved (30_encoding.md R87). -/
  | reservedCommand (cmd : BitVec 4)
deriving DecidableEq, Repr

end Sys2Proof
end

