-- ==== Sys2Proof/WellFormed.lean ====
section
/-! DEFINITION. Well-formedness: of the instructions, and of the OPEN parameters an implementation
chooses (00_scope.md R7, R8, R10). -/

namespace Sys2Proof

/-- Every command is well-formed: none has an operand field that could be out of range
(30_encoding.md R89). -/
def Instr.wellFormed : Instr → Bool
  | .suppress => true
  | .suppressNN => true
  | .unsuppress => true

/-- The constraints on the OPEN parameters: `1 <= N_MAX <= 32766` (00_scope.md R7),
`B_MAX >= ceil(N_MAX/2)` and `2 + 2*B_MAX + N_MAX <= 65535` (R8), BASE a multiple of 2^20 (R10). -/
def Params.wellFormed (p : Params) : Bool :=
  decide (1 ≤ p.nMax) && decide (p.nMax ≤ 32766) && decide ((p.nMax + 1) / 2 ≤ p.bMax) &&
    decide (2 + 2 * p.bMax + p.nMax ≤ 65535) && decide (p.base % 2 ^ 20 = 0)

end Sys2Proof
end

