-- ==== Sys2Proof/Decode.lean ====
section
/-! DEFINITION. The decoder of command words and of the latched command code, the encoder, and the
host's entry to the decoder (30_encoding.md R85 to R91). -/

namespace Sys2Proof

/-- The fields of the value `v` of a host write to CTRL (30_encoding.md R85): START[0], CMD[7:4],
IE[8]; bits [3:1] and [31:9] take no part (R88). -/
def commandWord (v : Word) : CommandWord :=
  { start := v.getLsbD 0, cmd := v.extractLsb' 4 4, ie := v.getLsbD 8 }

/-- The command a code selects (30_encoding.md R86); 0 and 4 to 15 are reserved (R87). -/
def decodeCommand (c : BitVec 4) : Except Reject Instr :=
  if c = 1#4 then .ok .suppress
  else if c = 2#4 then .ok .suppressNN
  else if c = 3#4 then .ok .unsuppress
  else .error (.reservedCommand c)

/-- What the command word `v` issues (30_encoding.md R91). -/
def decode (v : Word) : Except Reject Issue :=
  if (commandWord v).start then
    match decodeCommand (commandWord v).cmd with
    | .ok i => .ok { command := i, ie := (commandWord v).ie }
    | .error r => .error r
  else .error .notIssued

/-- The CMD code of a command (30_encoding.md R86). -/
def commandCode : Instr → BitVec 4
  | .suppress => 1#4
  | .suppressNN => 2#4
  | .unsuppress => 3#4

/-- The command word with the reserved bits zero that issues `w`: the example words of
30_encoding.md R91. -/
def encode (w : Issue) : Word :=
  (if w.ie then 0x100#32 else 0#32) ||| ((commandCode w.command).setWidth 32 <<< 4) ||| 1#32

/-- A table word of `nbits` bits as the 32-bit value of the CTRL write that carries it, every bit above
`nbits` zero. A command word has one length, 32 bits (30_encoding.md R90). -/
def tableWord (nbits w : Nat) : Word :=
  BitVec.ofNat 32 (w % 2 ^ nbits)

/-- The command the decoder reads from a table word; none where it refuses. -/
def decodeTableWord (nbits w : Nat) : Option Instr :=
  match decode (tableWord nbits w) with
  | .ok i => some i.command
  | .error _ => none

end Sys2Proof
end

