-- ==== Sys2Proof/Machine/State.lean ====
section
/-! DEFINITION. The state of the block (10_state.md R17), the host's requests and the answers to them,
the reasons a step can stop, and reset (70_reset_and_hazards.md R159 to R163). -/

namespace Sys2Proof.Machine

open Sys2Proof

/-- The nine host-visible registers (10_state.md R20). -/
inductive Reg where
  | ctrl | status | thresh | ndist | lenIn | lenOut | nblk | errInfo | caps
deriving DecidableEq, Repr

/-- What an aligned window offset names (20_memory.md R62 to R67). -/
inductive Target where
  /-- A register (R63). -/
  | reg (r : Reg)
  /-- A reserved offset, or one beyond the last entry or slot of its region (R64 to R67). -/
  | reserved
  /-- The start field of BBRF entry `k` (R65). -/
  | blockStart (k : Nat)
  /-- The length field of BBRF entry `k` (R65). -/
  | blockLength (k : Nat)
  /-- IBUF slot `i` (R66). -/
  | ibuf (i : Nat)
  /-- OBUF slot `j` (R67). -/
  | obuf (j : Nat)
deriving DecidableEq, Repr

/-- A read, or a write of a 32-bit value (00_scope.md R15). -/
inductive Access where
  | read
  | write (v : Word)
deriving DecidableEq, Repr

/-- One host bus access: the platform byte address, the size in bytes, and what is done
(00_scope.md R15, 20_memory.md R61, R70). -/
structure HostOp where
  addr : Nat
  size : Nat
  access : Access
deriving DecidableEq, Repr

/-- Who moves at a step: the host with one access, the sequencer, or the reset input
(00_scope.md R16, 20_memory.md R75, R76, 70_reset_and_hazards.md R159). -/
inductive Turn where
  | host (op : HostOp)
  | sequencer
  | reset
deriving DecidableEq, Repr

/-- What the block answered to the last host access (00_scope.md R15, 20_memory.md R70). -/
inductive Response where
  /-- No access has been answered, or the last one lay outside the window (20_memory.md R61). -/
  | none
  /-- OKAY to a write. -/
  | okayWrite
  /-- OKAY to a read, with the data. -/
  | okayRead (data : Word)
  /-- ERROR (60_exceptions.md R148). -/
  | error
deriving DecidableEq, Repr

/-- The bytes of the window's storage (BBRF, IBUF and OBUF) by window offset, offsets strictly rising.
An offset that is not listed holds no value: it is unwritten (10_state.md R54). -/
abbrev Memory := List Host.Cell

/-- The block's architectural state (10_state.md R17), and three fields of the model's own. -/
@[ext]
structure State where
  /-- N_MAX, B_MAX and BASE: constant; CAPS is their view (R37). -/
  params : Params
  /-- CTRL.CMD (R22). -/
  ctrlCmd : BitVec 4
  /-- CTRL.IE (R23). -/
  ctrlIe : Bool
  /-- STATUS.BUSY, and the sequencer's phase: RUNNING exactly when it is set (R25, R56). -/
  busy : Bool
  /-- STATUS.DONE (R26). -/
  done : Bool
  /-- STATUS.BSYERR (R27). -/
  bsyErr : Bool
  /-- STATUS.ERRCODE (R28). -/
  errCode : BitVec 4
  /-- THRESH (R30). -/
  thresh : Half
  /-- NDIST (R31). -/
  ndist : Half
  /-- LEN_IN (R32). -/
  lenIn : Half
  /-- LEN_OUT (R34). -/
  lenOut : Half
  /-- NBLK (R35). -/
  nblk : Half
  /-- ERRINFO (R36). -/
  errInfo : Half
  /-- LCMD, the latched command (R55). -/
  lcmd : BitVec 4
  /-- BBRF, IBUF and OBUF with their written marks (R41 to R54). -/
  mem : Memory
  /-- The model's own: how many values `Config.draw` has given out. DESIGN CHOICE (entry 3). -/
  draws : Nat
  /-- The model's own: who moves next, and with what request. DESIGN CHOICE
  (entry 4). -/
  schedule : List Turn
  /-- The model's own: the answer to the last host access. DESIGN CHOICE (entry 5). -/
  response : Response
deriving DecidableEq, Repr

/-- Why the machine stops with a fault. -/
inductive Fault where
  /-- A command reads IBUF slot `slot`, which is unwritten: raised by the completion of any of the
  three commands (10_state.md R54, 60_exceptions.md R147). Safe: the spec asks for this fault, where a
  chip would go on with an unknown value (93_implementation_defined.md U3). -/
  | unwrittenIbuf (slot : Nat)
deriving DecidableEq, Repr

/-- Why an instruction has no meaning. -/
inductive Refusal where
  /-- The instruction is not modelled yet: raised by `exec`'s arm for it. Safe. No arm raises it. -/
  | notModelled (mnemonic : String)
deriving DecidableEq, Repr

/-- The command errors (60_exceptions.md R138). -/
inductive CommandError where
  | illegalCmd | badLength | badNdist | badHeader | badBlock | sizeMismatch
deriving DecidableEq, Repr

/-- How a command ends before its results: it raises an error with its ERRINFO value
(00_scope.md R15), or it reads an unwritten IBUF slot (10_state.md R54). -/
inductive Stop where
  | raise (e : CommandError) (info : Half)
  | unwritten (slot : Nat)
deriving DecidableEq, Repr

/-- One block: its start index and its sample count (10_state.md R41 to R43). -/
structure Block where
  start : Nat
  len : Nat
deriving DecidableEq, Repr

/-- What a command that succeeds leaves: the words of OBUF from slot 0, and the BBRF entries from
entry 0 (10_state.md R44, R51). -/
structure CommandResult where
  out : List Half
  blocks : List Block
deriving DecidableEq, Repr

/-- The state right after reset of an implementation with parameters `p`
(70_reset_and_hazards.md R160, R161): every register 0, the sequencer IDLE, every slot and entry
unwritten. The last three fields are the model's own, their values a
DESIGN CHOICE (entries 3, 4 and 5). -/
def State.resetOf (p : Params) : State where
  params := p
  ctrlCmd := 0#4
  ctrlIe := false
  busy := false
  done := false
  bsyErr := false
  errCode := 0#4
  thresh := 0#16
  ndist := 0#16
  lenIn := 0#16
  lenOut := 0#16
  nblk := 0#16
  errInfo := 0#16
  lcmd := 0#4
  mem := []
  draws := 0
  schedule := []
  response := .none

/-- The machine right after reset, with the parameters of `Config.params`. DESIGN CHOICE
(entry 1). -/
def State.reset : State := State.resetOf Config.params

end Sys2Proof.Machine
end

