-- ==== Sys2Proof/Machine/Memory.lean ====
section
/-! DEFINITION. The bytes of the window's storage: reading and writing one byte, one 16-bit slot, a run
of slots; and the canonical form (20_memory.md R68, R71; 10_state.md R54). -/

namespace Sys2Proof.Machine

open Sys2Proof

/-- The byte at window offset `a`; none where nothing has written it (10_state.md R54). This is the one
definition of what an unlisted offset reads as. -/
def Memory.read : Memory → Nat → Option Byte
  | [], _ => none
  | (b, v) :: m, a => if b = a then some v else Memory.read m a

/-- Write one byte, keeping the offsets rising. -/
def Memory.write : Memory → Nat → Byte → Memory
  | [], a, v => [(a, v)]
  | (b, u) :: m, a, v =>
    if a < b then (a, v) :: (b, u) :: m
    else if a = b then (a, v) :: m
    else (b, u) :: Memory.write m a v

/-- Every offset of `m` is above `lo`, and the offsets strictly rise. -/
def Memory.risesFrom : Nat → Memory → Bool
  | _, [] => true
  | lo, (a, _) :: m => decide (lo < a) && Memory.risesFrom a m

/-- The canonical form: offsets strictly rising. An unlisted offset holds no value, so no entry can be
equal to what an unlisted offset reads as. -/
def Memory.wf : Memory → Bool
  | [] => true
  | (a, _) :: m => Memory.risesFrom a m

/-- The 16-bit word of the slot at window offset `off`, least significant byte first
(20_memory.md R68, R71); none where the slot is unwritten. -/
def Memory.slot (m : Memory) (off : Nat) : Option Half :=
  match Memory.read m off, Memory.read m (off + 1) with
  | some lo, some hi => some (hi ++ lo)
  | _, _ => none

/-- Write the 16-bit word of the slot at window offset `off`; its upper half-word always reads 0 and is
not stored (20_memory.md R68). -/
def Memory.writeSlot (m : Memory) (off : Nat) (w : Half) : Memory :=
  Memory.write (Memory.write m off (w.extractLsb' 0 8)) (off + 1) (w.extractLsb' 8 8)

/-- Write consecutive slots, four bytes apart, from window offset `off` on. -/
def Memory.writeSlots : Memory → Nat → List Half → Memory
  | m, _, [] => m
  | m, off, w :: ws => Memory.writeSlots (Memory.writeSlot m off w) (off + 4) ws

end Sys2Proof.Machine
end

