-- ==== Sys2Proof/Machine/Operands.lean ====
section
/-! DEFINITION. Where things are in the window (20_memory.md R61 to R67), and how a command reads its
operands: the parameter registers, IBUF and the threshold comparator (30_encoding.md R89,
40_suppress.md R104). -/

namespace Sys2Proof.Machine

open Sys2Proof

/-- BUF_DEPTH, the number of slots of IBUF and of OBUF (00_scope.md R9). -/
def bufDepth (p : Params) : Nat := 2 + 2 * p.bMax + p.nMax

/-- The window offset of BS[k] (20_memory.md R65). -/
def bsOff (k : Nat) : Nat := 0x40000 + 8 * k

/-- The window offset of BL[k] (20_memory.md R65). -/
def blOff (k : Nat) : Nat := 0x40004 + 8 * k

/-- The window offset of IBUF[i] (20_memory.md R66). -/
def ibufOff (i : Nat) : Nat := 0x80000 + 4 * i

/-- The window offset of OBUF[j] (20_memory.md R67). -/
def obufOff (j : Nat) : Nat := 0xC0000 + 4 * j

/-- The offset of a platform byte address in the window of 2^20 bytes at BASE; none where the address
lies outside it and the access never reaches the block (20_memory.md R61). -/
def windowOffset (p : Params) (addr : Nat) : Option Nat :=
  if p.base ≤ addr ∧ addr < p.base + 0x100000 then some (addr - p.base) else none

/-- The offset of a register (20_memory.md R63). -/
def regOff : Reg → Nat
  | .ctrl => 0x00
  | .status => 0x04
  | .thresh => 0x08
  | .ndist => 0x0C
  | .lenIn => 0x10
  | .lenOut => 0x14
  | .nblk => 0x18
  | .errInfo => 0x1C
  | .caps => 0x20

/-- The register at an aligned offset of the first region; every other offset there is reserved
(20_memory.md R63, R64). -/
def regTarget (off : Nat) : Target :=
  if off = 0x00 then .reg .ctrl
  else if off = 0x04 then .reg .status
  else if off = 0x08 then .reg .thresh
  else if off = 0x0C then .reg .ndist
  else if off = 0x10 then .reg .lenIn
  else if off = 0x14 then .reg .lenOut
  else if off = 0x18 then .reg .nblk
  else if off = 0x1C then .reg .errInfo
  else if off = 0x20 then .reg .caps
  else .reserved

/-- The BBRF field at an aligned offset `d` from the BBRF's start (20_memory.md R65). -/
def bbrfTarget (p : Params) (d : Nat) : Target :=
  if d / 8 < p.bMax then
    if d % 8 = 0 then .blockStart (d / 8) else .blockLength (d / 8)
  else .reserved

/-- What an aligned window offset names (20_memory.md R62 to R67). -/
def targetOf (p : Params) (off : Nat) : Target :=
  if off < 0x40000 then regTarget off
  else if off < 0x80000 then bbrfTarget p (off - 0x40000)
  else if off < 0xC0000 then
    if (off - 0x80000) / 4 < bufDepth p then .ibuf ((off - 0x80000) / 4) else .reserved
  else
    if (off - 0xC0000) / 4 < bufDepth p then .obuf ((off - 0xC0000) / 4) else .reserved

/-- A 16-bit word read as an unsigned integer (00_scope.md R14). -/
def zext16 (w : Half) : Nat := w.toNat

/-- A 16-bit word read as a two's-complement integer (00_scope.md R14). -/
def sext16 (w : Half) : Int := w.toInt

/-- An integer stored into a 16-bit cell: its value mod 2^16 (00_scope.md R14). -/
def store16 (v : Nat) : Half := BitVec.ofNat 16 v

/-- The threshold comparator (40_suppress.md R104): the magnitude of the sample, 0 to 32768, against
the unsigned threshold. -/
def active (thresh w : Half) : Bool := decide (zext16 thresh < (sext16 w).natAbs)

/-- A sample that is not active (40_suppress.md R104). -/
def sub (thresh w : Half) : Bool := !active thresh w

/-- A command's read of IBUF slot `i`; an unwritten slot stops it (10_state.md R54). -/
def State.ibufWord (s : State) (i : Nat) : Except Stop Half :=
  match Memory.slot s.mem (ibufOff i) with
  | some w => .ok w
  | none => .error (.unwritten i)

/-- A command's read of `count` IBUF slots from slot `i` on, in rising order. -/
def State.ibufWords (s : State) : Nat → Nat → Except Stop (List Half)
  | _, 0 => .ok []
  | i, count + 1 =>
    match s.ibufWord i with
    | .error e => .error e
    | .ok w =>
      match State.ibufWords s (i + 1) count with
      | .error e => .error e
      | .ok ws => .ok (w :: ws)

end Sys2Proof.Machine
end

