-- ==== Sys2Proof/Machine/Flags.lean ====
section
/-! DEFINITION. The STATUS flags: every rule that sets or clears one, the views of CTRL and STATUS, and
the interrupt output (10_state.md R20 to R29, R40, R59). -/

namespace Sys2Proof.Machine

open Sys2Proof

/-- CTRL as the host reads it: START reads 0, CMD in [7:4], IE in [8], the rest 0
(10_state.md R20 to R24). -/
def State.ctrlWord (s : State) : Word :=
  (s.ctrlCmd.setWidth 32 <<< 4) ||| (if s.ctrlIe then 0x100#32 else 0#32)

/-- STATUS as the host reads it: BUSY[0], DONE[1], BSYERR[2], ERRCODE[7:4], the rest 0
(10_state.md R20, R25 to R29). -/
def State.statusWord (s : State) : Word :=
  (if s.busy then 1#32 else 0#32) ||| (if s.done then 2#32 else 0#32) |||
    (if s.bsyErr then 4#32 else 0#32) ||| (s.errCode.setWidth 32 <<< 4)

/-- CAPS: N_MAX in [15:0], B_MAX in [31:16] (10_state.md R37). -/
def State.capsWord (s : State) : Word :=
  BitVec.ofNat 16 s.params.bMax ++ BitVec.ofNat 16 s.params.nMax

/-- The flags of a command issue that is taken (10_state.md R21): BUSY rises, DONE and ERRCODE are
cleared, BSYERR is not touched (R27). -/
def State.issueFlags (s : State) : State :=
  { s with busy := true, done := false, errCode := 0#4 }

/-- The flag of host misuse while BUSY = 1 (60_exceptions.md R149). -/
def State.misuseFlag (s : State) : State :=
  { s with bsyErr := true }

/-- A host write of `v` to STATUS: write-1-to-clear DONE and BSYERR, nothing else
(10_state.md R26, R27, R29). -/
def State.ackFlags (s : State) (v : Word) : State :=
  { s with done := s.done && !v.getLsbD 1, bsyErr := s.bsyErr && !v.getLsbD 2 }

/-- The flags of a completion (60_exceptions.md R147): BUSY falls, DONE rises, ERRCODE is the command's
error code, or 0 on success. BSYERR is not touched. -/
def State.completionFlags (s : State) (code : BitVec 4) : State :=
  { s with busy := false, done := true, errCode := code }

/-- The interrupt output: the level CTRL.IE AND STATUS.DONE (10_state.md R59, 60_exceptions.md R150). -/
def State.irq (s : State) : Bool := s.ctrlIe && s.done

end Sys2Proof.Machine
end

