-- ==== Sys2Proof/Machine/Ops.lean ====
section
/-! DEFINITION. The shared operations: host reads and writes of registers and slots, the command issue,
the reset input, and the ends of a command: success, error (60_exceptions.md R147) and the fault of an
unwritten slot (10_state.md R54). -/

namespace Sys2Proof.Machine

open Sys2Proof

/-- A host read of a register (10_state.md R20 to R39). -/
def State.readReg (s : State) : Reg → Word
  | .ctrl => s.ctrlWord
  | .status => s.statusWord
  | .thresh => s.thresh.setWidth 32
  | .ndist => s.ndist.setWidth 32
  | .lenIn => s.lenIn.setWidth 32
  | .lenOut => s.lenOut.setWidth 32
  | .nblk => s.nblk.setWidth 32
  | .errInfo => s.errInfo.setWidth 32
  | .caps => s.capsWord

/-- A host write of `v` to CTRL (10_state.md R21): CMD and IE are stored whatever BUSY is; with START
= 1 a command is issued when BUSY = 0, and dropped with BSYERR set when BUSY = 1. -/
def State.writeCtrl (s : State) (v : Word) : State :=
  let w := commandWord v
  let t : State := { s with ctrlCmd := w.cmd, ctrlIe := w.ie }
  if w.start then
    if s.busy then t.misuseFlag
    else { t.issueFlags with lcmd := w.cmd }
  else t

/-- A host write of `v` to a register (10_state.md R21 to R39). While BUSY = 1 the parameter registers
are frozen and the write sets BSYERR (R33); LEN_OUT, NBLK, ERRINFO and CAPS ignore it (R38). -/
def State.writeReg (s : State) (r : Reg) (v : Word) : State :=
  match r with
  | .ctrl => s.writeCtrl v
  | .status => s.ackFlags v
  | .thresh => if s.busy then s.misuseFlag else { s with thresh := v.setWidth 16 }
  | .ndist => if s.busy then s.misuseFlag else { s with ndist := v.setWidth 16 }
  | .lenIn => if s.busy then s.misuseFlag else { s with lenIn := v.setWidth 16 }
  | .lenOut => s
  | .nblk => s
  | .errInfo => s
  | .caps => s

/-- A host write of `v` to IBUF slot `i` (20_memory.md R68): bits [15:0] are stored; while BUSY = 1 it
is dropped and sets BSYERR (10_state.md R49). -/
def State.writeIbuf (s : State) (i : Nat) (v : Word) : State :=
  if s.busy then s.misuseFlag
  else { s with mem := Memory.writeSlot s.mem (ibufOff i) (v.setWidth 16) }

/-- The answer OKAY with `data` to a host read. -/
def State.answer (s : State) (data : Word) : State :=
  { s with response := .okayRead data }

/-- The answer to a host read whose value is any value: the next draw, zero-extended, a fresh one for
every read (10_state.md R46, R52, R54; 93_implementation_defined.md U1, U2). -/
def State.answerDraw (s : State) : State :=
  { s with response := .okayRead ((Config.draw s.draws).setWidth 32), draws := s.draws + 1 }

/-- The answer to a host read of the slot at window offset `off`: its word zero-extended
(20_memory.md R68), or any value where it is unwritten (10_state.md R54). -/
def State.answerSlot (s : State) (off : Nat) : State :=
  match Memory.slot s.mem off with
  | some w => s.answer (w.setWidth 32)
  | none => s.answerDraw

/-- The answer to a host read of an OBUF slot or BBRF field: any value while BUSY = 1, its content
otherwise (10_state.md R46, R52). -/
def State.answerResult (s : State) (off : Nat) : State :=
  if s.busy then s.answerDraw else s.answerSlot off

/-- A legal host read of a target (20_memory.md R63 to R68); no read has a side effect (R72). -/
def State.readTarget (s : State) : Target → State
  | .reg r => s.answer (s.readReg r)
  | .reserved => s.answer 0#32
  | .blockStart k => s.answerResult (bsOff k)
  | .blockLength k => s.answerResult (blOff k)
  | .ibuf i => s.answerSlot (ibufOff i)
  | .obuf j => s.answerResult (obufOff j)

/-- The effect of a legal host write of `v` to a target (20_memory.md R63 to R68): the BBRF, OBUF and
reserved offsets ignore it (10_state.md R46, R51). -/
def State.writeTarget (s : State) (v : Word) : Target → State
  | .reg r => s.writeReg r v
  | .reserved => s
  | .blockStart _ => s
  | .blockLength _ => s
  | .ibuf i => s.writeIbuf i v
  | .obuf _ => s

/-- The legal accesses: 32 bits, at an offset that is a multiple of 4 (20_memory.md R70). -/
def legalAccess (off size : Nat) : Bool := decide (size = 4) && decide (off % 4 = 0)

/-- A host access at window offset `off` (20_memory.md R61 to R72, 60_exceptions.md R148): an illegal
one gets ERROR and has no effect; every legal one gets OKAY. -/
def State.windowAccess (s : State) (off size : Nat) (a : Access) : State :=
  if legalAccess off size then
    match a with
    | .read => s.readTarget (targetOf s.params off)
    | .write v => { s.writeTarget v (targetOf s.params off) with response := .okayWrite }
  else { s with response := .error }

/-- One host access by platform address; outside the window it never reaches the block
(20_memory.md R61). DEDUCED (entry 6). -/
def State.hostAccess (s : State) (op : HostOp) : State :=
  match windowOffset s.params op.addr with
  | some off => s.windowAccess off op.size op.access
  | none => { s with response := .none }

/-- The reset input (70_reset_and_hazards.md R159 to R163): the block is as after reset, whatever it
was doing. The model's own fields are not the block's and stay: DESIGN CHOICE (entry 20). -/
def State.resetInput (s : State) : State :=
  { State.resetOf s.params with draws := s.draws, schedule := s.schedule, response := s.response }

/-- The code of a command error (60_exceptions.md R138). -/
def errorCode : CommandError → BitVec 4
  | .illegalCmd => 1#4
  | .badLength => 2#4
  | .badNdist => 3#4
  | .badHeader => 4#4
  | .badBlock => 5#4
  | .sizeMismatch => 6#4

/-- Taking a command error, the block's only exception (60_exceptions.md R146, R147): LEN_OUT and NBLK
become 0, ERRINFO the detail value, ERRCODE the code; BUSY falls and DONE rises. OBUF and the BBRF are
unchanged. Nothing is saved and control goes nowhere, so there is no return (R151): the host
acknowledges it through `State.ackFlags` or the next issue. -/
def State.raiseError (s : State) (e : CommandError) (info : Half) : State :=
  { s.completionFlags (errorCode e) with lenOut := 0#16, nblk := 0#16, errInfo := info }

/-- The BBRF entries from entry `k` on that hold the blocks `bs` (10_state.md R44). -/
def Memory.writeBlocks : Memory → Nat → List Block → Memory
  | m, _, [] => m
  | m, k, b :: bs =>
    Memory.writeBlocks
      (Memory.writeSlot (Memory.writeSlot m (bsOff k) (store16 b.start)) (blOff k) (store16 b.len))
      (k + 1) bs

/-- A successful completion (60_exceptions.md R147): OBUF slots 0 to LEN_OUT-1 and BBRF entries 0 to
NBLK-1 are written and no other (10_state.md R44, R51), ERRINFO and ERRCODE become 0, BUSY falls and
DONE rises. -/
def State.succeed (s : State) (r : CommandResult) : State :=
  { s.completionFlags 0#4 with
    mem := Memory.writeSlots (Memory.writeBlocks s.mem 0 r.blocks) (obufOff 0) r.out
    lenOut := store16 r.out.length
    nblk := store16 r.blocks.length
    errInfo := 0#16 }

/-- The end of a command (60_exceptions.md R147): success, an error, or the model's fault of a command
that read an unwritten IBUF slot, which never completes (10_state.md R54). -/
def State.finish (s : State) : Except Stop CommandResult → Host.Outcome State Fault Refusal
  | .ok r => .next (s.succeed r)
  | .error (.raise e info) => .next (s.raiseError e info)
  | .error (.unwritten i) => .fault (.unwrittenIbuf i)

/-- The command the sequencer performs: it is taken from LCMD alone (10_state.md R55,
30_encoding.md R86). -/
def State.fetch (s : State) : Except Reject Instr := decodeCommand s.lcmd

/-- The completion of a reserved command code (30_encoding.md R87, 60_exceptions.md R139). -/
def State.completeIllegal (s : State) : State :=
  s.raiseError .illegalCmd (s.lcmd.setWidth 16)

end Sys2Proof.Machine
end

