-- ==== Sys2Proof/Machine/Suppress.lean ====
section
/-! DEFINITION. SUPPRESS, zero suppression without merging, and the parts it shares with SUPPRESS_NN:
the prologue and EMIT (40_suppress.md R106 to R112). -/

namespace Sys2Proof.Machine

open Sys2Proof

/-- The prologue of both suppress commands (40_suppress.md R106): the waveform length N, or
ERR_BAD_LENGTH before any sample is read. -/
def State.suppressPrologue (s : State) : Except Stop Nat :=
  if s.params.nMax < zext16 s.lenIn then .error (.raise .badLength s.lenIn)
  else .ok (zext16 s.lenIn)

/-- The samples of the blocks, in block order and in-block order (40_suppress.md R107). -/
def blockSamples (xs : List Half) (bs : List Block) : List Half :=
  bs.flatMap fun b => (xs.drop b.start).take b.len

/-- EMIT (40_suppress.md R107, 30_encoding.md R92 to R98): the zero-suppressed encoding of the waveform
`xs` with the blocks `bs`, and the BBRF entries. -/
def emit (xs : List Half) (bs : List Block) : CommandResult where
  out := store16 xs.length :: store16 bs.length ::
    (bs.map (fun b => store16 b.start) ++ bs.map (fun b => store16 b.len) ++ blockSamples xs bs)
  blocks := bs

/-- The scan of SUPPRESS (40_suppress.md R108) over the samples from index `i` on; `cur` is the open
block. A block opens at an active sample, takes in the first sub-threshold sample after the run as its
closing sample, and a block open at the last sample is counted as closed. -/
def suppressScan (thresh : Half) : Nat → Option Block → List Half → List Block
  | _, none, [] => []
  | _, some b, [] => [b]
  | i, none, x :: xs =>
    if active thresh x then suppressScan thresh (i + 1) (some ⟨i, 1⟩) xs
    else suppressScan thresh (i + 1) none xs
  | i, some b, x :: xs =>
    if active thresh x then suppressScan thresh (i + 1) (some ⟨b.start, b.len + 1⟩) xs
    else ⟨b.start, b.len + 1⟩ :: suppressScan thresh (i + 1) none xs

/-- What SUPPRESS computes (40_suppress.md R108). -/
def State.suppressResult (s : State) : Except Stop CommandResult :=
  match s.suppressPrologue with
  | .error e => .error e
  | .ok n =>
    match s.ibufWords 0 n with
    | .error e => .error e
    | .ok xs => .ok (emit xs (suppressScan s.thresh 0 none xs))

/-- SUPPRESS, performed in one step by the completion (40_suppress.md R108, 60_exceptions.md R147). -/
def execSuppress (s : State) : Host.Outcome State Fault Refusal :=
  s.finish s.suppressResult

end Sys2Proof.Machine
end

