-- ==== Sys2Proof/Machine/SuppressNN.lean ====
section
/-! DEFINITION. SUPPRESS_NN, zero suppression with neighbour merging (40_suppress.md R113 to R123). -/

namespace Sys2Proof.Machine

open Sys2Proof

/-- The look-ahead of the close test (40_suppress.md R115): the next one or two of the samples `xs` that
follow are sub-threshold; a position at or beyond N counts as sub-threshold and is not read. -/
def lookAhead (thresh : Half) (xs : List Half) : Bool := (xs.take 2).all (sub thresh)

/-- A block opened at active sample `i`, its start pulled back by `d` and clamped at 0
(40_suppress.md R114). -/
def openBlock (d i : Nat) : Block := ⟨i - d, i - (i - d) + 1⟩

/-- Whether active sample `i` re-opens the previous block `b` (40_suppress.md R116): the padded start
`i - d` touches or overlaps its end, the subtraction taken on integers. -/
def merges (d i : Nat) (b : Block) : Bool := decide ((i : Int) - (d : Int) ≤ (b.start + b.len : Nat))

/-- The scan of SUPPRESS_NN (40_suppress.md R113) over the samples from index `i` on. `closed` are the
closed blocks, the latest first; `cur` is the open block with the count of sub-threshold samples seen
since its last active one. -/
def suppressNNScan (thresh : Half) (d : Nat) :
    Nat → List Block → Option (Block × Nat) → List Half → List Block
  | _, closed, none, [] => closed.reverse
  | _, closed, some (b, _), [] => (b :: closed).reverse
  | i, closed, none, x :: xs =>
    if active thresh x then
      match closed with
      | [] => suppressNNScan thresh d (i + 1) [] (some (openBlock d i, 0)) xs
      | p :: ps =>
        if merges d i p then
          suppressNNScan thresh d (i + 1) ps (some (⟨p.start, i - p.start + 1⟩, 0)) xs
        else suppressNNScan thresh d (i + 1) (p :: ps) (some (openBlock d i, 0)) xs
    else suppressNNScan thresh d (i + 1) closed none xs
  | i, closed, some (b, cnt), x :: xs =>
    if active thresh x then
      suppressNNScan thresh d (i + 1) closed (some (⟨b.start, b.len + 1⟩, 0)) xs
    else if cnt < d then
      suppressNNScan thresh d (i + 1) closed (some (⟨b.start, b.len + 1⟩, cnt + 1)) xs
    else if lookAhead thresh xs then suppressNNScan thresh d (i + 1) (b :: closed) none xs
    else suppressNNScan thresh d (i + 1) closed (some (⟨b.start, b.len + 1⟩, cnt)) xs

/-- What SUPPRESS_NN computes (40_suppress.md R113): ERR_BAD_LENGTH, then ERR_BAD_NDIST for a negative
distance (R117), then the scan. -/
def State.suppressNNResult (s : State) : Except Stop CommandResult :=
  match s.suppressPrologue with
  | .error e => .error e
  | .ok n =>
    if sext16 s.ndist < 0 then .error (.raise .badNdist s.ndist)
    else
      match s.ibufWords 0 n with
      | .error e => .error e
      | .ok xs => .ok (emit xs (suppressNNScan s.thresh (sext16 s.ndist).toNat 0 [] none xs))

/-- SUPPRESS_NN, performed in one step by the completion (40_suppress.md R113, 60_exceptions.md R147). -/
def execSuppressNN (s : State) : Host.Outcome State Fault Refusal :=
  s.finish s.suppressNNResult

end Sys2Proof.Machine
end

