-- ==== Sys2Proof/Machine/Unsuppress.lean ====
section
/-! DEFINITION. UNSUPPRESS, the inverse: the guards, the block checks and the reinflation
(41_unsuppress.md R125 to R137). -/

namespace Sys2Proof.Machine

open Sys2Proof

/-- The length check (41_unsuppress.md R126): the stream length L, or ERR_BAD_LENGTH before any slot is
read. -/
def State.streamLength (s : State) : Except Stop Nat :=
  if zext16 s.lenIn < 2 ∨ bufDepth s.params < zext16 s.lenIn then .error (.raise .badLength s.lenIn)
  else .ok (zext16 s.lenIn)

/-- The original-length check (41_unsuppress.md R127): N from stream word 0. -/
def State.headerLength (s : State) : Except Stop Nat :=
  match s.ibufWord 0 with
  | .error e => .error e
  | .ok w =>
    if sext16 w < 0 ∨ (s.params.nMax : Int) < sext16 w then .error (.raise .badHeader 0#16)
    else .ok (sext16 w).toNat

/-- The block-count check (41_unsuppress.md R128): B from stream word 1, for a stream of `l` words. -/
def State.headerCount (s : State) (l : Nat) : Except Stop Nat :=
  match s.ibufWord 1 with
  | .error e => .error e
  | .ok w =>
    if sext16 w < 0 ∨ (s.params.bMax : Int) < sext16 w ∨ (l : Int) < 2 + 2 * sext16 w then
      .error (.raise .badHeader 1#16)
    else .ok (sext16 w).toNat

/-- One block check (41_unsuppress.md R129): the start and length words `sw` and `lw` of block `k`, the
end `e` of the previous block, the waveform length `n`. -/
def checkBlock (n e k : Nat) (sw lw : Half) : Except Stop Block :=
  if sext16 lw < 1 ∨ sext16 sw < e ∨ (n : Int) < sext16 sw + sext16 lw then
    .error (.raise .badBlock (store16 k))
  else .ok ⟨(sext16 sw).toNat, (sext16 lw).toNat⟩

/-- The block checks in block order (41_unsuppress.md R129): the `count` blocks from block `k` on of a
stream with `b` blocks, for a waveform of `n` samples, `e` the end of the previous block. -/
def State.checkBlocks (s : State) (n b : Nat) : Nat → Nat → Nat → Except Stop (List Block)
  | 0, _, _ => .ok []
  | count + 1, k, e =>
    match s.ibufWord (2 + k) with
    | .error r => .error r
    | .ok sw =>
      match s.ibufWord (2 + b + k) with
      | .error r => .error r
      | .ok lw =>
        match checkBlock n e k sw lw with
        | .error r => .error r
        | .ok blk =>
          match State.checkBlocks s n b count (k + 1) (blk.start + blk.len) with
          | .error r => .error r
          | .ok bs => .ok (blk :: bs)

/-- The sum of the block lengths (41_unsuppress.md R130). -/
def totalLength (bs : List Block) : Nat := (bs.map Block.len).sum

/-- Overwrite `out` from index `start` on by the words `ws`. -/
def overwrite (out : List Half) (start : Nat) (ws : List Half) : List Half :=
  out.take start ++ ws ++ out.drop (start + ws.length)

/-- The samples written into their blocks, in block order and in-block order, each copied raw
(41_unsuppress.md R131). -/
def placeBlocks : List Half → List Block → List Half → List Half
  | out, [], _ => out
  | out, b :: bs, ws => placeBlocks (overwrite out b.start (ws.take b.len)) bs (ws.drop b.len)

/-- Reinflation (41_unsuppress.md R131): `n` zeros, then the samples. -/
def reinflate (n : Nat) (bs : List Block) (ws : List Half) : List Half :=
  placeBlocks (List.replicate n 0#16) bs ws

/-- What UNSUPPRESS does once it knows the stream length `l`, the waveform length `n` and the block
count `b` (41_unsuppress.md R125): the block checks (R129), the sample-count check (R130), then the
samples (R131) and the BBRF entries (R132). -/
def State.unsuppressBody (s : State) (l n b : Nat) : Except Stop CommandResult :=
  match s.checkBlocks n b b 0 0 with
  | .error e => .error e
  | .ok bs =>
    if totalLength bs ≠ l - 2 - 2 * b then .error (.raise .sizeMismatch (store16 (totalLength bs)))
    else
      match s.ibufWords (2 + 2 * b) (totalLength bs) with
      | .error e => .error e
      | .ok ws => .ok { out := reinflate n bs ws, blocks := bs }

/-- What UNSUPPRESS computes (41_unsuppress.md R125), its checks in the order of 60_exceptions.md
R145. -/
def State.unsuppressResult (s : State) : Except Stop CommandResult :=
  match s.streamLength with
  | .error e => .error e
  | .ok l =>
    match s.headerLength with
    | .error e => .error e
    | .ok n =>
      match s.headerCount l with
      | .error e => .error e
      | .ok b => s.unsuppressBody l n b

/-- UNSUPPRESS, performed in one step by the completion (41_unsuppress.md R125,
60_exceptions.md R147). -/
def execUnsuppress (s : State) : Host.Outcome State Fault Refusal :=
  s.finish s.unsuppressResult

end Sys2Proof.Machine
end

