-- ==== Sys2Proof/Machine/Dispatch.lean ====
section
/-! DEFINITION. The meaning of every command: one arm per constructor of `Instr`. `exec` is what the
completion does for the command (60_exceptions.md R147); `step` takes it only while BUSY = 1
(entry 23). -/

namespace Sys2Proof.Machine

open Sys2Proof

def exec (i : Instr) (s : State) : Host.Outcome State Fault Refusal :=
  match i with
  | .suppress => Sys2Proof.Machine.execSuppress s
  | .suppressNN => Sys2Proof.Machine.execSuppressNN s
  | .unsuppress => Sys2Proof.Machine.execUnsuppress s

end Sys2Proof.Machine
end

