-- ==== Sys2Proof/Machine/Step.lean ====
section
/-! DEFINITION. One step of the machine: the next turn of the schedule, or the sequencer's when there is
none (00_scope.md R16, 20_memory.md R75, R76, 60_exceptions.md R147, 70_reset_and_hazards.md R159,
R171). -/

namespace Sys2Proof.Machine

open Sys2Proof

/-- The completion (60_exceptions.md R147): the command of LCMD is performed in one step; a reserved
code completes with ERR_ILLEGAL_CMD (R139). -/
def completion (s : State) : Host.Outcome State Fault Refusal :=
  match s.fetch with
  | .ok i => exec i s
  | .error _ => .next s.completeIllegal

/-- The sequencer's turn: the completion, enabled exactly while BUSY = 1 (10_state.md R56,
60_exceptions.md R147); otherwise it waits for a command issue (70_reset_and_hazards.md R163).
DEDUCED (entry 7). -/
def sequencerTurn (s : State) : Host.Outcome State Fault Refusal :=
  if s.busy then completion s else .next s

/-- One turn (00_scope.md R16, 70_reset_and_hazards.md R159). -/
def takeTurn (t : Turn) (s : State) : Host.Outcome State Fault Refusal :=
  match t with
  | .host op => .next (s.hostAccess op)
  | .sequencer => sequencerTurn s
  | .reset => .next s.resetInput

/-- One step: the next scheduled turn. With nothing scheduled the sequencer moves, so that a pending
completion is taken (weak fairness, 70_reset_and_hazards.md R171); an idle block stays as it is. -/
def step (s : State) : Host.Outcome State Fault Refusal :=
  match s.schedule with
  | [] => sequencerTurn s
  | t :: ts => takeTurn t { s with schedule := ts }

/-- The state in which the very next step performs the command of a table word: the CTRL write of the
word is made on an idle sequencer (10_state.md R21), and the sequencer moves next.
DESIGN CHOICE (entry 12). -/
def State.withFetchWord (s : State) (nbits w : Nat) : State :=
  let t := State.writeCtrl { s with busy := false } (tableWord nbits w)
  match s.schedule with
  | [] => t
  | ts => { t with schedule := .sequencer :: ts }

end Sys2Proof.Machine
end

