-- ==== Sys2Proof/Machine/HostProgram.lean ====
section
/-! DEFINITION. The host program syntax (30_encoding.md R101 to R103): each line as the host's turns it
stands for. It has no effect on the hardware (92_eei_decisions.md D33); it says what a host does. -/

namespace Sys2Proof.Machine

open Sys2Proof

/-- The target of a WR or RD line (30_encoding.md R101). -/
inductive HostTarget where
  | reg (r : Reg)
  | ibuf (i : Nat)
  | obuf (j : Nat)
  | bs (k : Nat)
  | bl (k : Nat)
  /-- A raw offset, `@0x.....`. -/
  | raw (off : Nat)
deriving DecidableEq, Repr

/-- One line of a host program (30_encoding.md R101 to R103). -/
inductive HostLine where
  /-- `WR <target>, <value>`. -/
  | wr (t : HostTarget) (v : Int)
  /-- `RD <target>`; the value read is the response. -/
  | rd (t : HostTarget)
  /-- `SUPPRESS`, `SUPPRESS_NN`, `UNSUPPRESS`, or their `.IE` forms. -/
  | command (i : Instr) (ie : Bool)
  /-- `LOADW a, b, ...`. -/
  | loadw (vs : List Int)
  /-- `ACK`. -/
  | ack
  /-- `WAIT`, in the run where `polls` reads of STATUS find BUSY = 1 before the completion step and the
  next read ends the loop (R103 leaves the number open). After a completion, `polls` is 0. -/
  | wait (polls : Nat)
deriving DecidableEq, Repr

/-- The offset a target stands for (30_encoding.md R101). -/
def targetOffset : HostTarget → Nat
  | .reg r => regOff r
  | .ibuf i => ibufOff i
  | .obuf j => obufOff j
  | .bs k => bsOff k
  | .bl k => blOff k
  | .raw off => off

/-- The 32-bit value of a WR line (30_encoding.md R101): the integer mod 2^32, but a negative value for
a buffer slot is its 16-bit two's-complement pattern. -/
def lineValue (t : HostTarget) (v : Int) : Word :=
  match t with
  | .ibuf _ => if v < 0 then (BitVec.ofInt 16 v).setWidth 32 else BitVec.ofInt 32 v
  | .obuf _ => if v < 0 then (BitVec.ofInt 16 v).setWidth 32 else BitVec.ofInt 32 v
  | _ => BitVec.ofInt 32 v

/-- One host access at a window offset (00_scope.md R15). -/
def accessTurn (p : Params) (off : Nat) (a : Access) : Turn :=
  .host ⟨p.base + off, 4, a⟩

/-- The writes of LOADW, from slot `i` on, in order (30_encoding.md R102). -/
def loadTurns (p : Params) : Nat → List Int → List Turn
  | _, [] => []
  | i, v :: vs => accessTurn p (ibufOff i) (.write (lineValue (.ibuf i) v)) :: loadTurns p (i + 1) vs

/-- The turns a line stands for (30_encoding.md R101 to R103). -/
def lineTurns (p : Params) : HostLine → List Turn
  | .wr t v => [accessTurn p (targetOffset t) (.write (lineValue t v))]
  | .rd t => [accessTurn p (targetOffset t) .read]
  | .command i ie => [accessTurn p (regOff .ctrl) (.write (encode ⟨i, ie⟩))]
  | .loadw vs => loadTurns p 0 vs
  | .ack => [accessTurn p (regOff .status) (.write 6#32)]
  | .wait polls =>
    List.replicate polls (accessTurn p (regOff .status) .read) ++
      [.sequencer, accessTurn p (regOff .status) .read]

/-- The turns of a whole program. -/
def programTurns (p : Params) (ls : List HostLine) : List Turn := ls.flatMap (lineTurns p)

end Sys2Proof.Machine
end

