-- ==== Sys2Proof/Safety.lean ====
section
/-! DEFINITION. The terms claims about the block use: what a state holds, which steps are safe, the
invariants, the bytes a command stores, and the spec's own descriptions of block lists and streams
(40_suppress.md R109, R120; 30_encoding.md R92 to R99; 41_unsuppress.md R126 to R131). None of them
calls a meaning. -/

namespace Sys2Proof.Machine

open Sys2Proof

/-! ### What a state holds -/

/-- IBUF slots 0 to `xs.length - 1` are written and hold the words `xs` (10_state.md R48). -/
abbrev State.holdsIbuf (s : State) (xs : List Half) : Prop :=
  ∀ j < xs.length, Memory.slot s.mem (ibufOff j) = xs[j]?

/-- Every IBUF slot below `n` is written (10_state.md R54, 70_reset_and_hazards.md R164). -/
abbrev State.ibufWritten (s : State) (n : Nat) : Prop :=
  ∀ j < n, (Memory.slot s.mem (ibufOff j)).isSome = true

/-- The content of OBUF slot `j`; none where it is unwritten (10_state.md R51, R54). -/
def State.obufWord (s : State) (j : Nat) : Option Half := Memory.slot s.mem (obufOff j)

/-- The content of BBRF entry `k`; none where it is unwritten (10_state.md R41, R54). -/
def State.block (s : State) (k : Nat) : Option Block :=
  match Memory.slot s.mem (bsOff k), Memory.slot s.mem (blOff k) with
  | some a, some l => some ⟨a.toNat, l.toNat⟩
  | _, _ => none

/-- NBLK and the BBRF entries below it report the blocks `bs` (10_state.md R35, R44). -/
abbrev State.recordsBlocks (s : State) (bs : List Block) : Prop :=
  s.nblk.toNat = bs.length ∧ ∀ k < bs.length, s.block k = bs[k]?

/-- Waveform index `j` lies in one of the blocks the state reports. -/
abbrev State.recorded (s : State) (j : Nat) : Prop :=
  ∃ k < s.nblk.toNat, ∃ b ∈ s.block k, b.start ≤ j ∧ j < b.start + b.len

/-- The waveform of a suppress command is legal and written: N = LEN_IN <= N_MAX, and IBUF[0..N-1] is
`xs` (40_suppress.md R106, 70_reset_and_hazards.md R164). -/
abbrev State.holdsWaveform (s : State) (xs : List Half) : Prop :=
  s.params.wellFormed = true ∧ s.lenIn.toNat = xs.length ∧ xs.length ≤ s.params.nMax ∧ s.holdsIbuf xs

/-- The neighbour distance D of SUPPRESS_NN, where it is not negative (10_state.md R31). -/
def State.distance (s : State) : Nat := s.ndist.toInt.toNat

/-! ### Host accesses -/

/-- A legal 32-bit read at window offset `off` (00_scope.md R15). -/
def State.hostRead (s : State) (off : Nat) : State := s.hostAccess ⟨s.params.base + off, 4, .read⟩

/-- A legal 32-bit write of `v` at window offset `off` (00_scope.md R15). -/
def State.hostWrite (s : State) (off : Nat) (v : Word) : State :=
  s.hostAccess ⟨s.params.base + off, 4, .write v⟩

/-- The match value of a command in the opcode map (30_encoding.md R91). -/
def matchWord : Instr → Word
  | .suppress => 0x11#32
  | .suppressNN => 0x21#32
  | .unsuppress => 0x31#32

/-- The bits of a register that are not reserved, as the host reads it (10_state.md R20). -/
def readableBits : Reg → Word
  | .ctrl => 0x1F0#32
  | .status => 0xF7#32
  | .caps => 0xFFFFFFFF#32
  | _ => 0xFFFF#32

/-- The bits of a register that are not reserved, as the host writes it (10_state.md R20): START of CTRL
is write-only. -/
def writableBits : Reg → Word
  | .ctrl => 0x1F1#32
  | .status => 0x6#32
  | _ => 0xFFFF#32

/-! ### Frames -/

/-- The state after a command that fails with ERRCODE `code` and ERRINFO `info`: the only fields that
change are the completion's own results (60_exceptions.md R146). -/
def State.failedWith (s : State) (code : BitVec 4) (info : Half) : State :=
  { s with lenOut := 0#16, nblk := 0#16, errInfo := info, errCode := code, busy := false, done := true }

/-- What no completion changes: the parameters, CTRL, BSYERR, the parameter registers, LCMD and the
model's own fields (60_exceptions.md R146, R147). -/
abbrev State.keepsControls (s t : State) : Prop :=
  t.params = s.params ∧ t.ctrlCmd = s.ctrlCmd ∧ t.ctrlIe = s.ctrlIe ∧ t.bsyErr = s.bsyErr ∧
    t.thresh = s.thresh ∧ t.ndist = s.ndist ∧ t.lenIn = s.lenIn ∧ t.lcmd = s.lcmd ∧
    t.draws = s.draws ∧ t.schedule = s.schedule ∧ t.response = s.response

/-- Byte `a` of the window is one of the two bytes of the slot at window offset `off`
(20_memory.md R68, R71). -/
abbrev inSlot (a off : Nat) : Prop := a = off ∨ a = off + 1

/-- The bytes a completion that ends in state `t` stores: OBUF[0..LEN_OUT-1] and BBRF entries
0..NBLK-1 (10_state.md R44, R51). After an error both counts are 0. -/
abbrev State.storedBy (t : State) (a : Nat) : Prop :=
  (∃ j < t.lenOut.toNat, inSlot a (obufOff j)) ∨
    (∃ k < t.nblk.toNat, inSlot a (bsOff k) ∨ inSlot a (blOff k))

/-! ### Safe steps -/

/-- The step answers a next state: neither the fault of an unwritten slot nor a refusal. -/
def State.stepsSafely (s : State) : Prop := ∃ t, step s = .next t

/-- The host accesses `ops`, one after another (20_memory.md R75). -/
def State.hostAccesses (s : State) (ops : List HostOp) : State := ops.foldl State.hostAccess s

/-- An outcome with its next state changed by `f`; a fault or a refusal stays. -/
def mapNext (f : State → State) : Host.Outcome State Fault Refusal → Host.Outcome State Fault Refusal
  | .next s => .next (f s)
  | .fault r => .fault r
  | .refused r => .refused r

/-! ### Invariants -/

/-- The flags: ERRCODE is one of 0 to 6 (60_exceptions.md R138); while BUSY = 1, DONE and ERRCODE are 0
(10_state.md R21, R25, R26, R28); an error leaves LEN_OUT = NBLK = 0 (60_exceptions.md R146). -/
abbrev State.flagsInv (s : State) : Prop :=
  s.errCode.toNat ≤ 6 ∧ (s.busy = true → s.done = false ∧ s.errCode = 0#4) ∧
    (s.errCode ≠ 0#4 → s.lenOut = 0#16 ∧ s.nblk = 0#16)

/-- The targets that are storage (10_state.md R17). -/
def isStorage : Target → Bool
  | .blockStart _ => true
  | .blockLength _ => true
  | .ibuf _ => true
  | .obuf _ => true
  | _ => false

/-- The storage: the memory is in canonical form; every listed byte is the low or high byte of the word
of a slot or entry that exists (20_memory.md R65 to R68); the bytes of a word, and the two fields of a
BBRF entry, are written together (10_state.md R54). -/
def State.storageInv (s : State) : Prop :=
  s.params.wellFormed = true ∧ Memory.wf s.mem = true ∧
    (∀ a, (Memory.read s.mem a).isSome = true →
      a % 4 < 2 ∧ isStorage (targetOf s.params (a - a % 4)) = true) ∧
    (∀ off, off % 4 = 0 →
      (Memory.read s.mem off).isSome = (Memory.read s.mem (off + 1)).isSome) ∧
    (∀ k, k < s.params.bMax →
      (Memory.slot s.mem (bsOff k)).isSome = (Memory.slot s.mem (blOff k)).isSome)

/-- The results: LEN_OUT and NBLK stay inside OBUF and the BBRF (10_state.md R35, R51;
40_suppress.md R111, R121), and every written BBRF entry is a block inside a waveform of at most N_MAX
samples (10_state.md R42, R43). -/
def State.resultsInv (s : State) : Prop :=
  s.params.wellFormed = true ∧ s.lenOut.toNat ≤ bufDepth s.params ∧ s.nblk.toNat ≤ s.params.bMax ∧
    ∀ k, k < s.params.bMax → ∀ b, s.block k = some b → 1 ≤ b.len ∧ b.start + b.len ≤ s.params.nMax

/-! ### Block lists -/

/-- The word at index `p` of the waveform exists and its magnitude exceeds the threshold
(40_suppress.md R104). -/
abbrev activeAt (thresh : Half) (xs : List Half) (p : Nat) : Prop :=
  ∃ w ∈ xs[p]?, (thresh.toNat : Int) < |w.toInt|

/-- `a` to `b` is a maximal run of consecutive active samples (40_suppress.md R109). -/
def maximalRun (thresh : Half) (xs : List Half) (a b : Nat) : Prop :=
  a ≤ b ∧ (∀ p, a ≤ p → p ≤ b → activeAt thresh xs p) ∧
    (0 < a → ¬ activeAt thresh xs (a - 1)) ∧ ¬ activeAt thresh xs (b + 1)

/-- The block of the run `a` to `b` of a waveform of `n` samples (40_suppress.md R109): the closing
sample is in it unless the run ends the waveform. -/
def runBlock (n a b : Nat) : Block := ⟨a, if b + 1 < n then b - a + 2 else b - a + 1⟩

/-- The grouping threshold G (40_suppress.md R120). -/
def groupGap (d : Nat) : Nat := max (d + 2) (2 * d)

/-- `p` and `q` are two consecutive active samples (40_suppress.md R120); between them lie
`q - p - 1` sub-threshold samples. -/
def consecutiveActive (thresh : Half) (xs : List Half) (p q : Nat) : Prop :=
  p < q ∧ activeAt thresh xs p ∧ activeAt thresh xs q ∧
    ∀ r, p < r → r < q → ¬ activeAt thresh xs r

/-- `f` and `l` are the first and last active sample of one group (40_suppress.md R120): inside it no
two consecutive active samples are more than G apart, and the ones before and after it are. -/
def activeGroup (thresh : Half) (d : Nat) (xs : List Half) (f l : Nat) : Prop :=
  f ≤ l ∧ activeAt thresh xs f ∧ activeAt thresh xs l ∧
    ∀ p q, consecutiveActive thresh xs p q →
      (f ≤ p → q ≤ l → q - p - 1 ≤ groupGap d) ∧
      (q = f → groupGap d < q - p - 1) ∧ (p = l → groupGap d < q - p - 1)

/-- The block of the group `f` to `l` of a waveform of `n` samples (40_suppress.md R120):
`BS = max(f - D, 0)`, `BL = min(l + D + 1, N) - BS`. -/
def groupBlock (d n f l : Nat) : Block := ⟨f - d, min (l + d + 1) n - (f - d)⟩

/-- The block-list invariants of 30_encoding.md R99 for a waveform of `n` samples: ascending, not
overlapping, inside the waveform, none empty. -/
def blockListValid (n : Nat) (bs : List Block) : Prop :=
  bs.Pairwise (fun b c => b.start + b.len ≤ c.start) ∧
    ∀ b ∈ bs, 1 ≤ b.len ∧ b.start + b.len ≤ n

/-- The number of samples of the first `k` blocks of `bs`. -/
def samplesBefore (bs : List Block) (k : Nat) : Nat := ((bs.take k).map Block.len).sum

/-! ### Streams -/

/-- Stream word `j` read as a signed integer (92_eei_decisions.md D32); 0 beyond the end. -/
def streamInt (ws : List Half) (j : Nat) : Int := (ws.getD j 0#16).toInt

/-- The original length N of a stream (30_encoding.md R93). -/
def streamN (ws : List Half) : Int := streamInt ws 0

/-- The block count B of a stream (30_encoding.md R94). -/
def streamB (ws : List Half) : Int := streamInt ws 1

/-- The start of block `k` of a stream (30_encoding.md R95). -/
def streamStart (ws : List Half) (k : Nat) : Int := streamInt ws (2 + k)

/-- The length of block `k` of a stream (30_encoding.md R96). -/
def streamLen (ws : List Half) (k : Nat) : Int := streamInt ws (2 + (streamB ws).toNat + k)

/-- The end of the block before block `k`, 0 for the first (41_unsuppress.md R129). -/
def streamPrevEnd (ws : List Half) : Nat → Int
  | 0 => 0
  | k + 1 => streamStart ws k + streamLen ws k

/-- The sum of the lengths of the first `k` blocks of a stream. -/
def streamTotal (ws : List Half) : Nat → Int
  | 0 => 0
  | k + 1 => streamTotal ws k + streamLen ws k

/-- The stream's length is legal (41_unsuppress.md R126). -/
abbrev streamLengthOk (p : Params) (ws : List Half) : Prop :=
  2 ≤ ws.length ∧ ws.length ≤ bufDepth p

/-- The N word of the stream is in range (41_unsuppress.md R127). -/
abbrev streamNOk (p : Params) (ws : List Half) : Prop :=
  0 ≤ streamN ws ∧ streamN ws ≤ p.nMax

/-- The B word of the stream is in range (41_unsuppress.md R128). -/
abbrev streamBOk (p : Params) (ws : List Half) : Prop :=
  0 ≤ streamB ws ∧ streamB ws ≤ p.bMax ∧ 2 + 2 * streamB ws ≤ ws.length

/-- Block `k` of the stream passes the checks of 41_unsuppress.md R129. -/
abbrev streamBlockOk (ws : List Half) (k : Nat) : Prop :=
  1 ≤ streamLen ws k ∧ streamPrevEnd ws k ≤ streamStart ws k ∧
    streamStart ws k + streamLen ws k ≤ streamN ws

/-- The block lengths of the stream sum to the number of its sample words (41_unsuppress.md R130). -/
abbrev streamTotalOk (ws : List Half) : Prop :=
  streamTotal ws (streamB ws).toNat = ws.length - 2 - 2 * streamB ws

/-- The stream meets rules R126 to R130 of 41_unsuppress.md. -/
abbrev streamValid (p : Params) (ws : List Half) : Prop :=
  streamLengthOk p ws ∧ streamNOk p ws ∧ streamBOk p ws ∧
    (∀ k < (streamB ws).toNat, streamBlockOk ws k) ∧ streamTotalOk ws

/-- The stream of UNSUPPRESS is written: L = LEN_IN and IBUF[0..L-1] is `ws`. -/
abbrev State.holdsStream (s : State) (ws : List Half) : Prop :=
  s.params.wellFormed = true ∧ s.lenIn.toNat = ws.length ∧ s.holdsIbuf ws

/-! ### The slots a command reads -/

/-- The words of the stream `ws` that UNSUPPRESS reads up to the checks of its first `n` blocks, the two
header words and those blocks' starts and lengths, are written and in IBUF; L = LEN_IN
(41_unsuppress.md R125). Nothing is said of the other slots. -/
abbrev State.holdsBlockWords (s : State) (ws : List Half) (n : Nat) : Prop :=
  s.lenIn.toNat = ws.length ∧
    ∀ j < ws.length, (j < 2 ∨ ∃ k < n, j = 2 + k ∨ j = 2 + (streamB ws).toNat + k) →
      Memory.slot s.mem (ibufOff j) = ws[j]?

/-- The stream `ws` agrees with IBUF wherever IBUF is written; L = LEN_IN. Its other words are
arbitrary. -/
abbrev State.agreesWithStream (s : State) (ws : List Half) : Prop :=
  s.lenIn.toNat = ws.length ∧
    ∀ j < ws.length, Memory.slot s.mem (ibufOff j) = none ∨ Memory.slot s.mem (ibufOff j) = ws[j]?

/-- UNSUPPRESS of the stream `ws` comes to read word `j` (the pseudocode of 41_unsuppress.md R125): the
N word where the length is legal (R126); the B word where the N word is (R127); the start and length of
block `k` where the B word is (R128) and every block before passes its checks (R129); the sample words
where every block does and the lengths sum to their number (R130). -/
abbrev streamReads (p : Params) (ws : List Half) (j : Nat) : Prop :=
  streamLengthOk p ws ∧
    (j = 0 ∨ streamNOk p ws ∧
      (j = 1 ∨ streamBOk p ws ∧
        ((∃ k < (streamB ws).toNat, (∀ i < k, streamBlockOk ws i) ∧
            (j = 2 + k ∨ j = 2 + (streamB ws).toNat + k)) ∨
          (∀ k < (streamB ws).toNat, streamBlockOk ws k) ∧ streamTotalOk ws ∧
            2 + 2 * (streamB ws).toNat ≤ j ∧ j < ws.length)))

/-- The place of word `j` in the order in which UNSUPPRESS reads a stream of `b` blocks (the pseudocode of
41_unsuppress.md R125): the two header words, then the start and the length of each block in turn, then
the samples. -/
def readRank (b j : Nat) : Nat :=
  if j < 2 then j
  else if j < 2 + b then 2 + 2 * (j - 2)
  else if j < 2 + 2 * b then 3 + 2 * (j - 2 - b)
  else j

/-- Every slot that the completion of the latched command reads is written, so that it cannot fault
(10_state.md R54): the waveform where the prologue passes (40_suppress.md R106, R113), the words of the
stream that UNSUPPRESS comes to read; nothing for a reserved code (60_exceptions.md R139). -/
def State.inputsReady (s : State) : Prop :=
  match s.fetch with
  | .ok .suppress => s.lenIn.toNat ≤ s.params.nMax → s.ibufWritten s.lenIn.toNat
  | .ok .suppressNN =>
    s.lenIn.toNat ≤ s.params.nMax → 0 ≤ s.ndist.toInt → s.ibufWritten s.lenIn.toNat
  | .ok .unsuppress =>
    ∃ ws, s.agreesWithStream ws ∧
      ∀ j, streamReads s.params ws j → (Memory.slot s.mem (ibufOff j)).isSome = true
  | .error _ => True

end Sys2Proof.Machine
end

