-- ==== Sys2Proof/Certificates/Slice0/Obligations.lean ====
section
/-! DEFINITION. The statements for the provers. Each docstring names the rules of spec/ it formalises;
"derived" ones rest on a rule the spec itself marks as derived, or on several rules in part. None rests
on a value of `Config.draw`, on `Config.params` or on the reset value of a field of the model's own. -/

open Sys2Proof Sys2Proof.Machine

/-! ### Command words -/

/-- R91: on an idle block a CTRL write issues command `i` exactly when the masked word is its match; a
word with START = 1 and no match issues a reserved command; a word with START = 0 issues nothing. The
example words are the encoder's. -/
def Obligations.MaskedWordIssuesCommand : Prop :=
  (∀ (s : State) (v : Word), s.busy = false →
    (∀ i, ((s.hostWrite 0x0 v).busy = true ∧ (s.hostWrite 0x0 v).fetch = .ok i) ↔
      v &&& 0xF1#32 = matchWord i) ∧
    (v.getLsbD 0 = true → (∀ i, v &&& 0xF1#32 ≠ matchWord i) →
      (s.hostWrite 0x0 v).busy = true ∧
        (s.hostWrite 0x0 v).fetch = .error (.reservedCommand (v.extractLsb' 4 4))) ∧
    (v.getLsbD 0 = false → (s.hostWrite 0x0 v).busy = false)) ∧
  (encode ⟨.suppress, false⟩ = 0x011#32 ∧ encode ⟨.suppress, true⟩ = 0x111#32 ∧
    encode ⟨.suppressNN, false⟩ = 0x021#32 ∧ encode ⟨.suppressNN, true⟩ = 0x121#32 ∧
    encode ⟨.unsuppress, false⟩ = 0x031#32 ∧ encode ⟨.unsuppress, true⟩ = 0x131#32)

/-- R85, R88, R91 (derived): whatever the reserved bits, the decoder gives back the command and the IE
bit that were encoded; and a word that decodes is that encoding but for its reserved bits. -/
def Obligations.DecodeInvertsEncode : Prop :=
  (∀ (w : Issue) (r : Word), decode (encode w ||| (r &&& 0xFFFFFE0E#32)) = .ok w) ∧
  (∀ (v : Word) (w : Issue), decode v = .ok w → v &&& 0x1F1#32 = encode w)

/-- R88: the reserved bits of a command word change neither what it decodes to nor what the CTRL write
of it does. -/
def Obligations.ReservedCommandBitsAreIgnored : Prop :=
  ∀ (s : State) (v : Word),
    decode v = decode (v &&& 0x1F1#32) ∧ s.hostWrite 0x0 v = s.hostWrite 0x0 (v &&& 0x1F1#32)

/-- R91 (derived): a few command words, written out from the table of the rule. -/
def Obligations.SampleCommandWordsDecode : Prop :=
  decode 0x00000011#32 = .ok ⟨.suppress, false⟩ ∧ decode 0x00000121#32 = .ok ⟨.suppressNN, true⟩ ∧
    decode 0x00000031#32 = .ok ⟨.unsuppress, false⟩ ∧ decode 0xFFFFFE11#32 = .ok ⟨.suppress, false⟩ ∧
    decode 0x00000001#32 = .error (.reservedCommand 0#4) ∧
    decode 0x000000F1#32 = .error (.reservedCommand 15#4) ∧ decode 0x00000110#32 = .error .notIssued

/-! ### The step -/

/-- R56, R86, R147 (derived): while BUSY = 1 the sequencer's scheduled turn is `exec` of the command of
LCMD. The model's choice (log entry 4): with an empty schedule the sequencer moves, so the step is the
same `exec`. -/
def Obligations.StepRunsLatchedCommand : Prop :=
  ∀ (s : State) (i : Instr), s.busy = true → s.fetch = .ok i → i.wellFormed = true →
    (s.schedule = [] → step s = exec i s) ∧
    (∀ ts, s.schedule = .sequencer :: ts → step s = exec i { s with schedule := ts })

/-- The model's choice (log entry 12), on R21 and R147: `withFetchWord` stands for the issuing write made on
an idle sequencer, BUSY cleared first (which no host can do to a busy one) and the sequencer's turn put
next, and the very next step runs the command of the word from the state that write leaves. -/
def Obligations.FetchWordRunsCommand : Prop :=
  ∀ (s : State) (v : Word) (w : Issue), decode v = .ok w →
    step (s.withFetchWord 32 v.toNat) =
      exec w.command { s with
        ctrlCmd := commandCode w.command, ctrlIe := w.ie, lcmd := commandCode w.command,
        busy := true, done := false, errCode := 0#4 }

/-- R21, R55, R147 (derived): on an idle block, the CTRL write of a command word and then the
sequencer's turn perform the command, from the state in which the issue stored CMD, IE and LCMD, set
BUSY and cleared DONE and ERRCODE. -/
def Obligations.IssueThenCompletionPerformsCommand : Prop :=
  ∀ (s : State) (v : Word) (w : Issue), decode v = .ok w → s.busy = false →
    s.schedule = [.host ⟨s.params.base, 4, .write v⟩, .sequencer] →
    Host.Core.run Sys2Proof.core 2 s =
      exec w.command { s with
        ctrlCmd := commandCode w.command, ctrlIe := w.ie, lcmd := commandCode w.command,
        busy := true, done := false, errCode := 0#4, schedule := [], response := .okayWrite }

/-- R75, R159 (derived): a scheduled host access is served in its turn and a scheduled reset takes effect
in its. The model's choices: the schedule itself, and that the sequencer moves where it is empty (log
entry 4, DESIGN CHOICE); that a sequencer's turn while BUSY = 0 changes nothing (log entry 7, DEDUCED
from R56, R147 and R163); that an access outside the window leaves the block as it is and no answer
(log entry 6, DEDUCED from R61). -/
def Obligations.StepServesEachTurn : Prop :=
  ∀ (s : State) (ts : List Turn),
    (∀ op, s.schedule = .host op :: ts → step s = .next (State.hostAccess { s with schedule := ts } op)) ∧
    (s.schedule = .reset :: ts → step s = .next (State.resetInput { s with schedule := ts })) ∧
    (s.busy = false → s.schedule = .sequencer :: ts → step s = .next { s with schedule := ts }) ∧
    (s.busy = false → s.schedule = [] → step s = .next s) ∧
    (∀ op : HostOp, op.addr < s.params.base ∨ s.params.base + 0x100000 ≤ op.addr →
      s.hostAccess op = { s with response := .none })

/-- R171, R147 (derived): from a busy state in which every slot the command reads is written, after any
host accesses that come before it the completion is taken: the machine stands with BUSY = 0 and
DONE = 1. That it follows as soon as the schedule is empty is the model's form of weak fairness (log
entries 4, DESIGN CHOICE, and 15, DEDUCED). -/
def Obligations.PendingCompletionIsTaken : Prop :=
  ∀ (s : State) (ops : List HostOp), s.busy = true → s.inputsReady →
    s.schedule = ops.map Turn.host →
    ∃ t : State, Host.Core.run Sys2Proof.core (ops.length + 1) s = .next t ∧
      t.busy = false ∧ t.done = true ∧ t.schedule = []

/-! ### Host accesses -/

/-- R148: exactly the accesses that are not 4 bytes at a multiple of 4 get ERROR, and they change
nothing else: no register, slot, mark or STATUS bit, nor the interrupt. -/
def Obligations.OnlyIllegalAccessesGetError : Prop :=
  ∀ (s : State) (off size : Nat) (a : Access), off < 0x100000 →
    ((size ≠ 4 ∨ off % 4 ≠ 0) →
      s.hostAccess ⟨s.params.base + off, size, a⟩ = { s with response := .error }) ∧
    (size = 4 → off % 4 = 0 →
      (s.hostAccess ⟨s.params.base + off, size, a⟩).response ≠ .error ∧
      (s.hostAccess ⟨s.params.base + off, size, a⟩).response ≠ .none)

/-- R72 (derived): no read has a side effect: whatever is read, at most the answer and the count of the
drawn values (the model's own, entry 3) change. -/
def Obligations.ReadsHaveNoSideEffect : Prop :=
  ∀ (s : State) (op : HostOp), op.access = .read →
    ∃ r d, s.hostAccess op = { s with response := r, draws := d } ∧ s.draws ≤ d ∧ d ≤ s.draws + 1

/-- R21: a CTRL write with bit 0 = 1 stores CMD and IE whatever BUSY is; on an idle block it latches LCMD,
sets BUSY and clears DONE and ERRCODE; on a busy one it sets BSYERR and leaves the rest. With bit 0 = 0
it stores CMD and IE only. START reads as 0. -/
def Obligations.CommandIssueEffects : Prop :=
  ∀ (s : State) (v : Word),
    (v.getLsbD 0 = true → s.busy = false → s.hostWrite 0x0 v = { s with
      ctrlCmd := v.extractLsb' 4 4, ctrlIe := v.getLsbD 8, lcmd := v.extractLsb' 4 4,
      busy := true, done := false, errCode := 0#4, response := .okayWrite }) ∧
    (v.getLsbD 0 = true → s.busy = true → s.hostWrite 0x0 v = { s with
      ctrlCmd := v.extractLsb' 4 4, ctrlIe := v.getLsbD 8, bsyErr := true, response := .okayWrite }) ∧
    (v.getLsbD 0 = false → s.hostWrite 0x0 v = { s with
      ctrlCmd := v.extractLsb' 4 4, ctrlIe := v.getLsbD 8, response := .okayWrite }) ∧
    (s.readReg .ctrl).getLsbD 0 = false

/-- R29: a STATUS write changes only DONE and BSYERR, each cleared where its bit is 1 (R26, R27); bit 3
and bits [31:8] read 0. -/
def Obligations.StatusWriteClearsWrittenOnes : Prop :=
  ∀ (s : State) (v : Word),
    s.hostWrite 0x4 v = { s with
      done := (if v.getLsbD 1 then false else s.done),
      bsyErr := (if v.getLsbD 2 then false else s.bsyErr), response := .okayWrite } ∧
    (s.readReg .status).getLsbD 3 = false ∧
    ∀ k, 8 ≤ k → (s.readReg .status).getLsbD k = false

/-- R149: while BUSY = 1, an issue, a write to THRESH, NDIST or LEN_IN and a write to an IBUF slot are
dropped and set BSYERR; the running command is not affected. -/
def Obligations.MisuseWhileBusyIsDropped : Prop :=
  ∀ (s : State) (v : Word), s.busy = true →
    (v.getLsbD 0 = true → s.hostWrite 0x0 v = { s with
      ctrlCmd := v.extractLsb' 4 4, ctrlIe := v.getLsbD 8, bsyErr := true, response := .okayWrite }) ∧
    (∀ off ∈ [0x8, 0xC, 0x10], s.hostWrite off v = { s with bsyErr := true, response := .okayWrite }) ∧
    (s.params.wellFormed = true → ∀ i < bufDepth s.params,
      s.hostWrite (0x80000 + 4 * i) v = { s with bsyErr := true, response := .okayWrite })

/-- R30, R31, R32 (derived): on an idle block a write to THRESH, NDIST or LEN_IN stores bits [15:0] and
changes nothing else. -/
def Obligations.ParameterWritesStoreLowHalf : Prop :=
  ∀ (s : State) (v : Word), s.busy = false →
    s.hostWrite 0x8 v = { s with thresh := v.extractLsb' 0 16, response := .okayWrite } ∧
    s.hostWrite 0xC v = { s with ndist := v.extractLsb' 0 16, response := .okayWrite } ∧
    s.hostWrite 0x10 v = { s with lenIn := v.extractLsb' 0 16, response := .okayWrite }

/-- R64 to R67 (derived): reserved offsets, and offsets beyond the last entry or slot of a region, read 0
and ignore writes, with the response OKAY. That a write beyond the last IBUF slot leaves BSYERR alone
also while BUSY = 1 is log entry 8 (DEDUCED from R49 and R66). -/
def Obligations.ReservedOffsetsAreInert : Prop :=
  ∀ (s : State) (off : Nat) (v : Word), s.params.wellFormed = true → off % 4 = 0 →
    (0x24 ≤ off ∧ off < 0x40000 ∨ 0x40000 + 8 * s.params.bMax ≤ off ∧ off < 0x80000 ∨
      0x80000 + 4 * bufDepth s.params ≤ off ∧ off < 0xC0000 ∨
      0xC0000 + 4 * bufDepth s.params ≤ off ∧ off < 0x100000) →
    s.hostRead off = { s with response := .okayRead 0#32 } ∧
      s.hostWrite off v = { s with response := .okayWrite }

/-- R38, and R46, R51 in part: writes to LEN_OUT, NBLK, ERRINFO and CAPS, to the BBRF and to OBUF have no
effect and get OKAY. -/
def Obligations.ReadOnlyTargetsIgnoreWrites : Prop :=
  ∀ (s : State) (off : Nat) (v : Word), off % 4 = 0 →
    (0x14 ≤ off ∧ off ≤ 0x20 ∨ 0x40000 ≤ off ∧ off < 0x80000 ∨ 0xC0000 ≤ off ∧ off < 0x100000) →
    s.hostWrite off v = { s with response := .okayWrite }

/-- R68: a read of a written slot (an IBUF slot, or an OBUF slot while BUSY = 0) answers its word
zero-extended; a write of `v` to an IBUF slot of an idle block stores bits [15:0] there, and every byte
of memory outside the slot reads as before. -/
def Obligations.SlotsHoldSixteenBits : Prop :=
  ∀ (s : State) (i : Nat), s.params.wellFormed = true → i < bufDepth s.params →
    (∀ w, Memory.slot s.mem (ibufOff i) = some w →
      s.hostRead (0x80000 + 4 * i) = { s with response := .okayRead (w.setWidth 32) }) ∧
    (∀ w, s.busy = false → Memory.slot s.mem (obufOff i) = some w →
      s.hostRead (0xC0000 + 4 * i) = { s with response := .okayRead (w.setWidth 32) }) ∧
    (∀ v : Word, s.busy = false →
      (∃ m, s.hostWrite (0x80000 + 4 * i) v = { s with mem := m, response := .okayWrite } ∧
        Memory.slot m (ibufOff i) = some (v.extractLsb' 0 16) ∧
        ∀ a, ¬ inSlot a (ibufOff i) → Memory.read m a = Memory.read s.mem a))

/-- R65 (derived): while BUSY = 0, a read of the BBRF window answers the fields of the entry, each
zero-extended: BS at `0x40000 + 8k`, BL at `0x40004 + 8k`. -/
def Obligations.BlockEntriesReadThrough : Prop :=
  ∀ (s : State) (k : Nat) (b : Block), s.params.wellFormed = true → k < s.params.bMax →
    s.busy = false → s.block k = some b →
    s.hostRead (0x40000 + 8 * k) = { s with response := .okayRead (BitVec.ofNat 32 b.start) } ∧
    s.hostRead (0x40004 + 8 * k) = { s with response := .okayRead (BitVec.ofNat 32 b.len) }

/-- R46, R52, R54 (derived): a read of an OBUF slot or a BBRF field while BUSY = 1, and a read of an
unwritten cell, answer any value, zero-extended; nothing but the count of draws changes. That each such
read takes the next, fresh draw, an unwritten cell's too although R72 calls reads idempotent, is the
model's choice (log entry 3). -/
def Obligations.UnknownReadsAnswerTheNextDraw : Prop :=
  ∀ (s : State) (off i : Nat), s.params.wellFormed = true →
    (off = 0xC0000 + 4 * i ∧ i < bufDepth s.params ∧
        (s.busy = true ∨ Memory.slot s.mem (obufOff i) = none) ∨
      off = 0x40000 + 8 * i ∧ i < s.params.bMax ∧
        (s.busy = true ∨ Memory.slot s.mem (bsOff i) = none) ∨
      off = 0x40004 + 8 * i ∧ i < s.params.bMax ∧
        (s.busy = true ∨ Memory.slot s.mem (blOff i) = none) ∨
      off = 0x80000 + 4 * i ∧ i < bufDepth s.params ∧ Memory.slot s.mem (ibufOff i) = none) →
    s.hostRead off = { s with
      response := .okayRead ((Config.draw s.draws).setWidth 32), draws := s.draws + 1 }

/-- R37: CAPS reads N_MAX in bits [15:0] and B_MAX in bits [31:16], and no step changes it. -/
def Obligations.CapsIsConstant : Prop :=
  (∀ s : State, s.params.wellFormed = true →
    (s.readReg .caps).extractLsb' 0 16 = BitVec.ofNat 16 s.params.nMax ∧
    ((s.readReg .caps).extractLsb' 0 16).toNat = s.params.nMax ∧
    ((s.readReg .caps).extractLsb' 16 16).toNat = s.params.bMax ∧
    s.hostRead 0x20 = { s with response := .okayRead (s.readReg .caps) }) ∧
  ∀ s t : State, step s = .next t → t.params = s.params ∧ t.readReg .caps = s.readReg .caps

/-- R39: every reserved bit of every register reads as 0, and what is written to it has no effect. -/
def Obligations.ReservedBitsAreInert : Prop :=
  ∀ (s : State) (r : Reg),
    s.readReg r &&& ~~~ readableBits r = 0#32 ∧
    s.hostRead (regOff r) = { s with response := .okayRead (s.readReg r) } ∧
    ∀ v : Word, s.hostWrite (regOff r) v = s.hostWrite (regOff r) (v &&& writableBits r)

/-- R20, R22, R23, R25 to R28 (derived): where the fields of CTRL and STATUS stand in what the host
reads, and what the other registers read. -/
def Obligations.RegisterFieldsReadInPlace : Prop :=
  ∀ s : State,
    (s.readReg .ctrl).extractLsb' 4 4 = s.ctrlCmd ∧ (s.readReg .ctrl).getLsbD 8 = s.ctrlIe ∧
    (s.readReg .status).getLsbD 0 = s.busy ∧ (s.readReg .status).getLsbD 1 = s.done ∧
    (s.readReg .status).getLsbD 2 = s.bsyErr ∧ (s.readReg .status).extractLsb' 4 4 = s.errCode ∧
    (s.readReg .thresh).extractLsb' 0 16 = s.thresh ∧ (s.readReg .ndist).extractLsb' 0 16 = s.ndist ∧
    (s.readReg .lenIn).extractLsb' 0 16 = s.lenIn ∧ (s.readReg .lenOut).extractLsb' 0 16 = s.lenOut ∧
    (s.readReg .nblk).extractLsb' 0 16 = s.nblk ∧ (s.readReg .errInfo).extractLsb' 0 16 = s.errInfo

/-- R59: the interrupt output is CTRL.IE AND STATUS.DONE at every instant, as the host reads the two
bits; R150 in part: a STATUS write of bit 1, an issue on an idle block and a CTRL write of IE = 0 each
drop it. -/
def Obligations.InterruptIsEnableAndDone : Prop :=
  ∀ s : State,
    s.irq = ((s.readReg .ctrl).getLsbD 8 && (s.readReg .status).getLsbD 1) ∧
    (∀ v : Word, v.getLsbD 1 = true → (s.hostWrite 0x4 v).irq = false) ∧
    (∀ v : Word, v.getLsbD 0 = true → s.busy = false → (s.hostWrite 0x0 v).irq = false) ∧
    (∀ v : Word, v.getLsbD 8 = false → (s.hostWrite 0x0 v).irq = false) ∧
    (∀ v : Word, v.getLsbD 0 = false → (s.hostWrite 0x0 v).done = s.done)

/-! ### What only some steps do -/

/-- R25 (derived): BUSY is bit 0 of STATUS and resets to 0; it rises exactly at a command issue, and
falls exactly at a completion or at reset. That the completion is also the step of an empty schedule is
the model's choice (log entry 4). -/
def Obligations.BusyFollowsIssueAndCompletion : Prop :=
  (∀ s t : State, step s = .next t →
    (s.busy = false → (t.busy = true ↔
      ∃ v ts, s.schedule = .host ⟨s.params.base, 4, .write v⟩ :: ts ∧ v.getLsbD 0 = true)) ∧
    (s.busy = true → (t.busy = false ↔
      s.schedule = [] ∨ ∃ ts, s.schedule = .sequencer :: ts ∨ s.schedule = .reset :: ts))) ∧
  (∀ s : State, (s.readReg .status).getLsbD 0 = s.busy ∧ s.resetInput.busy = false)

/-- R27: BSYERR is bit 2 of STATUS and resets to 0; it is set exactly by an issue, a parameter write or
an IBUF write while BUSY = 1, and cleared exactly by a STATUS write of bit 2 or by reset. -/
def Obligations.MisuseFlagChangesOnlyAsTold : Prop :=
  (∀ s t : State, s.params.wellFormed = true → step s = .next t →
    (s.bsyErr = false → (t.bsyErr = true ↔ s.busy = true ∧
      ∃ off v ts, s.schedule = .host ⟨s.params.base + off, 4, .write v⟩ :: ts ∧
        (off = 0x0 ∧ v.getLsbD 0 = true ∨ off ∈ [0x8, 0xC, 0x10] ∨
          ∃ i < bufDepth s.params, off = 0x80000 + 4 * i))) ∧
    (s.bsyErr = true → (t.bsyErr = false ↔
      (∃ v ts, s.schedule = .host ⟨s.params.base + 4, 4, .write v⟩ :: ts ∧ v.getLsbD 2 = true) ∨
        ∃ ts, s.schedule = .reset :: ts))) ∧
  (∀ s : State, (s.readReg .status).getLsbD 2 = s.bsyErr ∧ s.resetInput.bsyErr = false)

/-- R34, R35, R36, R44, R51 (derived): no host access writes LEN_OUT, NBLK or ERRINFO, or a byte of the
BBRF or OBUF windows; it leaves LCMD unless it is an issue on an idle block. -/
def Obligations.HostAccessesKeepResults : Prop :=
  ∀ (s : State) (op : HostOp), s.params.wellFormed = true →
    (s.hostAccess op).lenOut = s.lenOut ∧ (s.hostAccess op).nblk = s.nblk ∧
    (s.hostAccess op).errInfo = s.errInfo ∧ (s.hostAccess op).params = s.params ∧
    (∀ a, a < 0x80000 ∨ 0xC0000 ≤ a →
      Memory.read (s.hostAccess op).mem a = Memory.read s.mem a) ∧
    ((s.hostAccess op).lcmd ≠ s.lcmd → s.busy = false ∧ (s.hostAccess op).busy = true)

/-- R77 (derived): while BUSY = 1 no host access changes what the running command reads, THRESH, NDIST,
LEN_IN, IBUF and LCMD, nor OBUF, the BBRF or BUSY. -/
def Obligations.InputsAreFrozenWhileBusy : Prop :=
  ∀ (s : State) (op : HostOp), s.busy = true →
    (s.hostAccess op).thresh = s.thresh ∧ (s.hostAccess op).ndist = s.ndist ∧
    (s.hostAccess op).lenIn = s.lenIn ∧ (s.hostAccess op).lcmd = s.lcmd ∧
    (s.hostAccess op).mem = s.mem ∧ (s.hostAccess op).busy = true ∧
    (s.hostAccess op).params = s.params

/-- R58, R77 (derived): performing a command in one step is exact for the host. Whatever host accesses
come between the issue and the completion, the completion computes the same: the outcomes differ only in
CTRL, BSYERR and the model's own fields, which are as the accesses left them. -/
def Obligations.CompletionIgnoresAccessesWhileBusy : Prop :=
  ∀ (s : State) (ops : List HostOp), s.busy = true →
    sequencerTurn (s.hostAccesses ops) =
      mapNext (fun t => { t with
        ctrlCmd := (s.hostAccesses ops).ctrlCmd, ctrlIe := (s.hostAccesses ops).ctrlIe,
        bsyErr := (s.hostAccesses ops).bsyErr, draws := (s.hostAccesses ops).draws,
        response := (s.hostAccesses ops).response }) (sequencerTurn s)

/-- R124, R133 (derived): SUPPRESS does not read NDIST; UNSUPPRESS reads neither THRESH nor NDIST. -/
def Obligations.CommandsIgnoreWhatTheyDoNotRead : Prop :=
  ∀ (s : State) (t d : Half),
    exec .suppress { s with ndist := d } =
      mapNext (fun u => { u with ndist := d }) (exec .suppress s) ∧
    exec .unsuppress { s with thresh := t, ndist := d } =
      mapNext (fun u => { u with thresh := t, ndist := d }) (exec .unsuppress s)

/-! ### Completion and errors -/

/-- R147 (derived): every completion lowers BUSY and raises DONE, writes ERRINFO 0 on success, and
leaves CTRL, BSYERR, the parameter registers and LCMD. -/
def Obligations.EveryCompletionRaisesDone : Prop :=
  ∀ s t : State, s.busy = true → sequencerTurn s = .next t →
    t.busy = false ∧ t.done = true ∧ s.keepsControls t ∧ (t.errCode = 0#4 → t.errInfo = 0#16)

/-- R139: when LCMD is 0 or 4 to 15 the completion ends with ERRCODE 1 and ERRINFO = zext(LCMD), whatever
the parameter registers and IBUF hold, and writes no OBUF slot or BBRF entry. -/
def Obligations.ReservedCommandCompletesIllegal : Prop :=
  ∀ s : State, s.busy = true → s.lcmd ≠ 1#4 → s.lcmd ≠ 2#4 → s.lcmd ≠ 3#4 →
    sequencerTurn s = .next (s.failedWith 1#4 (BitVec.ofNat 16 s.lcmd.toNat))

/-- R140: ERR_BAD_LENGTH, ERRINFO = LEN_IN, exactly when LEN_IN is above N_MAX for the suppress commands,
and below 2 or above BUF_DEPTH for UNSUPPRESS. -/
def Obligations.BadLengthExactlyOutOfRange : Prop :=
  ∀ s : State,
    (s.params.nMax < s.lenIn.toNat →
      exec .suppress s = .next (s.failedWith 2#4 s.lenIn) ∧
      exec .suppressNN s = .next (s.failedWith 2#4 s.lenIn)) ∧
    (s.lenIn.toNat < 2 ∨ bufDepth s.params < s.lenIn.toNat →
      exec .unsuppress s = .next (s.failedWith 2#4 s.lenIn)) ∧
    (∀ i t, exec i s = .next t → t.errCode = 2#4 →
      (i ≠ .unsuppress ∧ s.params.nMax < s.lenIn.toNat) ∨
      (i = .unsuppress ∧ (s.lenIn.toNat < 2 ∨ bufDepth s.params < s.lenIn.toNat)))

/-- R141: ERR_BAD_NDIST, ERRINFO = NDIST, is raised only by SUPPRESS_NN, when sext16(NDIST) < 0 (and the
length is legal, R145). -/
def Obligations.BadDistanceOnlyWhenNegative : Prop :=
  ∀ s : State,
    (s.lenIn.toNat ≤ s.params.nMax → s.ndist.toInt < 0 →
      exec .suppressNN s = .next (s.failedWith 3#4 s.ndist)) ∧
    (∀ i t, exec i s = .next t → t.errCode = 3#4 → i = .suppressNN ∧ s.ndist.toInt < 0)

/-- R142: ERR_BAD_HEADER is raised only by UNSUPPRESS, with ERRINFO 0 when the N word is outside
0..N_MAX, with ERRINFO 1 when the B word is outside 0..B_MAX or 2 + 2B > L. -/
def Obligations.BadHeaderNamesTheWord : Prop :=
  (∀ (s : State) (w0 : Half), 2 ≤ s.lenIn.toNat → s.lenIn.toNat ≤ bufDepth s.params →
    Memory.slot s.mem (ibufOff 0) = some w0 →
    (w0.toInt < 0 ∨ (s.params.nMax : Int) < w0.toInt →
      exec .unsuppress s = .next (s.failedWith 4#4 0#16)) ∧
    (0 ≤ w0.toInt → w0.toInt ≤ s.params.nMax →
      ∀ w1, Memory.slot s.mem (ibufOff 1) = some w1 →
        (w1.toInt < 0 ∨ (s.params.bMax : Int) < w1.toInt ∨ (s.lenIn.toNat : Int) < 2 + 2 * w1.toInt) →
        exec .unsuppress s = .next (s.failedWith 4#4 1#16))) ∧
  (∀ i s t, exec i s = .next t → t.errCode = 4#4 → i = .unsuppress)

/-- R143: ERR_BAD_BLOCK is raised only by UNSUPPRESS, for the first block `k` that fails a check of R129,
with ERRINFO = k, whatever the slots hold that are not read before (R125), unwritten ones too. -/
def Obligations.BadBlockNamesTheFirst : Prop :=
  (∀ (s : State) (ws : List Half) (k : Nat), s.holdsBlockWords ws (k + 1) →
    streamLengthOk s.params ws → streamNOk s.params ws → streamBOk s.params ws →
    k < (streamB ws).toNat →
    (∀ j < k, streamBlockOk ws j) → ¬ streamBlockOk ws k →
    exec .unsuppress s = .next (s.failedWith 5#4 (BitVec.ofNat 16 k))) ∧
  (∀ i s t, exec i s = .next t → t.errCode = 5#4 → i = .unsuppress)

/-- R144: ERR_SIZE_MISMATCH is raised only by UNSUPPRESS, when the block lengths do not sum to the number
of sample words, with ERRINFO the sum mod 2^16, whatever the sample slots hold (R125), unwritten ones
too. -/
def Obligations.SizeMismatchReportsTheSum : Prop :=
  (∀ (s : State) (ws : List Half), s.holdsBlockWords ws (streamB ws).toNat →
    streamLengthOk s.params ws → streamNOk s.params ws → streamBOk s.params ws →
    (∀ k < (streamB ws).toNat, streamBlockOk ws k) → ¬ streamTotalOk ws →
    exec .unsuppress s =
      .next (s.failedWith 6#4 (BitVec.ofInt 16 (streamTotal ws (streamB ws).toNat)))) ∧
  (∀ i s t, exec i s = .next t → t.errCode = 6#4 → i = .unsuppress)

/-- R146: a command that ends with an error leaves LEN_OUT = NBLK = 0, ERRINFO, ERRCODE, BUSY = 0 and
DONE = 1, and everything else, OBUF, the BBRF and their marks among it, unchanged; so does a reserved
code. -/
def Obligations.FailedCommandChangesOnlyResults : Prop :=
  ∀ s t : State, ((∃ i, exec i s = .next t) ∨ s.busy = true ∧ sequencerTurn s = .next t) →
    t.errCode ≠ 0#4 → t = s.failedWith t.errCode t.errInfo

/-- R54, R125 (derived): a suppress command faults exactly when its prologue passes and a slot of its
waveform is unwritten. UNSUPPRESS faults exactly when it comes to read an unwritten slot of its stream,
the reads in pseudocode order: the N word, the B word, each block's start and length, the samples. The
fault names the first such slot; for the suppress commands, whose model reads the waveform in rising
order before the scan, that slot is the model's own detail (log entry 10, DEDUCED). A whole written
stream never faults, and no command is ever refused. -/
def Obligations.CommandFaultsOnlyOnUnwrittenSlot : Prop :=
  ∀ s : State,
    (∀ j, (exec .suppress s = .fault (.unwrittenIbuf j) ↔
        s.lenIn.toNat ≤ s.params.nMax ∧ j < s.lenIn.toNat ∧
          Memory.slot s.mem (ibufOff j) = none ∧ s.ibufWritten j) ∧
      (exec .suppressNN s = .fault (.unwrittenIbuf j) ↔
        s.lenIn.toNat ≤ s.params.nMax ∧ 0 ≤ s.ndist.toInt ∧ j < s.lenIn.toNat ∧
          Memory.slot s.mem (ibufOff j) = none ∧ s.ibufWritten j)) ∧
    (∀ ws, s.agreesWithStream ws → ∀ j,
      (exec .unsuppress s = .fault (.unwrittenIbuf j) ↔
        streamReads s.params ws j ∧ Memory.slot s.mem (ibufOff j) = none ∧
          ∀ i < ws.length, readRank (streamB ws).toNat i < readRank (streamB ws).toNat j →
            (Memory.slot s.mem (ibufOff i)).isSome = true)) ∧
    (s.ibufWritten s.lenIn.toNat → ∃ t, exec .unsuppress s = .next t) ∧
    (∀ i r, exec i s ≠ .refused r)

/-- R44, R51 (derived), the frame of the three commands: a completion changes no control or parameter
register, and no byte of memory but those of OBUF[0..LEN_OUT-1] and BBRF entries 0..NBLK-1, none after
an error. -/
def Obligations.CommandsStoreOnlyTheirResults : Prop :=
  ∀ (i : Instr) (s t : State), s.params.wellFormed = true → exec i s = .next t →
    s.keepsControls t ∧ ∀ a, ¬ t.storedBy a → Memory.read t.mem a = Memory.read s.mem a

/-! ### The suppress commands -/

/-- R104, R105 (derived): the comparator's corner cases: threshold 0, thresholds of 32768 and above,
the sample 0x8000, symmetry in sign, equality; and the encoding a command writes when nothing is
active. -/
def Obligations.ComparatorCornerCases : Prop :=
  (∀ t w : Half, active t w = true ↔ (t.toNat : Int) < |w.toInt|) ∧
  (∀ w : Half, active 0#16 w = true ↔ w ≠ 0#16) ∧
  (∀ t w : Half, 32768 ≤ t.toNat → active t w = false) ∧
  (∀ t : Half, t.toNat ≤ 32767 → active t 0x8000#16 = true) ∧
  (∀ t w w' : Half, w'.toInt = - w.toInt → active t w = active t w') ∧
  (∀ t w : Half, |w.toInt| = t.toNat → active t w = false) ∧
  (∀ (s : State) (xs : List Half), s.holdsWaveform xs → 32768 ≤ s.thresh.toNat →
    ∀ i, i ≠ .unsuppress → (i = .suppressNN → 0 ≤ s.ndist.toInt) → ∃ t, exec i s = .next t ∧ t.errCode = 0#4 ∧
      t.lenOut = 2#16 ∧ t.nblk = 0#16 ∧ t.obufWord 0 = some s.lenIn ∧ t.obufWord 1 = some 0#16)

/-- R108, R109 (derived): SUPPRESS of a written waveform of legal length completes, and the blocks it
records, in ascending order, are exactly the maximal runs of active samples, each with its closing
sample unless the run ends the waveform. -/
def Obligations.SuppressRecordsMaximalRuns : Prop :=
  ∀ (s : State) (xs : List Half), s.holdsWaveform xs →
    ∃ t bs, exec .suppress s = .next t ∧ t.errCode = 0#4 ∧ t.errInfo = 0#16 ∧ t.busy = false ∧
      t.done = true ∧ t.recordsBlocks bs ∧ bs.Pairwise (fun b c => b.start < c.start) ∧
      ∀ b, b ∈ bs ↔ ∃ f l, maximalRun s.thresh xs f l ∧ b = runBlock xs.length f l

/-- R113, R120 (derived): SUPPRESS_NN of a written waveform of legal length with D >= 0 completes, and
the blocks it records, in ascending order, are exactly the groups of active samples with gaps of at most
G = max(D + 2, 2D), padded by D on each side and clamped to the waveform; consecutive blocks are
strictly separated, and every block holds an active sample. -/
def Obligations.SuppressNNRecordsGroups : Prop :=
  ∀ (s : State) (xs : List Half), s.holdsWaveform xs → 0 ≤ s.ndist.toInt →
    ∃ t bs, exec .suppressNN s = .next t ∧ t.errCode = 0#4 ∧ t.errInfo = 0#16 ∧ t.busy = false ∧
      t.done = true ∧ t.recordsBlocks bs ∧
      bs.Pairwise (fun b c => b.start + b.len < c.start) ∧
      (∀ b, b ∈ bs ↔ ∃ f l, activeGroup s.thresh s.distance xs f l ∧
        b = groupBlock s.distance xs.length f l) ∧
      ∀ b ∈ bs, ∃ p, b.start ≤ p ∧ p < b.start + b.len ∧ activeAt s.thresh xs p

/-- R97; R92 to R96, R98 and R107 in part: the stream a suppress command writes: N, B, the starts, the
lengths, and the samples of the blocks in block order and in-block order, each copied raw; LEN_OUT is
2 + 2B + the sum of the lengths. -/
def Obligations.EncodedStreamLayout : Prop :=
  ∀ (i : Instr) (s : State) (xs : List Half), i ≠ .unsuppress → s.holdsWaveform xs →
    (i = .suppressNN → 0 ≤ s.ndist.toInt) →
    ∃ t bs, exec i s = .next t ∧ t.errCode = 0#4 ∧ t.recordsBlocks bs ∧
      t.obufWord 0 = some s.lenIn ∧ t.obufWord 1 = some t.nblk ∧
      (∀ k b, bs[k]? = some b →
        (t.obufWord (2 + k)).map BitVec.toNat = some b.start ∧
        (t.obufWord (2 + bs.length + k)).map BitVec.toNat = some b.len ∧
        ∀ m < b.len,
          t.obufWord (2 + 2 * bs.length + samplesBefore bs k + m) = xs[b.start + m]? ∧
          (xs[b.start + m]?).isSome = true) ∧
      t.lenOut.toNat = 2 + 2 * bs.length + samplesBefore bs bs.length

/-- R99, R111, R121 (derived): the block list a suppress command records ascends, does not overlap, lies
inside the waveform and has no empty block; it has at most ceil(N/2) blocks, of at most N samples in
all; the stream fits OBUF. -/
def Obligations.SuppressBlockListIsValid : Prop :=
  ∀ (i : Instr) (s : State) (xs : List Half), i ≠ .unsuppress → s.holdsWaveform xs →
    (i = .suppressNN → 0 ≤ s.ndist.toInt) →
    ∃ t bs, exec i s = .next t ∧ t.errCode = 0#4 ∧ t.recordsBlocks bs ∧
      blockListValid xs.length bs ∧ bs.length ≤ (xs.length + 1) / 2 ∧
      samplesBefore bs bs.length ≤ xs.length ∧ bs.length ≤ s.params.bMax ∧
      t.lenOut.toNat ≤ 2 + 2 * ((xs.length + 1) / 2) + xs.length ∧
      t.lenOut.toNat ≤ bufDepth s.params ∧
      (i = .suppressNN → samplesBefore bs bs.length + (bs.length - 1) ≤ xs.length)

/-- R100 (derived): the header words a suppress command writes, N, B, the starts and the lengths, lie in
0..32766. -/
def Obligations.HeaderWordsStayNonNegative : Prop :=
  ∀ (i : Instr) (s t : State), i ≠ .unsuppress → s.params.wellFormed = true →
    exec i s = .next t → t.errCode = 0#4 →
    ∀ j < 2 + 2 * t.nblk.toNat, ∃ w, t.obufWord j = some w ∧ w.toNat ≤ 32766

/-! ### UNSUPPRESS -/

/-- R131; R132 in part: UNSUPPRESS of a valid stream completes with LEN_OUT = N and NBLK = B, loads the
BBRF with the stream's blocks, copies every sample word raw to its place in its block and leaves 0 in
every other slot of OBUF[0..N-1]. -/
def Obligations.UnsuppressReinflates : Prop :=
  ∀ (s : State) (ws : List Half), s.holdsStream ws → streamValid s.params ws →
    ∃ t, exec .unsuppress s = .next t ∧ t.errCode = 0#4 ∧ t.errInfo = 0#16 ∧ t.busy = false ∧
      t.done = true ∧ (t.lenOut.toNat : Int) = streamN ws ∧ (t.nblk.toNat : Int) = streamB ws ∧
      (∀ k < (streamB ws).toNat,
        t.block k = some ⟨(streamStart ws k).toNat, (streamLen ws k).toNat⟩ ∧
        ∀ m < (streamLen ws k).toNat,
          t.obufWord ((streamStart ws k).toNat + m) =
            ws[2 + 2 * (streamB ws).toNat + (streamTotal ws k).toNat + m]? ∧
          (t.obufWord ((streamStart ws k).toNat + m)).isSome = true) ∧
      ∀ j : Nat, (j : Int) < streamN ws →
        (∀ k < (streamB ws).toNat,
          ¬ (streamStart ws k ≤ j ∧ (j : Int) < streamStart ws k + streamLen ws k)) →
        t.obufWord j = some 0#16

/-- R136: UNSUPPRESS of a written stream always completes, and it succeeds exactly on the
streams that meet R126 to R130. -/
def Obligations.UnsuppressAcceptsExactlyValidStreams : Prop :=
  ∀ (s : State) (ws : List Half), s.holdsStream ws →
    ∃ t, exec .unsuppress s = .next t ∧ (t.errCode = 0#4 ↔ streamValid s.params ws)

/-- R134, R135 (derived): the round trip. Take what a suppress command that succeeded left in OBUF as
the stream of UNSUPPRESS, on any state of the same implementation: UNSUPPRESS succeeds, gives back the
N samples, each with its value where a block records it and 0 elsewhere, and so gives back the waveform
exactly when every unrecorded sample is 0. -/
def Obligations.RoundTripKeepsRecordedSamples : Prop :=
  ∀ (i : Instr) (s t u : State) (xs : List Half), i ≠ .unsuppress → s.holdsWaveform xs →
    exec i s = .next t → t.errCode = 0#4 → u.params = s.params → u.lenIn = t.lenOut →
    (∀ j < t.lenOut.toNat, Memory.slot u.mem (ibufOff j) = t.obufWord j) →
    ∃ y, exec .unsuppress u = .next y ∧ y.errCode = 0#4 ∧ y.lenOut.toNat = xs.length ∧
      (∀ j < xs.length,
        (t.recorded j → y.obufWord j = xs[j]?) ∧ (¬ t.recorded j → y.obufWord j = some 0#16)) ∧
      ((∀ j < xs.length, y.obufWord j = xs[j]?) ↔
        ∀ j < xs.length, ¬ t.recorded j → xs[j]? = some 0#16)

/-! ### Reset -/

/-- R160: after a reset step every register reads 0 but CAPS, which reads as before, LCMD is 0, the
sequencer is IDLE and the interrupt is low. -/
def Obligations.ResetZeroesRegisters : Prop :=
  ∀ (s : State) (ts : List Turn), s.schedule = .reset :: ts →
    ∃ t, step s = .next t ∧ (∀ r, r ≠ .caps → t.readReg r = 0#32) ∧
      t.readReg .caps = s.readReg .caps ∧ t.params = s.params ∧ t.lcmd = 0#4 ∧ t.busy = false ∧
      t.irq = false ∧ t.schedule = ts

/-- R161: after a reset step, at any time, every IBUF slot, OBUF slot and BBRF entry is unwritten. -/
def Obligations.ResetUnwritesStorage : Prop :=
  ∀ (s : State) (ts : List Turn), s.schedule = .reset :: ts →
    ∃ t, step s = .next t ∧ (∀ a, Memory.read t.mem a = none) ∧
      ∀ j, t.obufWord j = none ∧ t.block j = none ∧ Memory.slot t.mem (ibufOff j) = none

/-- R162 (derived): a reset while BUSY = 1 abandons the command: the sequencer's next turn does nothing,
no result register is written, DONE is not set and irq does not rise. -/
def Obligations.ResetAbandonsTheCommand : Prop :=
  ∀ (s : State) (ts : List Turn), s.busy = true → s.schedule = .reset :: .sequencer :: ts →
    ∃ t, Host.Core.run Sys2Proof.core 2 s = .next t ∧ t.schedule = ts ∧ t.busy = false ∧
      t.done = false ∧ t.irq = false ∧ t.lenOut = 0#16 ∧ t.nblk = 0#16 ∧ t.errInfo = 0#16 ∧
      t.errCode = 0#4 ∧ ∀ j, t.obufWord j = none ∧ t.block j = none

/-! ### Invariants -/

/-- R138, R25, R26, R28, R146 (derived): the flags' invariant is kept by every step. -/
def Obligations.FlagsInvariantIsKept : Prop :=
  ∀ s t : State, s.flagsInv → step s = .next t → t.flagsInv

/-- R54, R65 to R68, R69 (derived): the storage invariant is kept by every step: the memory keeps its
canonical form, and every access of the sequencer is to a slot or entry that exists. -/
def Obligations.StorageInvariantIsKept : Prop :=
  ∀ s t : State, s.storageInv → step s = .next t → t.storageInv

/-- R35, R42, R43, R51, R111, R121 (derived): the results' invariant is kept by every step. -/
def Obligations.ResultsInvariantIsKept : Prop :=
  ∀ s t : State, s.resultsInv → step s = .next t → t.resultsInv

/-- R160, R161 (derived): every invariant holds after reset, for every implementation. -/
def Obligations.ResetMeetsInvariants : Prop :=
  ∀ p : Params, p.wellFormed = true →
    (State.resetOf p).flagsInv ∧ (State.resetOf p).storageInv ∧ (State.resetOf p).resultsInv
end

