-- ==== Sys2Proof/Laws/Memory.lean ====
section
/-! SUPPORT. The laws of the memory: a read after a write, and the canonical form kept by every memory
operation. -/

namespace Sys2Proof.Machine

open Sys2Proof

/-- A byte reads as it was written. -/
@[simp] theorem Memory.read_write_same (m : Memory) (a : Nat) (v : Byte) :
    Memory.read (Memory.write m a v) a = some v := by
  induction m with
  | nil => simp [Memory.write, Memory.read]
  | cons c m ih =>
    obtain ⟨b, u⟩ := c
    by_cases h1 : a < b
    · simp [Memory.write, Memory.read, h1]
    · by_cases h2 : a = b
      · simp [Memory.write, Memory.read, h2]
      · have h3 : b ≠ a := fun h => h2 h.symm
        simp [Memory.write, Memory.read, h1, h2, h3, ih]

/-- A write leaves every other byte as it was. -/
theorem Memory.read_write_other (m : Memory) (a b : Nat) (v : Byte) (h : b ≠ a) :
    Memory.read (Memory.write m a v) b = Memory.read m b := by
  induction m with
  | nil => simp [Memory.write, Memory.read, h.symm]
  | cons c m ih =>
    obtain ⟨d, u⟩ := c
    by_cases h1 : a < d
    · simp [Memory.write, Memory.read, h1, h.symm]
    · by_cases h2 : a = d
      · subst h2
        simp [Memory.write, Memory.read, h.symm]
      · simp [Memory.write, Memory.read, h1, h2, ih]

/-- Reading one byte after writing another, in one equation. -/
theorem Memory.read_write (m : Memory) (a b : Nat) (v : Byte) :
    Memory.read (Memory.write m a v) b = if b = a then some v else Memory.read m b := by
  by_cases h : b = a
  · subst h; simp
  · simp [h, Memory.read_write_other m a b v h]

/-- A write above `lo` keeps the offsets rising from `lo`. -/
theorem Memory.risesFrom_write (m : Memory) (lo a : Nat) (v : Byte)
    (h : Memory.risesFrom lo m = true) (ha : lo < a) :
    Memory.risesFrom lo (Memory.write m a v) = true := by
  induction m generalizing lo with
  | nil => simp [Memory.write, Memory.risesFrom, ha]
  | cons c m ih =>
    obtain ⟨b, u⟩ := c
    simp only [Memory.risesFrom, Bool.and_eq_true, decide_eq_true_eq] at h
    by_cases h1 : a < b
    · simp [Memory.write, Memory.risesFrom, h1, ha, h.2]
    · by_cases h2 : a = b
      · subst h2
        simp [Memory.write, Memory.risesFrom, ha, h.2]
      · have h3 : b < a := by omega
        simp [Memory.write, Memory.risesFrom, h1, h2, h.1, ih b h.2 h3]

/-- A byte write keeps the canonical form. -/
theorem Memory.wf_write (m : Memory) (a : Nat) (v : Byte) (h : Memory.wf m = true) :
    Memory.wf (Memory.write m a v) = true := by
  cases m with
  | nil => rfl
  | cons c m =>
    obtain ⟨b, u⟩ := c
    simp only [Memory.wf] at h
    by_cases h1 : a < b
    · simp [Memory.write, Memory.wf, Memory.risesFrom, h1, h]
    · by_cases h2 : a = b
      · subst h2
        simpa [Memory.write, Memory.wf] using h
      · have h3 : b < a := by omega
        simp [Memory.write, Memory.wf, h1, h2, Memory.risesFrom_write m b a v h h3]

/-- A slot write keeps the canonical form. -/
theorem Memory.wf_writeSlot (m : Memory) (off : Nat) (w : Half) (h : Memory.wf m = true) :
    Memory.wf (Memory.writeSlot m off w) = true :=
  Memory.wf_write _ _ _ (Memory.wf_write _ _ _ h)

/-- Writing a run of slots keeps the canonical form. -/
theorem Memory.wf_writeSlots (m : Memory) (off : Nat) (ws : List Half) (h : Memory.wf m = true) :
    Memory.wf (Memory.writeSlots m off ws) = true := by
  induction ws generalizing m off with
  | nil => exact h
  | cons w ws ih => exact ih _ _ (Memory.wf_writeSlot m off w h)

/-- Writing BBRF entries keeps the canonical form. -/
theorem Memory.wf_writeBlocks (m : Memory) (k : Nat) (bs : List Block) (h : Memory.wf m = true) :
    Memory.wf (Memory.writeBlocks m k bs) = true := by
  induction bs generalizing m k with
  | nil => exact h
  | cons b bs ih => exact ih _ _ (Memory.wf_writeSlot _ _ _ (Memory.wf_writeSlot _ _ _ h))

/-- A slot write leaves every byte outside the slot's two as it was. -/
theorem Memory.read_writeSlot_other (m : Memory) (off a : Nat) (w : Half) (h0 : a ≠ off)
    (h1 : a ≠ off + 1) : Memory.read (Memory.writeSlot m off w) a = Memory.read m a := by
  rw [Memory.writeSlot, Memory.read_write_other _ _ _ _ h1, Memory.read_write_other _ _ _ _ h0]

/-- A slot reads as it was written. -/
@[simp] theorem Memory.slot_writeSlot_same (m : Memory) (off : Nat) (w : Half) :
    Memory.slot (Memory.writeSlot m off w) off = some w := by
  have h0 : Memory.read (Memory.writeSlot m off w) off = some (w.extractLsb' 0 8) := by
    rw [Memory.writeSlot, Memory.read_write_other _ _ _ _ (by omega), Memory.read_write_same]
  have h1 : Memory.read (Memory.writeSlot m off w) (off + 1) = some (w.extractLsb' 8 8) := by
    rw [Memory.writeSlot, Memory.read_write_same]
  have hw : w.extractLsb' 8 8 ++ w.extractLsb' 0 8 = w := by
    apply BitVec.eq_of_getLsbD_eq
    intro i hi
    rw [BitVec.getLsbD_append]
    by_cases h : i < 8
    · simp [h]
    · have h' : i - 8 < 8 := by omega
      have h'' : 8 + (i - 8) = i := by omega
      simp [h, h', h'']
  simp only [Memory.slot, h0, h1, hw]

/-- A slot write leaves a slot that shares no byte with it as it was. -/
theorem Memory.slot_writeSlot_other (m : Memory) (off off' : Nat) (w : Half)
    (h : off' + 1 < off ∨ off + 1 < off') :
    Memory.slot (Memory.writeSlot m off w) off' = Memory.slot m off' := by
  simp only [Memory.slot]
  rw [Memory.read_writeSlot_other _ _ _ _ (by omega) (by omega),
    Memory.read_writeSlot_other _ _ _ _ (by omega) (by omega)]

/-- Writing a run of `ws.length` slots from `off` leaves every byte outside their words as it was. -/
theorem Memory.read_writeSlots_other (m : Memory) (off a : Nat) (ws : List Half)
    (h : ∀ j < ws.length, a ≠ off + 4 * j ∧ a ≠ off + 4 * j + 1) :
    Memory.read (Memory.writeSlots m off ws) a = Memory.read m a := by
  induction ws generalizing m off with
  | nil => rfl
  | cons w ws ih =>
    rw [Memory.writeSlots, ih]
    · have h0 := h 0 (by simp)
      exact Memory.read_writeSlot_other _ _ _ _ (by omega) (by omega)
    · intro j hj
      have := h (j + 1) (by simpa using hj)
      omega

/-- Writing a run of slots leaves a slot below it as it was. -/
theorem Memory.slot_writeSlots_below (m : Memory) (off off' : Nat) (ws : List Half)
    (h : off' + 1 < off) : Memory.slot (Memory.writeSlots m off ws) off' = Memory.slot m off' := by
  simp only [Memory.slot]
  rw [Memory.read_writeSlots_other _ _ _ _ (fun j _ => by omega),
    Memory.read_writeSlots_other _ _ _ _ (fun j _ => by omega)]

/-- The `j`-th slot of a run reads as it was written. -/
theorem Memory.slot_writeSlots (m : Memory) (off j : Nat) (ws : List Half) (h : j < ws.length) :
    Memory.slot (Memory.writeSlots m off ws) (off + 4 * j) = ws[j]? := by
  induction ws generalizing m off j with
  | nil => simp at h
  | cons w ws ih =>
    cases j with
    | zero =>
      rw [Memory.writeSlots, Memory.slot_writeSlots_below _ _ _ _ (by omega)]
      simp
    | succ j =>
      have := ih (Memory.writeSlot m off w) (off + 4) j (by simpa using h)
      rw [Memory.writeSlots, show off + 4 * (j + 1) = off + 4 + 4 * j by omega, this]
      simp

/-- Writing the BBRF entries of `bs` from entry `k` on leaves every byte outside them as it was. -/
theorem Memory.read_writeBlocks_other (m : Memory) (k a : Nat) (bs : List Block)
    (h : ∀ j < bs.length, a ≠ bsOff (k + j) ∧ a ≠ bsOff (k + j) + 1 ∧ a ≠ blOff (k + j) ∧
      a ≠ blOff (k + j) + 1) :
    Memory.read (Memory.writeBlocks m k bs) a = Memory.read m a := by
  induction bs generalizing m k with
  | nil => rfl
  | cons b bs ih =>
    rw [Memory.writeBlocks, ih]
    · have h0 := h 0 (by simp)
      simp only [Nat.add_zero] at h0
      rw [Memory.read_writeSlot_other _ _ _ _ h0.2.2.1 h0.2.2.2,
        Memory.read_writeSlot_other _ _ _ _ h0.1 h0.2.1]
    · intro j hj
      have := h (j + 1) (by simpa using hj)
      rwa [show k + (j + 1) = k + 1 + j by omega] at this

/-- The fields of the `j`-th entry written read as the block's start and length. -/
theorem Memory.slot_writeBlocks (m : Memory) (k j : Nat) (bs : List Block) (b : Block)
    (h : bs[j]? = some b) :
    Memory.slot (Memory.writeBlocks m k bs) (bsOff (k + j)) = some (store16 b.start) ∧
      Memory.slot (Memory.writeBlocks m k bs) (blOff (k + j)) = some (store16 b.len) := by
  induction bs generalizing m k j with
  | nil => simp at h
  | cons c bs ih =>
    cases j with
    | zero =>
      simp only [List.getElem?_cons_zero, Option.some.injEq] at h
      subst h
      have keep : ∀ off, off + 1 < bsOff (k + 1) → ∀ m' : Memory,
          Memory.slot (Memory.writeBlocks m' (k + 1) bs) off = Memory.slot m' off := by
        intro off ho m'
        simp only [Memory.slot]
        rw [Memory.read_writeBlocks_other _ _ _ _ (fun i _ => by
            simp only [bsOff, blOff] at *; omega),
          Memory.read_writeBlocks_other _ _ _ _ (fun i _ => by
            simp only [bsOff, blOff] at *; omega)]
      constructor
      · rw [Memory.writeBlocks, Nat.add_zero, keep _ (by simp only [bsOff]; omega),
          Memory.slot_writeSlot_other _ _ _ _ (by simp only [bsOff, blOff]; omega)]
        simp
      · rw [Memory.writeBlocks, Nat.add_zero, keep _ (by simp only [bsOff, blOff]; omega)]
        simp
    | succ j =>
      have := ih (Memory.writeSlot (Memory.writeSlot m (bsOff k) (store16 c.start)) (blOff k)
        (store16 c.len)) (k + 1) j (by simpa using h)
      rwa [show k + 1 + j = k + (j + 1) by omega] at this

end Sys2Proof.Machine
end

