-- ==== Sys2Proof/Laws/State.lean ====
section
/-! SUPPORT. What each update of the state does to each field, every lemma true by rfl. -/

namespace Sys2Proof.Machine

open Sys2Proof

@[simp] theorem State.issueFlags_params (s : State) : s.issueFlags.params = s.params := rfl
@[simp] theorem State.issueFlags_ctrlCmd (s : State) : s.issueFlags.ctrlCmd = s.ctrlCmd := rfl
@[simp] theorem State.issueFlags_ctrlIe (s : State) : s.issueFlags.ctrlIe = s.ctrlIe := rfl
@[simp] theorem State.issueFlags_busy (s : State) : s.issueFlags.busy = true := rfl
@[simp] theorem State.issueFlags_done (s : State) : s.issueFlags.done = false := rfl
@[simp] theorem State.issueFlags_bsyErr (s : State) : s.issueFlags.bsyErr = s.bsyErr := rfl
@[simp] theorem State.issueFlags_errCode (s : State) : s.issueFlags.errCode = 0#4 := rfl
@[simp] theorem State.issueFlags_thresh (s : State) : s.issueFlags.thresh = s.thresh := rfl
@[simp] theorem State.issueFlags_ndist (s : State) : s.issueFlags.ndist = s.ndist := rfl
@[simp] theorem State.issueFlags_lenIn (s : State) : s.issueFlags.lenIn = s.lenIn := rfl
@[simp] theorem State.issueFlags_lenOut (s : State) : s.issueFlags.lenOut = s.lenOut := rfl
@[simp] theorem State.issueFlags_nblk (s : State) : s.issueFlags.nblk = s.nblk := rfl
@[simp] theorem State.issueFlags_errInfo (s : State) : s.issueFlags.errInfo = s.errInfo := rfl
@[simp] theorem State.issueFlags_lcmd (s : State) : s.issueFlags.lcmd = s.lcmd := rfl
@[simp] theorem State.issueFlags_mem (s : State) : s.issueFlags.mem = s.mem := rfl
@[simp] theorem State.issueFlags_draws (s : State) : s.issueFlags.draws = s.draws := rfl
@[simp] theorem State.issueFlags_schedule (s : State) : s.issueFlags.schedule = s.schedule := rfl
@[simp] theorem State.issueFlags_response (s : State) : s.issueFlags.response = s.response := rfl

@[simp] theorem State.misuseFlag_params (s : State) : s.misuseFlag.params = s.params := rfl
@[simp] theorem State.misuseFlag_ctrlCmd (s : State) : s.misuseFlag.ctrlCmd = s.ctrlCmd := rfl
@[simp] theorem State.misuseFlag_ctrlIe (s : State) : s.misuseFlag.ctrlIe = s.ctrlIe := rfl
@[simp] theorem State.misuseFlag_busy (s : State) : s.misuseFlag.busy = s.busy := rfl
@[simp] theorem State.misuseFlag_done (s : State) : s.misuseFlag.done = s.done := rfl
@[simp] theorem State.misuseFlag_bsyErr (s : State) : s.misuseFlag.bsyErr = true := rfl
@[simp] theorem State.misuseFlag_errCode (s : State) : s.misuseFlag.errCode = s.errCode := rfl
@[simp] theorem State.misuseFlag_thresh (s : State) : s.misuseFlag.thresh = s.thresh := rfl
@[simp] theorem State.misuseFlag_ndist (s : State) : s.misuseFlag.ndist = s.ndist := rfl
@[simp] theorem State.misuseFlag_lenIn (s : State) : s.misuseFlag.lenIn = s.lenIn := rfl
@[simp] theorem State.misuseFlag_lenOut (s : State) : s.misuseFlag.lenOut = s.lenOut := rfl
@[simp] theorem State.misuseFlag_nblk (s : State) : s.misuseFlag.nblk = s.nblk := rfl
@[simp] theorem State.misuseFlag_errInfo (s : State) : s.misuseFlag.errInfo = s.errInfo := rfl
@[simp] theorem State.misuseFlag_lcmd (s : State) : s.misuseFlag.lcmd = s.lcmd := rfl
@[simp] theorem State.misuseFlag_mem (s : State) : s.misuseFlag.mem = s.mem := rfl
@[simp] theorem State.misuseFlag_draws (s : State) : s.misuseFlag.draws = s.draws := rfl
@[simp] theorem State.misuseFlag_schedule (s : State) : s.misuseFlag.schedule = s.schedule := rfl
@[simp] theorem State.misuseFlag_response (s : State) : s.misuseFlag.response = s.response := rfl

@[simp] theorem State.ackFlags_params (s : State) (v : Word) : (s.ackFlags v).params = s.params := rfl
@[simp] theorem State.ackFlags_ctrlCmd (s : State) (v : Word) : (s.ackFlags v).ctrlCmd = s.ctrlCmd := rfl
@[simp] theorem State.ackFlags_ctrlIe (s : State) (v : Word) : (s.ackFlags v).ctrlIe = s.ctrlIe := rfl
@[simp] theorem State.ackFlags_busy (s : State) (v : Word) : (s.ackFlags v).busy = s.busy := rfl
@[simp] theorem State.ackFlags_done (s : State) (v : Word) : (s.ackFlags v).done = (s.done && !v.getLsbD 1) := rfl
@[simp] theorem State.ackFlags_bsyErr (s : State) (v : Word) : (s.ackFlags v).bsyErr = (s.bsyErr && !v.getLsbD 2) := rfl
@[simp] theorem State.ackFlags_errCode (s : State) (v : Word) : (s.ackFlags v).errCode = s.errCode := rfl
@[simp] theorem State.ackFlags_thresh (s : State) (v : Word) : (s.ackFlags v).thresh = s.thresh := rfl
@[simp] theorem State.ackFlags_ndist (s : State) (v : Word) : (s.ackFlags v).ndist = s.ndist := rfl
@[simp] theorem State.ackFlags_lenIn (s : State) (v : Word) : (s.ackFlags v).lenIn = s.lenIn := rfl
@[simp] theorem State.ackFlags_lenOut (s : State) (v : Word) : (s.ackFlags v).lenOut = s.lenOut := rfl
@[simp] theorem State.ackFlags_nblk (s : State) (v : Word) : (s.ackFlags v).nblk = s.nblk := rfl
@[simp] theorem State.ackFlags_errInfo (s : State) (v : Word) : (s.ackFlags v).errInfo = s.errInfo := rfl
@[simp] theorem State.ackFlags_lcmd (s : State) (v : Word) : (s.ackFlags v).lcmd = s.lcmd := rfl
@[simp] theorem State.ackFlags_mem (s : State) (v : Word) : (s.ackFlags v).mem = s.mem := rfl
@[simp] theorem State.ackFlags_draws (s : State) (v : Word) : (s.ackFlags v).draws = s.draws := rfl
@[simp] theorem State.ackFlags_schedule (s : State) (v : Word) : (s.ackFlags v).schedule = s.schedule := rfl
@[simp] theorem State.ackFlags_response (s : State) (v : Word) : (s.ackFlags v).response = s.response := rfl

@[simp] theorem State.completionFlags_params (s : State) (c : BitVec 4) : (s.completionFlags c).params = s.params := rfl
@[simp] theorem State.completionFlags_ctrlCmd (s : State) (c : BitVec 4) : (s.completionFlags c).ctrlCmd = s.ctrlCmd := rfl
@[simp] theorem State.completionFlags_ctrlIe (s : State) (c : BitVec 4) : (s.completionFlags c).ctrlIe = s.ctrlIe := rfl
@[simp] theorem State.completionFlags_busy (s : State) (c : BitVec 4) : (s.completionFlags c).busy = false := rfl
@[simp] theorem State.completionFlags_done (s : State) (c : BitVec 4) : (s.completionFlags c).done = true := rfl
@[simp] theorem State.completionFlags_bsyErr (s : State) (c : BitVec 4) : (s.completionFlags c).bsyErr = s.bsyErr := rfl
@[simp] theorem State.completionFlags_errCode (s : State) (c : BitVec 4) : (s.completionFlags c).errCode = c := rfl
@[simp] theorem State.completionFlags_thresh (s : State) (c : BitVec 4) : (s.completionFlags c).thresh = s.thresh := rfl
@[simp] theorem State.completionFlags_ndist (s : State) (c : BitVec 4) : (s.completionFlags c).ndist = s.ndist := rfl
@[simp] theorem State.completionFlags_lenIn (s : State) (c : BitVec 4) : (s.completionFlags c).lenIn = s.lenIn := rfl
@[simp] theorem State.completionFlags_lenOut (s : State) (c : BitVec 4) : (s.completionFlags c).lenOut = s.lenOut := rfl
@[simp] theorem State.completionFlags_nblk (s : State) (c : BitVec 4) : (s.completionFlags c).nblk = s.nblk := rfl
@[simp] theorem State.completionFlags_errInfo (s : State) (c : BitVec 4) : (s.completionFlags c).errInfo = s.errInfo := rfl
@[simp] theorem State.completionFlags_lcmd (s : State) (c : BitVec 4) : (s.completionFlags c).lcmd = s.lcmd := rfl
@[simp] theorem State.completionFlags_mem (s : State) (c : BitVec 4) : (s.completionFlags c).mem = s.mem := rfl
@[simp] theorem State.completionFlags_draws (s : State) (c : BitVec 4) : (s.completionFlags c).draws = s.draws := rfl
@[simp] theorem State.completionFlags_schedule (s : State) (c : BitVec 4) : (s.completionFlags c).schedule = s.schedule := rfl
@[simp] theorem State.completionFlags_response (s : State) (c : BitVec 4) : (s.completionFlags c).response = s.response := rfl

@[simp] theorem State.raiseError_params (s : State) (e : CommandError) (info : Half) : (s.raiseError e info).params = s.params := rfl
@[simp] theorem State.raiseError_ctrlCmd (s : State) (e : CommandError) (info : Half) : (s.raiseError e info).ctrlCmd = s.ctrlCmd := rfl
@[simp] theorem State.raiseError_ctrlIe (s : State) (e : CommandError) (info : Half) : (s.raiseError e info).ctrlIe = s.ctrlIe := rfl
@[simp] theorem State.raiseError_busy (s : State) (e : CommandError) (info : Half) : (s.raiseError e info).busy = false := rfl
@[simp] theorem State.raiseError_done (s : State) (e : CommandError) (info : Half) : (s.raiseError e info).done = true := rfl
@[simp] theorem State.raiseError_bsyErr (s : State) (e : CommandError) (info : Half) : (s.raiseError e info).bsyErr = s.bsyErr := rfl
@[simp] theorem State.raiseError_errCode (s : State) (e : CommandError) (info : Half) : (s.raiseError e info).errCode = errorCode e := rfl
@[simp] theorem State.raiseError_thresh (s : State) (e : CommandError) (info : Half) : (s.raiseError e info).thresh = s.thresh := rfl
@[simp] theorem State.raiseError_ndist (s : State) (e : CommandError) (info : Half) : (s.raiseError e info).ndist = s.ndist := rfl
@[simp] theorem State.raiseError_lenIn (s : State) (e : CommandError) (info : Half) : (s.raiseError e info).lenIn = s.lenIn := rfl
@[simp] theorem State.raiseError_lenOut (s : State) (e : CommandError) (info : Half) : (s.raiseError e info).lenOut = 0#16 := rfl
@[simp] theorem State.raiseError_nblk (s : State) (e : CommandError) (info : Half) : (s.raiseError e info).nblk = 0#16 := rfl
@[simp] theorem State.raiseError_errInfo (s : State) (e : CommandError) (info : Half) : (s.raiseError e info).errInfo = info := rfl
@[simp] theorem State.raiseError_lcmd (s : State) (e : CommandError) (info : Half) : (s.raiseError e info).lcmd = s.lcmd := rfl
@[simp] theorem State.raiseError_mem (s : State) (e : CommandError) (info : Half) : (s.raiseError e info).mem = s.mem := rfl
@[simp] theorem State.raiseError_draws (s : State) (e : CommandError) (info : Half) : (s.raiseError e info).draws = s.draws := rfl
@[simp] theorem State.raiseError_schedule (s : State) (e : CommandError) (info : Half) : (s.raiseError e info).schedule = s.schedule := rfl
@[simp] theorem State.raiseError_response (s : State) (e : CommandError) (info : Half) : (s.raiseError e info).response = s.response := rfl

@[simp] theorem State.succeed_params (s : State) (r : CommandResult) : (s.succeed r).params = s.params := rfl
@[simp] theorem State.succeed_ctrlCmd (s : State) (r : CommandResult) : (s.succeed r).ctrlCmd = s.ctrlCmd := rfl
@[simp] theorem State.succeed_ctrlIe (s : State) (r : CommandResult) : (s.succeed r).ctrlIe = s.ctrlIe := rfl
@[simp] theorem State.succeed_busy (s : State) (r : CommandResult) : (s.succeed r).busy = false := rfl
@[simp] theorem State.succeed_done (s : State) (r : CommandResult) : (s.succeed r).done = true := rfl
@[simp] theorem State.succeed_bsyErr (s : State) (r : CommandResult) : (s.succeed r).bsyErr = s.bsyErr := rfl
@[simp] theorem State.succeed_errCode (s : State) (r : CommandResult) : (s.succeed r).errCode = 0#4 := rfl
@[simp] theorem State.succeed_thresh (s : State) (r : CommandResult) : (s.succeed r).thresh = s.thresh := rfl
@[simp] theorem State.succeed_ndist (s : State) (r : CommandResult) : (s.succeed r).ndist = s.ndist := rfl
@[simp] theorem State.succeed_lenIn (s : State) (r : CommandResult) : (s.succeed r).lenIn = s.lenIn := rfl
@[simp] theorem State.succeed_lenOut (s : State) (r : CommandResult) : (s.succeed r).lenOut = store16 r.out.length := rfl
@[simp] theorem State.succeed_nblk (s : State) (r : CommandResult) : (s.succeed r).nblk = store16 r.blocks.length := rfl
@[simp] theorem State.succeed_errInfo (s : State) (r : CommandResult) : (s.succeed r).errInfo = 0#16 := rfl
@[simp] theorem State.succeed_lcmd (s : State) (r : CommandResult) : (s.succeed r).lcmd = s.lcmd := rfl
@[simp] theorem State.succeed_mem (s : State) (r : CommandResult) : (s.succeed r).mem = Memory.writeSlots (Memory.writeBlocks s.mem 0 r.blocks) (obufOff 0) r.out := rfl
@[simp] theorem State.succeed_draws (s : State) (r : CommandResult) : (s.succeed r).draws = s.draws := rfl
@[simp] theorem State.succeed_schedule (s : State) (r : CommandResult) : (s.succeed r).schedule = s.schedule := rfl
@[simp] theorem State.succeed_response (s : State) (r : CommandResult) : (s.succeed r).response = s.response := rfl

@[simp] theorem State.answer_params (s : State) (d : Word) : (s.answer d).params = s.params := rfl
@[simp] theorem State.answer_ctrlCmd (s : State) (d : Word) : (s.answer d).ctrlCmd = s.ctrlCmd := rfl
@[simp] theorem State.answer_ctrlIe (s : State) (d : Word) : (s.answer d).ctrlIe = s.ctrlIe := rfl
@[simp] theorem State.answer_busy (s : State) (d : Word) : (s.answer d).busy = s.busy := rfl
@[simp] theorem State.answer_done (s : State) (d : Word) : (s.answer d).done = s.done := rfl
@[simp] theorem State.answer_bsyErr (s : State) (d : Word) : (s.answer d).bsyErr = s.bsyErr := rfl
@[simp] theorem State.answer_errCode (s : State) (d : Word) : (s.answer d).errCode = s.errCode := rfl
@[simp] theorem State.answer_thresh (s : State) (d : Word) : (s.answer d).thresh = s.thresh := rfl
@[simp] theorem State.answer_ndist (s : State) (d : Word) : (s.answer d).ndist = s.ndist := rfl
@[simp] theorem State.answer_lenIn (s : State) (d : Word) : (s.answer d).lenIn = s.lenIn := rfl
@[simp] theorem State.answer_lenOut (s : State) (d : Word) : (s.answer d).lenOut = s.lenOut := rfl
@[simp] theorem State.answer_nblk (s : State) (d : Word) : (s.answer d).nblk = s.nblk := rfl
@[simp] theorem State.answer_errInfo (s : State) (d : Word) : (s.answer d).errInfo = s.errInfo := rfl
@[simp] theorem State.answer_lcmd (s : State) (d : Word) : (s.answer d).lcmd = s.lcmd := rfl
@[simp] theorem State.answer_mem (s : State) (d : Word) : (s.answer d).mem = s.mem := rfl
@[simp] theorem State.answer_draws (s : State) (d : Word) : (s.answer d).draws = s.draws := rfl
@[simp] theorem State.answer_schedule (s : State) (d : Word) : (s.answer d).schedule = s.schedule := rfl
@[simp] theorem State.answer_response (s : State) (d : Word) : (s.answer d).response = .okayRead d := rfl

@[simp] theorem State.answerDraw_params (s : State) : s.answerDraw.params = s.params := rfl
@[simp] theorem State.answerDraw_ctrlCmd (s : State) : s.answerDraw.ctrlCmd = s.ctrlCmd := rfl
@[simp] theorem State.answerDraw_ctrlIe (s : State) : s.answerDraw.ctrlIe = s.ctrlIe := rfl
@[simp] theorem State.answerDraw_busy (s : State) : s.answerDraw.busy = s.busy := rfl
@[simp] theorem State.answerDraw_done (s : State) : s.answerDraw.done = s.done := rfl
@[simp] theorem State.answerDraw_bsyErr (s : State) : s.answerDraw.bsyErr = s.bsyErr := rfl
@[simp] theorem State.answerDraw_errCode (s : State) : s.answerDraw.errCode = s.errCode := rfl
@[simp] theorem State.answerDraw_thresh (s : State) : s.answerDraw.thresh = s.thresh := rfl
@[simp] theorem State.answerDraw_ndist (s : State) : s.answerDraw.ndist = s.ndist := rfl
@[simp] theorem State.answerDraw_lenIn (s : State) : s.answerDraw.lenIn = s.lenIn := rfl
@[simp] theorem State.answerDraw_lenOut (s : State) : s.answerDraw.lenOut = s.lenOut := rfl
@[simp] theorem State.answerDraw_nblk (s : State) : s.answerDraw.nblk = s.nblk := rfl
@[simp] theorem State.answerDraw_errInfo (s : State) : s.answerDraw.errInfo = s.errInfo := rfl
@[simp] theorem State.answerDraw_lcmd (s : State) : s.answerDraw.lcmd = s.lcmd := rfl
@[simp] theorem State.answerDraw_mem (s : State) : s.answerDraw.mem = s.mem := rfl
@[simp] theorem State.answerDraw_draws (s : State) : s.answerDraw.draws = s.draws + 1 := rfl
@[simp] theorem State.answerDraw_schedule (s : State) : s.answerDraw.schedule = s.schedule := rfl
@[simp] theorem State.answerDraw_response (s : State) : s.answerDraw.response = .okayRead ((Config.draw s.draws).setWidth 32) := rfl

@[simp] theorem State.resetInput_params (s : State) : s.resetInput.params = s.params := rfl
@[simp] theorem State.resetInput_ctrlCmd (s : State) : s.resetInput.ctrlCmd = 0#4 := rfl
@[simp] theorem State.resetInput_ctrlIe (s : State) : s.resetInput.ctrlIe = false := rfl
@[simp] theorem State.resetInput_busy (s : State) : s.resetInput.busy = false := rfl
@[simp] theorem State.resetInput_done (s : State) : s.resetInput.done = false := rfl
@[simp] theorem State.resetInput_bsyErr (s : State) : s.resetInput.bsyErr = false := rfl
@[simp] theorem State.resetInput_errCode (s : State) : s.resetInput.errCode = 0#4 := rfl
@[simp] theorem State.resetInput_thresh (s : State) : s.resetInput.thresh = 0#16 := rfl
@[simp] theorem State.resetInput_ndist (s : State) : s.resetInput.ndist = 0#16 := rfl
@[simp] theorem State.resetInput_lenIn (s : State) : s.resetInput.lenIn = 0#16 := rfl
@[simp] theorem State.resetInput_lenOut (s : State) : s.resetInput.lenOut = 0#16 := rfl
@[simp] theorem State.resetInput_nblk (s : State) : s.resetInput.nblk = 0#16 := rfl
@[simp] theorem State.resetInput_errInfo (s : State) : s.resetInput.errInfo = 0#16 := rfl
@[simp] theorem State.resetInput_lcmd (s : State) : s.resetInput.lcmd = 0#4 := rfl
@[simp] theorem State.resetInput_mem (s : State) : s.resetInput.mem = [] := rfl
@[simp] theorem State.resetInput_draws (s : State) : s.resetInput.draws = s.draws := rfl
@[simp] theorem State.resetInput_schedule (s : State) : s.resetInput.schedule = s.schedule := rfl
@[simp] theorem State.resetInput_response (s : State) : s.resetInput.response = s.response := rfl

/-- The memory after reset is in canonical form: nothing is listed. -/
@[simp] theorem State.resetOf_mem (p : Params) : (State.resetOf p).mem = [] := rfl

@[simp] theorem State.resetOf_params (p : Params) : (State.resetOf p).params = p := rfl

@[simp] theorem State.resetOf_busy (p : Params) : (State.resetOf p).busy = false := rfl

end Sys2Proof.Machine
end

