-- ==== Sys2Proof/Laws/Ops.lean ====
section
/-! SUPPORT. For each shared operation, once, everything it can do: reading IBUF, the ends of a command,
the address map, a host access, a step. -/

namespace Sys2Proof.Machine

open Sys2Proof

/-! ### Reading IBUF -/

/-- A command's read of a slot answers its word exactly where the slot is written. -/
theorem State.ibufWord_eq_ok (s : State) (i : Nat) (w : Half) :
    s.ibufWord i = .ok w ↔ Memory.slot s.mem (ibufOff i) = some w := by
  unfold State.ibufWord
  cases h : Memory.slot s.mem (ibufOff i) <;> simp

/-- A command's read of a slot stops only where it is unwritten. -/
theorem State.ibufWord_eq_error (s : State) (i : Nat) (e : Stop) :
    s.ibufWord i = .error e ↔ e = .unwritten i ∧ Memory.slot s.mem (ibufOff i) = none := by
  unfold State.ibufWord
  cases h : Memory.slot s.mem (ibufOff i) <;> simp [eq_comm]

/-- Reading a run of slots answers their words exactly where all are written. -/
theorem State.ibufWords_eq_ok (s : State) (i n : Nat) (xs : List Half) :
    s.ibufWords i n = .ok xs ↔
      xs.length = n ∧ ∀ j < n, Memory.slot s.mem (ibufOff (i + j)) = xs[j]? := by
  induction n generalizing i xs with
  | zero => cases xs <;> simp [State.ibufWords]
  | succ n ih =>
    unfold State.ibufWords
    cases hw : s.ibufWord i with
    | error e =>
      have hn := ((s.ibufWord_eq_error i e).1 hw).2
      simp only [reduceCtorEq, false_iff, not_and]
      intro hl hall
      have h0 := hall 0 (by omega)
      rw [Nat.add_zero, hn] at h0
      have := List.getElem?_eq_none_iff.1 h0.symm
      omega
    | ok w =>
      have hs := (s.ibufWord_eq_ok i w).1 hw
      cases hr : s.ibufWords (i + 1) n with
      | error e =>
        simp only [reduceCtorEq, false_iff, not_and]
        intro hl hall
        cases xs with
        | nil => simp at hl
        | cons x xs =>
          have : s.ibufWords (i + 1) n = .ok xs := (ih (i + 1) xs).2
            ⟨by simpa using hl, fun j hj => by
              have := hall (j + 1) (by omega)
              rwa [show i + (j + 1) = i + 1 + j by omega, List.getElem?_cons_succ] at this⟩
          rw [this] at hr
          cases hr
      | ok ws =>
        obtain ⟨hl, hall⟩ := (ih (i + 1) ws).1 hr
        simp only [Except.ok.injEq]
        constructor
        · rintro rfl
          refine ⟨by simp [hl], fun j hj => ?_⟩
          cases j with
          | zero => simpa using hs
          | succ j =>
            have := hall j (by omega)
            rwa [show i + 1 + j = i + (j + 1) by omega] at this
        · rintro ⟨hl', hall'⟩
          cases xs with
          | nil => simp at hl'
          | cons x xs =>
            have h0 := hall' 0 (by omega)
            rw [Nat.add_zero, hs] at h0
            simp only [List.getElem?_cons_zero, Option.some.injEq] at h0
            have h1 : s.ibufWords (i + 1) n = .ok xs := (ih (i + 1) xs).2
              ⟨by simpa using hl', fun j hj => by
                have := hall' (j + 1) (by omega)
                rwa [show i + (j + 1) = i + 1 + j by omega, List.getElem?_cons_succ] at this⟩
            rw [hr] at h1
            cases h1
            rw [h0]

/-- Reading a run of slots stops exactly at the first unwritten one. -/
theorem State.ibufWords_eq_error (s : State) (i n : Nat) (e : Stop) :
    s.ibufWords i n = .error e ↔
      ∃ j < n, e = .unwritten (i + j) ∧ Memory.slot s.mem (ibufOff (i + j)) = none ∧
        ∀ k < j, (Memory.slot s.mem (ibufOff (i + k))).isSome = true := by
  induction n generalizing i with
  | zero => simp [State.ibufWords]
  | succ n ih =>
    unfold State.ibufWords
    cases hw : s.ibufWord i with
    | error e' =>
      obtain ⟨he, hn⟩ := (s.ibufWord_eq_error i e').1 hw
      simp only [Except.error.injEq]
      constructor
      · rintro rfl
        exact ⟨0, by omega, by simpa using he, by simpa using hn, fun k hk => by omega⟩
      · rintro ⟨j, _, rfl, _, hk⟩
        cases j with
        | zero => simpa using he
        | succ j =>
          have := hk 0 (by omega)
          rw [Nat.add_zero, hn] at this
          cases this
    | ok w =>
      have hs := (s.ibufWord_eq_ok i w).1 hw
      have step : (∃ j < n + 1, e = .unwritten (i + j) ∧ Memory.slot s.mem (ibufOff (i + j)) = none ∧
          ∀ k < j, (Memory.slot s.mem (ibufOff (i + k))).isSome = true) ↔
          ∃ j < n, e = .unwritten (i + 1 + j) ∧
            Memory.slot s.mem (ibufOff (i + 1 + j)) = none ∧
            ∀ k < j, (Memory.slot s.mem (ibufOff (i + 1 + k))).isSome = true := by
        constructor
        · rintro ⟨j, hj, he, hn, hk⟩
          cases j with
          | zero => rw [Nat.add_zero, hs] at hn; cases hn
          | succ j =>
            rw [show i + (j + 1) = i + 1 + j by omega] at he hn
            exact ⟨j, by omega, he, hn, fun k h => by
              have := hk (k + 1) (by omega)
              rwa [show i + (k + 1) = i + 1 + k by omega] at this⟩
        · rintro ⟨j, hj, he, hn, hk⟩
          rw [show i + 1 + j = i + (j + 1) by omega] at he hn
          refine ⟨j + 1, by omega, he, hn, fun k h => ?_⟩
          cases k with
          | zero => simp [hs]
          | succ k =>
            have := hk k (by omega)
            rwa [show i + 1 + k = i + (k + 1) by omega] at this
      rw [step, ← ih (i + 1)]
      cases s.ibufWords (i + 1) n <;> simp

/-! ### The ends of a command -/

/-- A command that goes on to a next state either succeeded or raised an error. -/
theorem State.finish_eq_next (s t : State) (r : Except Stop CommandResult) :
    s.finish r = .next t ↔
      (∃ c, r = .ok c ∧ t = s.succeed c) ∨
        ∃ e info, r = .error (.raise e info) ∧ t = s.raiseError e info := by
  rcases r with (⟨e, info⟩ | i) | c <;> simp [State.finish, eq_comm]

/-- A command faults only on an unwritten IBUF slot. -/
theorem State.finish_eq_fault (s : State) (r : Except Stop CommandResult) (f : Fault) :
    s.finish r = .fault f ↔ ∃ i, r = .error (.unwritten i) ∧ f = .unwrittenIbuf i := by
  rcases r with (⟨e, info⟩ | i) | c <;> simp [State.finish, eq_comm]

/-- No command is refused. -/
theorem State.finish_ne_refused (s : State) (r : Except Stop CommandResult) (x : Refusal) :
    s.finish r ≠ .refused x := by
  rcases r with (⟨e, info⟩ | i) | c <;> simp [State.finish]

/-- A command goes on to a next state, or faults on an unwritten IBUF slot. -/
theorem State.finish_cases (s : State) (r : Except Stop CommandResult) :
    (∃ t, s.finish r = .next t) ∨ ∃ i, s.finish r = .fault (.unwrittenIbuf i) := by
  rcases r with (⟨e, info⟩ | i) | c
  · exact .inl ⟨_, rfl⟩
  · exact .inr ⟨i, rfl⟩
  · exact .inl ⟨_, rfl⟩

/-- What any of the three commands can do: it ends in `State.finish`. -/
theorem exec_eq_finish (i : Instr) (s : State) :
    exec i s = s.finish (match i with
      | .suppress => s.suppressResult
      | .suppressNN => s.suppressNNResult
      | .unsuppress => s.unsuppressResult) := by
  cases i <;> rfl

/-- A command goes on to a next state, or faults on an unwritten IBUF slot. -/
theorem exec_cases (i : Instr) (s : State) :
    (∃ t, exec i s = .next t) ∨ ∃ j, exec i s = .fault (.unwrittenIbuf j) := by
  cases i <;> exact s.finish_cases _

/-- The prologue of the suppress commands: N, or ERR_BAD_LENGTH. -/
theorem State.suppressPrologue_cases (s : State) :
    (s.lenIn.toNat ≤ s.params.nMax ∧ s.suppressPrologue = .ok s.lenIn.toNat) ∨
      (s.params.nMax < s.lenIn.toNat ∧ s.suppressPrologue = .error (.raise .badLength s.lenIn)) := by
  by_cases h : s.params.nMax < s.lenIn.toNat
  · exact .inr ⟨h, by simp [State.suppressPrologue, zext16, h]⟩
  · exact .inl ⟨by omega, by simp [State.suppressPrologue, zext16, h]⟩

/-! ### The address map -/

/-- What well-formed parameters satisfy. -/
theorem Params.wellFormed_iff (p : Params) :
    p.wellFormed = true ↔ 1 ≤ p.nMax ∧ p.nMax ≤ 32766 ∧ (p.nMax + 1) / 2 ≤ p.bMax ∧
      2 + 2 * p.bMax + p.nMax ≤ 65535 ∧ p.base % 2 ^ 20 = 0 := by
  simp [Params.wellFormed, and_assoc]

/-- An offset inside the window is where the platform's address says. -/
@[simp] theorem windowOffset_base (p : Params) (off : Nat) (h : off < 0x100000) :
    windowOffset p (p.base + off) = some off := by
  simp [windowOffset, h]

/-- IBUF slot `i` is where the window says. -/
theorem targetOf_ibufOff (p : Params) (i : Nat) (hp : p.wellFormed = true) (h : i < bufDepth p) :
    targetOf p (ibufOff i) = .ibuf i := by
  obtain ⟨_, _, _, hd, _⟩ := (Params.wellFormed_iff p).1 hp
  simp only [bufDepth] at h
  have e : (ibufOff i - 0x80000) / 4 = i := by simp only [ibufOff]; omega
  have h1 : ¬ ibufOff i < 0x40000 := by simp only [ibufOff]; omega
  have h2 : ¬ ibufOff i < 0x80000 := by simp only [ibufOff]; omega
  have h3 : ibufOff i < 0xC0000 := by simp only [ibufOff]; omega
  simp [targetOf, h1, h2, h3, e, bufDepth, h]

/-- OBUF slot `j` is where the window says. -/
theorem targetOf_obufOff (p : Params) (j : Nat) (h : j < bufDepth p) :
    targetOf p (obufOff j) = .obuf j := by
  have e : (obufOff j - 0xC0000) / 4 = j := by simp only [obufOff]; omega
  have h1 : ¬ obufOff j < 0x40000 := by simp only [obufOff]; omega
  have h2 : ¬ obufOff j < 0x80000 := by simp only [obufOff]; omega
  have h3 : ¬ obufOff j < 0xC0000 := by simp only [obufOff]; omega
  simp [targetOf, h1, h2, h3, e, h]

/-- The start of BBRF entry `k` is where the window says. -/
theorem targetOf_bsOff (p : Params) (k : Nat) (hp : p.wellFormed = true) (h : k < p.bMax) :
    targetOf p (bsOff k) = .blockStart k := by
  obtain ⟨_, _, _, hd, _⟩ := (Params.wellFormed_iff p).1 hp
  have e : (bsOff k - 0x40000) / 8 = k := by simp only [bsOff]; omega
  have e' : (bsOff k - 0x40000) % 8 = 0 := by simp only [bsOff]; omega
  have h1 : ¬ bsOff k < 0x40000 := by simp only [bsOff]; omega
  have h2 : bsOff k < 0x80000 := by simp only [bsOff]; omega
  simp [targetOf, bbrfTarget, h1, h2, e, e', h]

/-- The length of BBRF entry `k` is where the window says. -/
theorem targetOf_blOff (p : Params) (k : Nat) (hp : p.wellFormed = true) (h : k < p.bMax) :
    targetOf p (blOff k) = .blockLength k := by
  obtain ⟨_, _, _, hd, _⟩ := (Params.wellFormed_iff p).1 hp
  have e : (blOff k - 0x40000) / 8 = k := by simp only [blOff]; omega
  have e' : ¬ (blOff k - 0x40000) % 8 = 0 := by simp only [blOff]; omega
  have h1 : ¬ blOff k < 0x40000 := by simp only [blOff]; omega
  have h2 : blOff k < 0x80000 := by simp only [blOff]; omega
  simp [targetOf, bbrfTarget, h1, h2, e, e', h]

/-- Only the offset of an IBUF slot names one. -/
theorem targetOf_eq_ibuf (p : Params) (off i : Nat) (h : targetOf p off = .ibuf i)
    (ha : off % 4 = 0) : off = ibufOff i ∧ i < bufDepth p := by
  unfold targetOf at h
  split at h
  · exfalso
    simp only [regTarget] at h
    repeat' split at h
    all_goals cases h
  · split at h
    · exfalso
      simp only [bbrfTarget] at h
      repeat' split at h
      all_goals cases h
    · split at h
      · split at h
        · cases h
          refine ⟨?_, by assumption⟩
          simp only [ibufOff]
          omega
        · cases h
      · split at h <;> cases h

/-- Only the offset of a register names it. -/
theorem targetOf_eq_reg (p : Params) (off : Nat) (r : Reg) (h : targetOf p off = .reg r) :
    off = regOff r := by
  unfold targetOf at h
  split at h
  · simp only [regTarget] at h
    repeat' split at h
    all_goals cases h
    all_goals simpa [regOff]
  · split at h
    · exfalso
      simp only [bbrfTarget] at h
      repeat' split at h
      all_goals cases h
    · split at h <;> split at h <;> cases h

/-- Every register is at its offset. -/
theorem targetOf_regOff (p : Params) (r : Reg) : targetOf p (regOff r) = .reg r := by
  cases r <;> rfl

/-! ### Host accesses -/

/-- A host access outside the window does nothing to the block. -/
theorem State.hostAccess_outside (s : State) (op : HostOp) (h : windowOffset s.params op.addr = none) :
    s.hostAccess op = { s with response := .none } := by
  simp [State.hostAccess, h]

/-- A host access inside the window, by its offset. -/
theorem State.hostAccess_inside (s : State) (op : HostOp) (off : Nat)
    (h : windowOffset s.params op.addr = some off) :
    s.hostAccess op = s.windowAccess off op.size op.access := by
  simp [State.hostAccess, h]

/-- What a read of a target can do: answer, and advance the count of draws. -/
theorem State.readTarget_cases (s : State) (g : Target) :
    (∃ d, s.readTarget g = s.answer d) ∨ s.readTarget g = s.answerDraw := by
  cases g <;> simp only [State.readTarget, State.answerResult, State.answerSlot]
  case reg r => exact .inl ⟨_, rfl⟩
  case reserved => exact .inl ⟨_, rfl⟩
  all_goals
    repeat' split
    all_goals first
      | exact .inr rfl
      | exact .inl ⟨_, rfl⟩

/-- Everything a host access can do: it leaves the block as it is but for the answer and the draws, or
it is a legal write to the target at its offset. -/
theorem State.hostAccess_cases (s : State) (op : HostOp) :
    (∃ r, s.hostAccess op = { s with response := r }) ∨
      s.hostAccess op = s.answerDraw ∨
      ∃ off v, windowOffset s.params op.addr = some off ∧ off % 4 = 0 ∧ op.size = 4 ∧
        op.access = .write v ∧
        s.hostAccess op =
          { s.writeTarget v (targetOf s.params off) with response := .okayWrite } := by
  cases hw : windowOffset s.params op.addr with
  | none => exact .inl ⟨.none, s.hostAccess_outside op hw⟩
  | some off =>
    rw [s.hostAccess_inside op off hw]
    unfold State.windowAccess
    by_cases hl : legalAccess off op.size = true
    · rw [if_pos hl]
      have hl' : op.size = 4 ∧ off % 4 = 0 := by simpa [legalAccess] using hl
      cases ha : op.access with
      | read =>
        rcases s.readTarget_cases (targetOf s.params off) with ⟨d, h⟩ | h
        · exact .inl ⟨_, h⟩
        · exact .inr (.inl h)
      | write v => exact .inr (.inr ⟨off, v, rfl, hl'.2, hl'.1, rfl, rfl⟩)
    · rw [if_neg hl]
      exact .inl ⟨.error, rfl⟩

/-! ### The step -/

/-- Everything a step can do: idle, complete a pending command, serve a host access, or reset. -/
theorem step_cases (s : State) :
    (s.schedule = [] ∧ step s = sequencerTurn s) ∨
      (∃ ts, s.schedule = .sequencer :: ts ∧ step s = sequencerTurn { s with schedule := ts }) ∨
      (∃ op ts, s.schedule = .host op :: ts ∧
        step s = .next (State.hostAccess { s with schedule := ts } op)) ∨
      ∃ ts, s.schedule = .reset :: ts ∧ step s = .next (State.resetInput { s with schedule := ts }) := by
  unfold step
  split
  · rename_i h; exact .inl ⟨h, rfl⟩
  · rename_i t ts h
    cases t with
    | host op => exact .inr (.inr (.inl ⟨op, ts, h, rfl⟩))
    | sequencer => exact .inr (.inl ⟨ts, h, rfl⟩)
    | reset => exact .inr (.inr (.inr ⟨ts, h, rfl⟩))

/-- Everything the sequencer's turn can answer as a next state. -/
theorem sequencerTurn_cases (s t : State) (h : sequencerTurn s = .next t) :
    (s.busy = false ∧ t = s) ∨
      (s.busy = true ∧ ((∃ c, t = s.succeed c) ∨ ∃ e info, t = s.raiseError e info)) := by
  unfold sequencerTurn at h
  by_cases hb : s.busy = true
  · rw [if_pos hb] at h
    refine .inr ⟨hb, ?_⟩
    unfold completion at h
    split at h
    · rename_i i _
      rw [exec_eq_finish] at h
      rcases (s.finish_eq_next t _).1 h with ⟨c, _, ht⟩ | ⟨e, info, _, ht⟩
      · exact .inl ⟨c, ht⟩
      · exact .inr ⟨e, info, ht⟩
    · cases h
      exact .inr ⟨_, _, rfl⟩
  · rw [if_neg hb] at h
    cases h
    exact .inl ⟨by simpa using hb, rfl⟩

end Sys2Proof.Machine
end

