-- ==== Sys2Proof/Laws/Commands.lean ====
section
/-! SUPPORT. What the commands compute depends on nothing but the parameters, the registers they read
and the memory (30_encoding.md R89). -/

namespace Sys2Proof.Machine

open Sys2Proof

/-- A command's read of a slot depends on the memory alone. -/
theorem State.ibufWord_congr (s u : State) (hm : u.mem = s.mem) (i : Nat) :
    u.ibufWord i = s.ibufWord i := by
  simp only [State.ibufWord, hm]

/-- Reading a run of slots depends on the memory alone. -/
theorem State.ibufWords_congr (s u : State) (hm : u.mem = s.mem) (i n : Nat) :
    u.ibufWords i n = s.ibufWords i n := by
  induction n generalizing i with
  | zero => rfl
  | succ n ih => simp only [State.ibufWords, State.ibufWord_congr s u hm, ih]

/-- The block checks depend on the memory alone. -/
theorem State.checkBlocks_congr (s u : State) (hm : u.mem = s.mem) (n b count k e : Nat) :
    u.checkBlocks n b count k e = s.checkBlocks n b count k e := by
  induction count generalizing k e with
  | zero => rfl
  | succ count ih => simp only [State.checkBlocks, State.ibufWord_congr s u hm, ih]

/-- SUPPRESS reads LEN_IN, THRESH and IBUF (30_encoding.md R89). -/
theorem State.suppressResult_congr (s u : State) (hp : u.params = s.params) (hl : u.lenIn = s.lenIn)
    (ht : u.thresh = s.thresh) (hm : u.mem = s.mem) : u.suppressResult = s.suppressResult := by
  simp only [State.suppressResult, State.suppressPrologue, hp, hl, ht, State.ibufWords_congr s u hm]

/-- SUPPRESS_NN reads LEN_IN, THRESH, NDIST and IBUF (30_encoding.md R89). -/
theorem State.suppressNNResult_congr (s u : State) (hp : u.params = s.params)
    (hl : u.lenIn = s.lenIn) (ht : u.thresh = s.thresh) (hd : u.ndist = s.ndist)
    (hm : u.mem = s.mem) : u.suppressNNResult = s.suppressNNResult := by
  simp only [State.suppressNNResult, State.suppressPrologue, hp, hl, ht, hd,
    State.ibufWords_congr s u hm]

/-- UNSUPPRESS reads LEN_IN and IBUF (30_encoding.md R89). -/
theorem State.unsuppressResult_congr (s u : State) (hp : u.params = s.params)
    (hl : u.lenIn = s.lenIn) (hm : u.mem = s.mem) : u.unsuppressResult = s.unsuppressResult := by
  simp only [State.unsuppressResult, State.streamLength, State.headerLength, State.headerCount,
    State.unsuppressBody, hp, hl, State.ibufWord_congr s u hm, State.ibufWords_congr s u hm,
    State.checkBlocks_congr s u hm]

end Sys2Proof.Machine
end

