-- ==== Sys2Proof/Laws/Host.lean ====
section
/-! SUPPORT. The legal host accesses in the terms claims use, and everything a CTRL write can do. -/

namespace Sys2Proof.Machine

open Sys2Proof

/-- A legal write is the write of the target at its offset. -/
theorem State.hostWrite_eq (s : State) (off : Nat) (v : Word) (h : off < 0x100000)
    (h4 : off % 4 = 0) :
    s.hostWrite off v =
      { s.writeTarget v (targetOf s.params off) with response := .okayWrite } := by
  simp [State.hostWrite, State.hostAccess, h, State.windowAccess, legalAccess, h4]

/-- A legal read is the read of the target at its offset. -/
theorem State.hostRead_eq (s : State) (off : Nat) (h : off < 0x100000) (h4 : off % 4 = 0) :
    s.hostRead off = s.readTarget (targetOf s.params off) := by
  simp [State.hostRead, State.hostAccess, h, State.windowAccess, legalAccess, h4]

/-- A write at a register's offset is the write of the register. -/
theorem State.hostWrite_regOff (s : State) (r : Reg) (v : Word) :
    s.hostWrite (regOff r) v = { s.writeReg r v with response := .okayWrite } := by
  rw [State.hostWrite_eq s _ v (by cases r <;> decide) (by cases r <;> decide), targetOf_regOff]
  rfl

/-- A read at a register's offset answers the register. -/
theorem State.hostRead_regOff (s : State) (r : Reg) :
    s.hostRead (regOff r) = s.answer (s.readReg r) := by
  rw [State.hostRead_eq s _ (by cases r <;> decide) (by cases r <;> decide), targetOf_regOff]
  rfl

/-- A CTRL write with START = 0 stores CMD and IE. -/
theorem State.writeCtrl_store (s : State) (v : Word) (h : (commandWord v).start = false) :
    s.writeCtrl v = { s with ctrlCmd := (commandWord v).cmd, ctrlIe := (commandWord v).ie } := by
  simp only [State.writeCtrl, h, Bool.false_eq_true, if_false]

/-- A CTRL write with START = 1 on an idle block issues the command. -/
theorem State.writeCtrl_issue (s : State) (v : Word) (h : (commandWord v).start = true)
    (hb : s.busy = false) :
    s.writeCtrl v = { s with
      ctrlCmd := (commandWord v).cmd, ctrlIe := (commandWord v).ie, lcmd := (commandWord v).cmd,
      busy := true, done := false, errCode := 0#4 } := by
  simp only [State.writeCtrl, h, hb, Bool.false_eq_true, if_false, if_true, State.issueFlags]

/-- A CTRL write with START = 1 while BUSY = 1 is dropped and sets BSYERR. -/
theorem State.writeCtrl_drop (s : State) (v : Word) (h : (commandWord v).start = true)
    (hb : s.busy = true) :
    s.writeCtrl v = { s with
      ctrlCmd := (commandWord v).cmd, ctrlIe := (commandWord v).ie, bsyErr := true } := by
  simp only [State.writeCtrl, h, hb, if_true, State.misuseFlag]

/-- A CTRL write keeps every field but CTRL, LCMD and the STATUS flags. -/
theorem State.writeCtrl_frame (s : State) (v : Word) :
    (s.writeCtrl v).params = s.params ∧ (s.writeCtrl v).thresh = s.thresh ∧
      (s.writeCtrl v).ndist = s.ndist ∧ (s.writeCtrl v).lenIn = s.lenIn ∧
      (s.writeCtrl v).lenOut = s.lenOut ∧ (s.writeCtrl v).nblk = s.nblk ∧
      (s.writeCtrl v).errInfo = s.errInfo ∧ (s.writeCtrl v).mem = s.mem ∧
      (s.writeCtrl v).draws = s.draws ∧ (s.writeCtrl v).schedule = s.schedule ∧
      (s.writeCtrl v).response = s.response := by
  cases h : (commandWord v).start with
  | false => rw [s.writeCtrl_store v h]; simp
  | true =>
    cases hb : s.busy with
    | false => rw [s.writeCtrl_issue v h hb]; simp
    | true => rw [s.writeCtrl_drop v h hb]; simp

/-- While BUSY = 1 a write to any target changes at most CTRL, DONE and BSYERR. -/
theorem State.writeTarget_busy (s : State) (v : Word) (g : Target) (hb : s.busy = true) :
    ∃ c ie d e, s.writeTarget v g = { s with ctrlCmd := c, ctrlIe := ie, done := d, bsyErr := e } := by
  cases g with
  | reg r =>
    cases r with
    | ctrl =>
      cases h : (commandWord v).start with
      | false => exact ⟨_, _, _, _, s.writeCtrl_store v h⟩
      | true => exact ⟨_, _, _, _, s.writeCtrl_drop v h hb⟩
    | status => exact ⟨_, _, _, _, rfl⟩
    | thresh =>
      refine ⟨s.ctrlCmd, s.ctrlIe, s.done, true, ?_⟩
      simp only [State.writeTarget, State.writeReg, hb, if_true, State.misuseFlag]
    | ndist =>
      refine ⟨s.ctrlCmd, s.ctrlIe, s.done, true, ?_⟩
      simp only [State.writeTarget, State.writeReg, hb, if_true, State.misuseFlag]
    | lenIn =>
      refine ⟨s.ctrlCmd, s.ctrlIe, s.done, true, ?_⟩
      simp only [State.writeTarget, State.writeReg, hb, if_true, State.misuseFlag]
    | lenOut => exact ⟨_, _, _, _, rfl⟩
    | nblk => exact ⟨_, _, _, _, rfl⟩
    | errInfo => exact ⟨_, _, _, _, rfl⟩
    | caps => exact ⟨_, _, _, _, rfl⟩
  | ibuf i =>
    refine ⟨s.ctrlCmd, s.ctrlIe, s.done, true, ?_⟩
    simp only [State.writeTarget, State.writeIbuf, hb, if_true, State.misuseFlag]
  | _ => exact ⟨_, _, _, _, rfl⟩

end Sys2Proof.Machine
end

