-- ==== Sys2Proof/Laws/PerInstr.lean ====
section
/-! SUPPORT. The statements made for every command, one lemma per constructor: the word that issues it
fits the opcode map (30_encoding.md R91) with its reserved bits zero (R88). -/

namespace Sys2Proof.Laws

open Sys2Proof

/-- The command is well-formed, and its word matches its row of the opcode map, carries the IE bit it is
given and has zeros in the reserved bits. -/
def EncodedWord.Statement (i : Instr) : Prop :=
  i.wellFormed = true ∧ ∀ ie : Bool,
    encode ⟨i, ie⟩ &&& 0xF1#32 = Machine.matchWord i ∧ (encode ⟨i, ie⟩).getLsbD 8 = ie ∧
      encode ⟨i, ie⟩ &&& 0xFFFFFE0E#32 = 0#32

theorem EncodedWord.suppress : EncodedWord.Statement .suppress :=
  ⟨rfl, by decide⟩

theorem EncodedWord.suppressNN : EncodedWord.Statement .suppressNN :=
  ⟨rfl, by decide⟩

theorem EncodedWord.unsuppress : EncodedWord.Statement .unsuppress :=
  ⟨rfl, by decide⟩

end Sys2Proof.Laws
end

