-- ==== Sys2Proof/Laws/Streams.lean ====
section
/-! SUPPORT. For UNSUPPRESS, once, what each part of its pseudocode answers on a stream whose words are
in IBUF where they are read: the header, the block checks, the body (41_unsuppress.md R125 to R130). -/

namespace Sys2Proof.Machine

open Sys2Proof

/-- Word `j` of the stream is written, and in IBUF. -/
abbrev State.hasWord (s : State) (ws : List Half) (j : Nat) : Prop :=
  Memory.slot s.mem (ibufOff j) = some (ws.getD j 0#16)

/-- Block `k` of a stream, as UNSUPPRESS reads it. -/
def streamBlock (ws : List Half) (k : Nat) : Block :=
  ⟨(streamStart ws k).toNat, (streamLen ws k).toNat⟩

/-- A slot that holds what the stream says holds its word. -/
theorem State.hasWord_of_eq (s : State) (ws : List Half) (j : Nat) (hj : j < ws.length)
    (h : Memory.slot s.mem (ibufOff j) = ws[j]?) : s.hasWord ws j := by
  rw [State.hasWord, h, List.getD_eq_getElem?_getD, List.getElem?_eq_getElem hj]
  rfl

/-- Where IBUF is written, a stream it agrees with has its word. -/
theorem State.agreesWithStream.hasWord {s : State} {ws : List Half} (h : s.agreesWithStream ws)
    (j : Nat) (hj : j < ws.length) (hw : (Memory.slot s.mem (ibufOff j)).isSome = true) :
    s.hasWord ws j := by
  rcases h.2 j hj with hn | he
  · rw [hn] at hw
    cases hw
  · exact s.hasWord_of_eq ws j hj he

/-- Every state has a stream that its IBUF agrees with. -/
theorem State.exists_agreesWithStream (s : State) : ∃ ws, s.agreesWithStream ws := by
  refine ⟨(List.range s.lenIn.toNat).map fun j => (Memory.slot s.mem (ibufOff j)).getD 0#16,
    by simp, fun j hj => ?_⟩
  rw [List.length_map, List.length_range] at hj
  cases h : Memory.slot s.mem (ibufOff j) <;> simp [hj, h]

/-- The end of a block that passes its checks is its start and length, and not negative. -/
theorem streamPrevEnd_nonneg (ws : List Half) (k : Nat) (h : ∀ i < k, streamBlockOk ws i) :
    0 ≤ streamPrevEnd ws k := by
  induction k with
  | zero => exact Int.le_refl 0
  | succ k ih =>
    have h1 := ih fun i hi => h i (by omega)
    have h2 := h k (by omega)
    simp only [streamBlockOk, streamPrevEnd] at *
    omega

/-- The checks of one block answer the block where it passes them, and ERR_BAD_BLOCK where not. -/
theorem checkBlock_eq (ws : List Half) (n e k : Nat) (hn : (n : Int) = streamN ws)
    (he : (e : Int) = streamPrevEnd ws k) :
    checkBlock n e k (ws.getD (2 + k) 0#16) (ws.getD (2 + (streamB ws).toNat + k) 0#16) =
      if streamBlockOk ws k then .ok (streamBlock ws k)
      else .error (.raise .badBlock (store16 k)) := by
  have hs : sext16 (ws.getD (2 + k) 0#16) = streamStart ws k := rfl
  have hl : sext16 (ws.getD (2 + (streamB ws).toNat + k) 0#16) = streamLen ws k := rfl
  unfold checkBlock streamBlock streamBlockOk
  rw [hs, hl]
  split <;> split
  · omega
  · rfl
  · rfl
  · omega

/-- Block checks that come to block `k`: its start is read, then its length, then it is checked, then the
blocks after it are. -/
theorem State.checkBlocks_step (s : State) (ws : List Half) (n count k e : Nat)
    (hn : (n : Int) = streamN ws) (he : (e : Int) = streamPrevEnd ws k)
    (hs : s.hasWord ws (2 + k)) (hl : s.hasWord ws (2 + (streamB ws).toNat + k)) :
    s.checkBlocks n (streamB ws).toNat (count + 1) k e =
      if streamBlockOk ws k then
        (s.checkBlocks n (streamB ws).toNat count (k + 1)
          ((streamBlock ws k).start + (streamBlock ws k).len)).map (streamBlock ws k :: ·)
      else .error (.raise .badBlock (store16 k)) := by
  rw [State.checkBlocks, (s.ibufWord_eq_ok _ _).2 hs]
  simp only [(s.ibufWord_eq_ok _ _).2 hl, checkBlock_eq ws n e k hn he]
  by_cases hok : streamBlockOk ws k
  · simp only [if_pos hok]
    cases s.checkBlocks n (streamB ws).toNat count (k + 1)
      ((streamBlock ws k).start + (streamBlock ws k).len) <;> rfl
  · simp only [if_neg hok]

/-- Block checks that pass the first `m` blocks go on with the blocks after them. -/
theorem State.checkBlocks_passed (s : State) (ws : List Half) (n m count k e : Nat)
    (hn : (n : Int) = streamN ws) (he : (e : Int) = streamPrevEnd ws k)
    (hw : ∀ i, k ≤ i → i < k + m →
      s.hasWord ws (2 + i) ∧ s.hasWord ws (2 + (streamB ws).toNat + i))
    (hok : ∀ i, k ≤ i → i < k + m → streamBlockOk ws i) :
    ∃ e' : Nat, (e' : Int) = streamPrevEnd ws (k + m) ∧
      s.checkBlocks n (streamB ws).toNat (m + count) k e =
        (s.checkBlocks n (streamB ws).toNat count (k + m) e').map
          ((List.range' k m).map (streamBlock ws) ++ ·) := by
  induction m generalizing k e with
  | zero =>
    refine ⟨e, by simpa using he, ?_⟩
    rw [Nat.zero_add, Nat.add_zero]
    cases s.checkBlocks n (streamB ws).toNat count k e <;> simp [Except.map]
  | succ m ih =>
    have hk := hok k (by omega) (by omega)
    obtain ⟨hs, hl⟩ := hw k (by omega) (by omega)
    have hend : (((streamBlock ws k).start + (streamBlock ws k).len : Nat) : Int) =
        streamPrevEnd ws (k + 1) := by
      simp only [streamBlockOk, streamBlock, streamPrevEnd] at *
      omega
    obtain ⟨e', he', hc⟩ := ih (k + 1) _ hend (fun i h1 h2 => hw i (by omega) (by omega))
      fun i h1 h2 => hok i (by omega) (by omega)
    rw [show k + 1 + m = k + (m + 1) by omega] at he' hc
    refine ⟨e', he', ?_⟩
    rw [show m + 1 + count = (m + count) + 1 by omega, s.checkBlocks_step ws n _ k e hn he hs hl,
      if_pos hk, hc, List.range'_succ]
    cases s.checkBlocks n (streamB ws).toNat count (k + (m + 1)) e' <;> simp [Except.map]

/-- The sum of the lengths of the first `m` blocks. -/
theorem totalLength_streamBlocks (ws : List Half) (m : Nat) (h : ∀ i < m, streamBlockOk ws i) :
    (totalLength ((List.range' 0 m).map (streamBlock ws)) : Int) = streamTotal ws m := by
  induction m with
  | zero => rfl
  | succ m ih =>
    have h1 := ih fun i hi => h i (by omega)
    have h2 := (h m (by omega)).1
    have hl : ((streamBlock ws m).len : Int) = streamLen ws m := Int.toNat_of_nonneg (by omega)
    simp only [totalLength] at h1 ⊢
    rw [List.range'_concat, List.map_append, List.map_append, List.sum_append, Nat.cast_add, h1]
    simp [streamTotal, hl]

/-- UNSUPPRESS of a stream of illegal length stops before any read. -/
theorem State.unsuppressResult_length (s : State) (ws : List Half) (hL : s.lenIn.toNat = ws.length)
    (h : ¬ streamLengthOk s.params ws) :
    s.unsuppressResult = .error (.raise .badLength s.lenIn) := by
  have h' : zext16 s.lenIn < 2 ∨ bufDepth s.params < zext16 s.lenIn := by
    simp only [streamLengthOk, zext16] at *
    omega
  simp only [State.unsuppressResult, State.streamLength, if_pos h']

/-- UNSUPPRESS of a stream of legal length reads the N word first, then the B word, then it runs its
body. -/
theorem State.unsuppressResult_legal (s : State) (ws : List Half) (hL : s.lenIn.toNat = ws.length)
    (h : streamLengthOk s.params ws) :
    (Memory.slot s.mem (ibufOff 0) = none → s.unsuppressResult = .error (.unwritten 0)) ∧
    (s.hasWord ws 0 →
      (¬ streamNOk s.params ws → s.unsuppressResult = .error (.raise .badHeader 0#16)) ∧
      (streamNOk s.params ws →
        (Memory.slot s.mem (ibufOff 1) = none → s.unsuppressResult = .error (.unwritten 1)) ∧
        (s.hasWord ws 1 →
          (¬ streamBOk s.params ws → s.unsuppressResult = .error (.raise .badHeader 1#16)) ∧
          (streamBOk s.params ws → s.unsuppressResult =
            s.unsuppressBody ws.length (streamN ws).toNat (streamB ws).toNat)))) := by
  have hlen : s.streamLength = .ok ws.length := by
    have h' : ¬ (zext16 s.lenIn < 2 ∨ bufDepth s.params < zext16 s.lenIn) := by
      simp only [streamLengthOk, zext16] at *
      omega
    rw [State.streamLength, if_neg h', zext16, hL]
  have hN : sext16 (ws.getD 0 0#16) = streamN ws := rfl
  have hB : sext16 (ws.getD 1 0#16) = streamB ws := rfl
  refine ⟨fun h0 => ?_, fun h0 => ⟨fun hn => ?_, fun hn => ⟨fun h1 => ?_, fun h1 =>
    ⟨fun hb => ?_, fun hb => ?_⟩⟩⟩⟩
  · simp only [State.unsuppressResult, hlen, State.headerLength,
      (s.ibufWord_eq_error 0 _).2 ⟨rfl, h0⟩]
  · have hn' : streamN ws < 0 ∨ (s.params.nMax : Int) < streamN ws := by
      simp only [streamNOk] at hn
      omega
    simp only [State.unsuppressResult, hlen, State.headerLength, (s.ibufWord_eq_ok 0 _).2 h0, hN,
      if_pos hn']
  all_goals
    have hn' : ¬ (streamN ws < 0 ∨ (s.params.nMax : Int) < streamN ws) := by
      simp only [streamNOk] at hn
      omega
  · simp only [State.unsuppressResult, hlen, State.headerLength, (s.ibufWord_eq_ok 0 _).2 h0, hN,
      if_neg hn', State.headerCount, (s.ibufWord_eq_error 1 _).2 ⟨rfl, h1⟩]
  · have hb' : streamB ws < 0 ∨ (s.params.bMax : Int) < streamB ws ∨
        (ws.length : Int) < 2 + 2 * streamB ws := by
      simp only [streamBOk] at hb
      omega
    simp only [State.unsuppressResult, hlen, State.headerLength, (s.ibufWord_eq_ok 0 _).2 h0, hN,
      if_neg hn', State.headerCount, (s.ibufWord_eq_ok 1 _).2 h1, hB, if_pos hb']
  · have hb' : ¬ (streamB ws < 0 ∨ (s.params.bMax : Int) < streamB ws ∨
        (ws.length : Int) < 2 + 2 * streamB ws) := by
      simp only [streamBOk] at hb
      omega
    simp only [State.unsuppressResult, hlen, State.headerLength, (s.ibufWord_eq_ok 0 _).2 h0, hN,
      if_neg hn', State.headerCount, (s.ibufWord_eq_ok 1 _).2 h1, hB, if_neg hb']

/-- The body of UNSUPPRESS once it comes to block `k`, the blocks before it written and sound: it stops at
a start or length that is unwritten, or at the block where it fails its checks. -/
theorem State.unsuppressBody_block (s : State) (ws : List Half) (k : Nat)
    (hN : 0 ≤ streamN ws) (hk : k < (streamB ws).toNat)
    (hw : ∀ i < k, s.hasWord ws (2 + i) ∧ s.hasWord ws (2 + (streamB ws).toNat + i))
    (hok : ∀ i < k, streamBlockOk ws i) :
    (Memory.slot s.mem (ibufOff (2 + k)) = none →
      s.unsuppressBody ws.length (streamN ws).toNat (streamB ws).toNat =
        .error (.unwritten (2 + k))) ∧
    (s.hasWord ws (2 + k) →
      (Memory.slot s.mem (ibufOff (2 + (streamB ws).toNat + k)) = none →
        s.unsuppressBody ws.length (streamN ws).toNat (streamB ws).toNat =
          .error (.unwritten (2 + (streamB ws).toNat + k))) ∧
      (s.hasWord ws (2 + (streamB ws).toNat + k) → ¬ streamBlockOk ws k →
        s.unsuppressBody ws.length (streamN ws).toNat (streamB ws).toNat =
          .error (.raise .badBlock (store16 k)))) := by
  have hn : ((streamN ws).toNat : Int) = streamN ws := Int.toNat_of_nonneg hN
  obtain ⟨c, hc⟩ : ∃ c, (streamB ws).toNat = k + (c + 1) := ⟨(streamB ws).toNat - k - 1, by omega⟩
  obtain ⟨e', he', h⟩ := s.checkBlocks_passed ws _ k (c + 1) 0 0 hn rfl
    (fun i _ hi => hw i (by omega)) (fun i _ hi => hok i (by omega))
  rw [← hc, Nat.zero_add] at h
  rw [Nat.zero_add] at he'
  refine ⟨fun h0 => ?_, fun h0 => ⟨fun h1 => ?_, fun h1 hbad => ?_⟩⟩
  · rw [State.checkBlocks, (s.ibufWord_eq_error _ _).2 ⟨rfl, h0⟩] at h
    simp only [State.unsuppressBody, h, Except.map]
  · rw [State.checkBlocks, (s.ibufWord_eq_ok _ _).2 h0] at h
    simp only [(s.ibufWord_eq_error _ _).2 ⟨rfl, h1⟩] at h
    simp only [State.unsuppressBody, h, Except.map]
  · rw [s.checkBlocks_step ws _ c k e' hn he' h0 h1, if_neg hbad] at h
    simp only [State.unsuppressBody, h, Except.map]

/-- The body of UNSUPPRESS once every block is written and sound: ERR_SIZE_MISMATCH, or the samples are
read, then the results. -/
theorem State.unsuppressBody_samples (s : State) (ws : List Half) (hN : 0 ≤ streamN ws)
    (hB : 0 ≤ streamB ws) (hL : 2 + 2 * streamB ws ≤ ws.length)
    (hw : ∀ i < (streamB ws).toNat,
      s.hasWord ws (2 + i) ∧ s.hasWord ws (2 + (streamB ws).toNat + i))
    (hok : ∀ i < (streamB ws).toNat, streamBlockOk ws i) :
    (¬ streamTotalOk ws → s.unsuppressBody ws.length (streamN ws).toNat (streamB ws).toNat =
      .error (.raise .sizeMismatch (BitVec.ofInt 16 (streamTotal ws (streamB ws).toNat)))) ∧
    (streamTotalOk ws → s.unsuppressBody ws.length (streamN ws).toNat (streamB ws).toNat =
      (s.ibufWords (2 + 2 * (streamB ws).toNat) (ws.length - (2 + 2 * (streamB ws).toNat))).map
        fun xs =>
          { out := reinflate (streamN ws).toNat
              ((List.range' 0 (streamB ws).toNat).map (streamBlock ws)) xs
            blocks := (List.range' 0 (streamB ws).toNat).map (streamBlock ws) }) := by
  have hn : ((streamN ws).toNat : Int) = streamN ws := Int.toNat_of_nonneg hN
  obtain ⟨e', _, h⟩ := s.checkBlocks_passed ws _ (streamB ws).toNat 0 0 0 hn rfl
    (fun i _ hi => hw i (by omega)) (fun i _ hi => hok i (by omega))
  rw [Nat.add_zero] at h
  simp only [State.checkBlocks, Except.map, List.append_nil] at h
  have ht := totalLength_streamBlocks ws _ hok
  refine ⟨fun hbad => ?_, fun hgood => ?_⟩
  · have hne : totalLength ((List.range' 0 (streamB ws).toNat).map (streamBlock ws)) ≠
        ws.length - 2 - 2 * (streamB ws).toNat := by
      simp only [streamTotalOk] at hbad
      omega
    simp only [State.unsuppressBody, h, if_pos hne, store16, ← ht, BitVec.ofInt_natCast]
  · have heq : totalLength ((List.range' 0 (streamB ws).toNat).map (streamBlock ws)) =
        ws.length - 2 - 2 * (streamB ws).toNat := by
      simp only [streamTotalOk] at hgood
      omega
    simp only [State.unsuppressBody, h, heq, ne_eq, not_true_eq_false, if_false,
      show ws.length - 2 - 2 * (streamB ws).toNat = ws.length - (2 + 2 * (streamB ws).toNat) by omega]
    cases s.ibufWords (2 + 2 * (streamB ws).toNat) (ws.length - (2 + 2 * (streamB ws).toNat)) <;>
      rfl

end Sys2Proof.Machine
end

