-- ==== Sys2Proof/Tests/Slice0.lean ====
section
/-! SUPPORT. The model's own tests: the well-formedness smoke tests, command words written out from
30_encoding.md, vectors of 95_test_vectors.md, and for every statement with hypotheses a witness that
meets them. -/

namespace Sys2Proof.Tests

open Sys2Proof Sys2Proof.Machine

/-! ### Helpers -/

/-- The parameters of 95_test_vectors.md. -/
def small : Params := ⟨16, 8, 0⟩

/-- The smallest implementation, at a BASE that is not 0: N_MAX = 1, B_MAX = 1, BUF_DEPTH = 5. -/
def tiny : Params := ⟨1, 1, 0x100000⟩

/-- A busy block with IBUF[0..] = `xs`, LEN_IN its length, and nothing scheduled. -/
def busyWith (p : Params) (cmd : BitVec 4) (thresh ndist : Half) (xs : List Half) : State :=
  { State.resetOf p with
    lcmd := cmd, busy := true, thresh := thresh, ndist := ndist,
    lenIn := BitVec.ofNat 16 xs.length, mem := Memory.writeSlots [] (ibufOff 0) xs }

/-- The state a step leads to; the state itself where it stops. -/
def next (s : State) : State :=
  match step s with
  | .next t => t
  | _ => s

/-- OBUF[0..LEN_OUT-1], as numbers. -/
def outWords (s : State) : List (Option Nat) :=
  (List.range s.lenOut.toNat).map fun j => (s.obufWord j).map BitVec.toNat

/-- The BBRF entries below NBLK. -/
def outBlocks (s : State) : List (Option Block) := (List.range s.nblk.toNat).map s.block

/-- ERRCODE and ERRINFO. -/
def errors (s : State) : Nat × Nat := (s.errCode.toNat, s.errInfo.toNat)

/-- The waveform of 95_test_vectors.md V1. -/
def waveV1 : List Half := [0, 0, 0, 6, 7, 0, 0, 0, 9, 0, 0]

/-- The encoded stream of 95_test_vectors.md V1. -/
def streamV1 : List Half := [11, 2, 3, 8, 3, 2, 6, 7, 0, 9, 0]

/-! ### Well-formedness: one ill-formed term for each check (00_scope.md R7, R8, R10) -/

theorem test_params_wellFormed : small.wellFormed = true ∧ tiny.wellFormed = true := by decide

/-- The largest N_MAX, with the smallest and the largest B_MAX it admits. -/
theorem test_params_largest :
    Params.wellFormed ⟨32766, 16383, 0⟩ = true ∧ Params.wellFormed ⟨1, 32766, 0⟩ = true := by decide

theorem test_params_nMax_zero : Params.wellFormed ⟨0, 8, 0⟩ = false := by decide

theorem test_params_nMax_large : Params.wellFormed ⟨32767, 16384, 0⟩ = false := by decide

theorem test_params_bMax_small : Params.wellFormed ⟨17, 8, 0⟩ = false := by decide

theorem test_params_bMax_large : Params.wellFormed ⟨1, 32767, 0⟩ = false := by decide

theorem test_params_base : Params.wellFormed ⟨16, 8, 0x80000⟩ = false := by decide

/-! ### Command words, written out from 30_encoding.md R85 and R91 -/

theorem test_decode_suppress :
    decode 0b00000000000000000000000000010001#32 = .ok ⟨.suppress, false⟩ ∧
      decode 0b00000000000000000000000100010001#32 = .ok ⟨.suppress, true⟩ := by decide

theorem test_decode_suppressNN :
    decode 0b00000000000000000000000000100001#32 = .ok ⟨.suppressNN, false⟩ ∧
      decode 0b00000000000000000000000100100001#32 = .ok ⟨.suppressNN, true⟩ := by decide

theorem test_decode_unsuppress :
    decode 0b00000000000000000000000000110001#32 = .ok ⟨.unsuppress, false⟩ ∧
      decode 0b00000000000000000000000100110001#32 = .ok ⟨.unsuppress, true⟩ := by decide

/-- Reserved codes, reserved bits (95_test_vectors.md E1 to E3) and START = 0 (B7). -/
theorem test_decode_rejects :
    decode 0x001#32 = .error (.reservedCommand 0) ∧ decode 0x0F1#32 = .error (.reservedCommand 15) ∧
      decode 0xFFFFFE11#32 = .ok ⟨.suppress, false⟩ ∧ decode 0x1F0#32 = .error .notIssued := by decide

theorem test_decodeTableWord :
    decodeTableWord 32 0x11 = some .suppress ∧ decodeTableWord 32 0x21 = some .suppressNN ∧
      decodeTableWord 32 0x31 = some .unsuppress ∧ decodeTableWord 32 0x41 = none := by decide

/-- The first command after reset: SUPPRESS of the empty waveform writes [0, 0] (R112). -/
theorem test_fetch_after_reset :
    outWords (next (State.reset.withFetchWord 32 0x11)) = [some 0, some 0] := by decide

/-! ### Vectors of 95_test_vectors.md -/

/-- Section 2.1. -/
theorem test_comparator :
    [active 0 0x0000, active 0 0x0001, active 0 0xFFFF, active 0 0x8000, active 5 0x0005,
      active 5 0x0006, active 5 0xFFFB, active 5 0xFFFA, active 32767 0x7FFF, active 32767 0x8000,
      active 32768 0x8000, active 65535 0x8000, active 65535 0x7FFF, active 100 0xFF9C,
      active 100 0xFF9B] =
    [false, true, true, true, false, true, false, true, false, true, false, false, false, false,
      true] := by decide

/-- V1 and S1. -/
theorem test_suppress_V1 :
    outWords (next (busyWith small 1 5 0 waveV1)) = streamV1.map (fun w => some w.toNat) ∧
      outBlocks (next (busyWith small 1 5 0 waveV1)) = [some ⟨3, 3⟩, some ⟨8, 2⟩] := by decide

/-- S13: threshold 0, a run that ends the waveform, NDIST negative and not read. -/
theorem test_suppress_S13 :
    outWords (next (busyWith small 1 0 0xFFFF [0, 1, 0, 0, 0xFFFF])) =
      [some 5, some 2, some 1, some 4, some 2, some 1, some 1, some 0, some 0xFFFF] := by
  decide

/-- N8: pull-back, trailing padding, two blocks one sample apart. -/
theorem test_suppressNN_N8 :
    outWords (next (busyWith small 2 5 2 [0, 0, 7, 0, 0, 0, 0, 0, 7, 0, 0, 0])) =
      [some 12, some 2, some 0, some 6, some 5, some 5, some 0, some 0, some 7, some 0, some 0,
        some 0, some 0, some 7, some 0, some 0] := by decide

/-- N10: merge on re-open, and N18: a negative distance. -/
theorem test_suppressNN_N10_N18 :
    outBlocks (next (busyWith small 2 5 3 [7, 0, 0, 0, 0, 0, 0, 7])) = [some ⟨0, 8⟩] ∧
      errors (next (busyWith small 2 5 0xFFFF [0, 7, 0])) = (3, 65535) := by decide

/-- U1. -/
theorem test_unsuppress_U1 :
    outWords (next (busyWith small 3 0 0 streamV1)) = waveV1.map (fun w => some w.toNat) ∧
      outBlocks (next (busyWith small 3 0 0 streamV1)) = [some ⟨3, 3⟩, some ⟨8, 2⟩] := by
  decide

/-- U8, U11, U14, U16 and U19: each error with its detail. -/
theorem test_unsuppress_errors :
    [errors (next (busyWith small 3 0 0 [5])), errors (next (busyWith small 3 0 0 [0x8000, 0])),
      errors (next (busyWith small 3 0 0 [4, 2, 0, 1, 1])),
      errors (next (busyWith small 3 0 0 [4, 2, 0, 1, 2, 2, 7, 7, 7, 7])),
      errors (next (busyWith small 3 0 0 [4, 1, 1, 2, 7, 7, 7]))] =
    [(2, 1), (4, 0), (4, 1), (5, 1), (6, 2)] := by decide

/-- B8 and B9: a slot keeps bits [15:0], and reads zero-extended. -/
theorem test_slot_access :
    ((State.reset.hostWrite 0x80000 0x12345678).hostRead 0x80000).response = .okayRead 0x5678 ∧
      ((State.reset.hostWrite 0x80004 (BitVec.ofInt 32 (-6))).hostRead 0x80004).response =
        .okayRead 0xFFFA := by decide

/-- B14: an issue while busy is dropped; CTRL reads the new CMD, LCMD stays. -/
theorem test_issue_while_busy :
    ((State.reset.hostWrite 0 0x11).hostWrite 0 0x21).statusWord = 0x5 ∧
      ((State.reset.hostWrite 0 0x11).hostWrite 0 0x21).ctrlWord = 0x20 ∧
      ((State.reset.hostWrite 0 0x11).hostWrite 0 0x21).lcmd = 1 := by decide

/-- P1, P4: the encodings of host program lines (R101, R102). -/
theorem test_host_lines :
    programTurns tiny [.loadw [4, -3], .command .suppress true, .ack] =
      [.host ⟨0x180000, 4, .write 4⟩, .host ⟨0x180004, 4, .write 0xFFFD⟩,
        .host ⟨0x100000, 4, .write 0x111⟩, .host ⟨0x100004, 4, .write 6⟩] := by decide

/-! ### Witnesses: for every statement with hypotheses, states and operands that meet them -/

/-- An idle block with one word in IBUF, OBUF and the BBRF. -/
def idleFull : State :=
  { State.resetOf tiny with
    mem := Memory.writeSlots (Memory.writeBlocks (Memory.writeSlots [] (ibufOff 0) [1, 1, 1, 1, 1]) 0
      [⟨0, 1⟩]) (obufOff 0) [7, 8] }

theorem witness_MaskedWordIssuesCommand :
    idleFull.busy = false ∧ 0xFFFFFF11#32 &&& 0xF1#32 = matchWord .suppress ∧
      0x41#32 &&& 0xF1#32 ≠ matchWord .suppress ∧ 0x41#32 &&& 0xF1#32 ≠ matchWord .suppressNN ∧
      0x41#32 &&& 0xF1#32 ≠ matchWord .unsuppress ∧ (0x41#32).getLsbD 0 = true ∧
      (0x110#32).getLsbD 0 = false := by decide

theorem witness_DecodeInvertsEncode : decode 0xFFFFFF31#32 = .ok ⟨.unsuppress, true⟩ := by decide

theorem witness_StepRunsLatchedCommand :
    (busyWith tiny 1 0 0 [7]).busy = true ∧ (busyWith tiny 1 0 0 [7]).fetch = .ok .suppress ∧
      Instr.suppress.wellFormed = true ∧ (busyWith tiny 1 0 0 [7]).schedule = [] ∧
      ({ busyWith tiny 1 0 0 [7] with schedule := [.sequencer] } : State).schedule =
        [Turn.sequencer] := by decide

theorem witness_FetchWordRunsCommand : decode 0x121#32 = .ok ⟨.suppressNN, true⟩ := by decide

theorem witness_IssueThenCompletionPerformsCommand :
    decode 0x31#32 = .ok ⟨.unsuppress, false⟩ ∧
      ({ idleFull with schedule := [.host ⟨0x100000, 4, .write 0x31⟩, .sequencer] } : State).busy =
        false ∧ idleFull.params.base = 0x100000 := by decide

/-- Each clause of the statement, the last at both edges of the window. -/
theorem witness_StepServesEachTurn :
    idleFull.busy = false ∧ idleFull.schedule = [] ∧
      ({ idleFull with schedule := [.reset] } : State).schedule = [.reset] ∧
      ({ idleFull with schedule := [.sequencer] } : State).schedule = [.sequencer] ∧
      ({ idleFull with schedule := [.host ⟨0xFFFFF, 4, .read⟩] } : State).schedule =
        [.host ⟨0xFFFFF, 4, .read⟩] ∧
      0xFFFFF < idleFull.params.base ∧ idleFull.params.base + 0x100000 ≤ 0x200000 := by decide

/-- A waveform of one sample and no other slot written; a reserved code with nothing written; a stream
rejected at its N word, the only one written. -/
theorem witness_PendingCompletionIsTaken :
    (busyWith tiny 1 0 0 [1]).busy = true ∧ (busyWith tiny 1 0 0 [1]).inputsReady ∧
      (busyWith tiny 7 0 0 []).inputsReady ∧
      ({ busyWith tiny 3 0 0 [2] with lenIn := 2 } : State).inputsReady ∧
      ({ busyWith tiny 1 0 0 [1] with schedule := [.host ⟨0x100004, 4, .read⟩] } : State).schedule =
        [(⟨0x100004, 4, .read⟩ : HostOp)].map Turn.host := by
  refine ⟨by decide, fun _ => by decide, trivial, ⟨[2, 0], by decide, fun j hj => ?_⟩, by decide⟩
  obtain ⟨_, rfl | ⟨hN, _⟩⟩ := hj
  · decide
  · exact absurd hN (by decide)

theorem witness_OnlyIllegalAccessesGetError :
    0xFFFFC < 0x100000 ∧ 0xFFFFC % 4 = 0 ∧ 0xFFFFF % 4 ≠ 0 ∧ 2 ≠ 4 := by decide

theorem witness_ReadsHaveNoSideEffect : (⟨0, 4, .read⟩ : HostOp).access = .read := by decide

theorem witness_CommandIssueEffects :
    (0x11#32).getLsbD 0 = true ∧ (0x10#32).getLsbD 0 = false ∧ idleFull.busy = false ∧
      (busyWith tiny 1 0 0 []).busy = true := by decide

/-- Each clause, the last at both ends of IBUF. -/
theorem witness_MisuseWhileBusyIsDropped :
    (busyWith tiny 1 0 0 []).busy = true ∧ (0x21#32).getLsbD 0 = true ∧ 0x8 ∈ [0x8, 0xC, 0x10] ∧
      (busyWith tiny 1 0 0 []).params.wellFormed = true ∧ 0 < bufDepth tiny ∧
      4 < bufDepth tiny ∧ bufDepth tiny = 5 := by decide

theorem witness_ParameterWritesStoreLowHalf : idleFull.busy = false := by decide

/-- Each of the four ranges at its first and last offset. -/
theorem witness_ReservedOffsetsAreInert :
    idleFull.params.wellFormed = true ∧ 0x24 % 4 = 0 ∧ 0x24 < 0x40000 ∧ 0x3FFFC < 0x40000 ∧
      0x40000 + 8 * idleFull.params.bMax = 0x40008 ∧ 0x7FFFC < 0x80000 ∧
      0x80000 + 4 * bufDepth idleFull.params = 0x80014 ∧ 0xBFFFC < 0xC0000 ∧
      0xC0000 + 4 * bufDepth idleFull.params = 0xC0014 ∧ 0xFFFFC < 0x100000 := by decide

theorem witness_ReadOnlyTargetsIgnoreWrites :
    0x14 % 4 = 0 ∧ 0x14 ≤ 0x20 ∧ 0x40000 % 4 = 0 ∧ 0x7FFFC < 0x80000 ∧ 0xC0000 % 4 = 0 ∧
      0xFFFFC < 0x100000 := by decide

theorem witness_SlotsHoldSixteenBits :
    idleFull.params.wellFormed = true ∧ 0 < bufDepth idleFull.params ∧ 4 < bufDepth idleFull.params ∧
      idleFull.busy = false ∧ Memory.slot idleFull.mem (ibufOff 4) = some 1 ∧
      Memory.slot idleFull.mem (obufOff 0) = some 7 := by decide

theorem witness_BlockEntriesReadThrough :
    idleFull.params.wellFormed = true ∧ 0 < idleFull.params.bMax ∧ idleFull.busy = false ∧
      idleFull.block 0 = some ⟨0, 1⟩ := by decide

/-- Each of the four clauses, at the last slot or entry of its region. -/
theorem witness_UnknownReadsAnswerTheNextDraw :
    (State.resetOf tiny).params.wellFormed = true ∧ 4 < bufDepth tiny ∧ 0 < tiny.bMax ∧
      (busyWith tiny 1 0 0 []).busy = true ∧
      Memory.slot (State.resetOf tiny).mem (obufOff 4) = none ∧
      Memory.slot (State.resetOf tiny).mem (bsOff 0) = none ∧
      Memory.slot (State.resetOf tiny).mem (blOff 0) = none ∧
      Memory.slot (State.resetOf tiny).mem (ibufOff 4) = none := by decide

theorem witness_CapsIsConstant : idleFull.params.wellFormed = true ∧ step idleFull = .next idleFull :=
  ⟨by decide, rfl⟩

theorem witness_InterruptIsEnableAndDone :
    (0x2#32).getLsbD 1 = true ∧ (0x11#32).getLsbD 0 = true ∧ idleFull.busy = false ∧
      (0x10#32).getLsbD 8 = false ∧ (0x10#32).getLsbD 0 = false := by decide

/-- The statements about every step: one step that issues, one that completes. -/
theorem witness_BusyFollowsIssueAndCompletion :
    (next { idleFull with schedule := [.host ⟨0x100000, 4, .write 0x11⟩] }).busy = true ∧
      (next (busyWith tiny 1 0 0 [7])).busy = false := by decide

theorem witness_MisuseFlagChangesOnlyAsTold :
    (next { busyWith tiny 1 0 0 [7] with
      schedule := [.host ⟨0x180010, 4, .write 1⟩] }).bsyErr = true ∧
      (next { idleFull with bsyErr := true, schedule := [.host ⟨0x100004, 4, .write 4⟩] }).bsyErr =
        false ∧ tiny.wellFormed = true := by decide

/-- The hypothesis, and the bytes at the edges of the two ranges. -/
theorem witness_HostAccessesKeepResults :
    idleFull.params.wellFormed = true ∧ 0x7FFFF < 0x80000 ∧ 0xC0000 ≤ 0xC0000 ∧
      (idleFull.hostAccess ⟨0x100000, 4, .write 0x11⟩).lcmd ≠ idleFull.lcmd := by decide

theorem witness_InputsAreFrozenWhileBusy : (busyWith tiny 1 0 0 [7]).busy = true := by decide

theorem witness_CompletionIgnoresAccessesWhileBusy : (busyWith tiny 2 0 0 [7]).busy = true := by decide

theorem witness_EveryCompletionRaisesDone :
    (busyWith tiny 1 0 0 [7]).busy = true ∧
      (match sequencerTurn (busyWith tiny 1 0 0 [7]) with | .next t => t.errCode | _ => 1) = 0#4 := by
  decide

theorem witness_ReservedCommandCompletesIllegal :
    (busyWith tiny 0 0 0 []).busy = true ∧ (busyWith tiny 0 0 0 []).lcmd ≠ 1 ∧
      (busyWith tiny 4 0 0 []).lcmd ≠ 2 ∧ (busyWith tiny 4 0 0 []).lcmd ≠ 3 := by decide

/-- LEN_IN = N_MAX + 1 for the suppress commands, 1 and BUF_DEPTH + 1 for UNSUPPRESS. -/
theorem witness_BadLengthExactlyOutOfRange :
    tiny.nMax < (busyWith tiny 1 0 0 [7, 7]).lenIn.toNat ∧ (busyWith tiny 3 0 0 [7]).lenIn.toNat < 2 ∧
      bufDepth tiny < (busyWith tiny 3 0 0 [7, 7, 7, 7, 7, 7]).lenIn.toNat ∧
      errors (next (busyWith tiny 1 0 0 [7, 7])) = (2, 2) := by decide

theorem witness_BadDistanceOnlyWhenNegative :
    (busyWith tiny 2 0 0x8000 [7]).lenIn.toNat ≤ tiny.nMax ∧
      (busyWith tiny 2 0 0x8000 [7]).ndist.toInt < 0 ∧
      errors (next (busyWith tiny 2 0 0xFFFF [7])) = (3, 65535) := by decide

/-- The clauses at their boundaries: N = -1 and N_MAX + 1; B = -1, B_MAX + 1 and 2 + 2B = L + 1. -/
theorem witness_BadHeaderNamesTheWord :
    2 ≤ (busyWith tiny 3 0 0 [2, 0]).lenIn.toNat ∧
      (busyWith tiny 3 0 0 [2, 0]).lenIn.toNat ≤ bufDepth tiny ∧
      Memory.slot (busyWith tiny 3 0 0 [2, 0]).mem (ibufOff 0) = some 2 ∧
      (tiny.nMax : Int) < (2#16).toInt ∧ (0xFFFF#16).toInt < 0 ∧ 0 ≤ (1#16).toInt ∧
      (1#16).toInt ≤ tiny.nMax ∧
      Memory.slot (busyWith tiny 3 0 0 [1, 2, 0, 0]).mem (ibufOff 1) = some 2 ∧
      (tiny.bMax : Int) < (2#16).toInt ∧
      ((busyWith tiny 3 0 0 [1, 1, 0]).lenIn.toNat : Int) < 2 + 2 * (1#16).toInt ∧
      errors (next (busyWith tiny 3 0 0 [1, 0xFFFF])) = (4, 1) := by decide

/-- A stream whose second block is the first to fail (95_test_vectors.md U16), its sample words
unwritten. -/
theorem witness_BadBlockNamesTheFirst :
    ({ busyWith small 3 0 0 [4, 2, 0, 1, 2, 2] with lenIn := 10 } : State).holdsBlockWords
        [4, 2, 0, 1, 2, 2, 7, 7, 7, 7] 2 ∧
      streamLengthOk small [4, 2, 0, 1, 2, 2, 7, 7, 7, 7] ∧
      streamNOk small [4, 2, 0, 1, 2, 2, 7, 7, 7, 7] ∧
      streamBOk small [4, 2, 0, 1, 2, 2, 7, 7, 7, 7] ∧
      1 < (streamB [4, 2, 0, 1, 2, 2, 7, 7, 7, 7]).toNat ∧
      (∀ j < 1, streamBlockOk [4, 2, 0, 1, 2, 2, 7, 7, 7, 7] j) ∧
      ¬ streamBlockOk [4, 2, 0, 1, 2, 2, 7, 7, 7, 7] 1 := by decide

/-- One sample word too many (95_test_vectors.md U19), the sample words unwritten. -/
theorem witness_SizeMismatchReportsTheSum :
    ({ busyWith small 3 0 0 [4, 1, 1, 2] with lenIn := 7 } : State).holdsBlockWords
        [4, 1, 1, 2, 7, 7, 7] 1 ∧
      (streamB [4, 1, 1, 2, 7, 7, 7]).toNat = 1 ∧
      streamLengthOk small [4, 1, 1, 2, 7, 7, 7] ∧ streamNOk small [4, 1, 1, 2, 7, 7, 7] ∧
      streamBOk small [4, 1, 1, 2, 7, 7, 7] ∧
      (∀ k < (streamB [4, 1, 1, 2, 7, 7, 7]).toNat, streamBlockOk [4, 1, 1, 2, 7, 7, 7] k) ∧
      ¬ streamTotalOk [4, 1, 1, 2, 7, 7, 7] := by decide

theorem witness_FailedCommandChangesOnlyResults :
    (match exec .unsuppress (busyWith tiny 3 0 0 [7]) with | .next t => t.errCode | _ => 0) ≠ 0#4 ∧
      (busyWith tiny 4 0 0 []).busy = true ∧ (next (busyWith tiny 4 0 0 [])).errCode ≠ 0#4 := by
  decide

/-- A one-sample waveform with its slot unwritten; a whole stream written; streams whose first unwritten
word is the N word, the B word, the start, the length and the sample of the only block. -/
theorem witness_CommandFaultsOnlyOnUnwrittenSlot :
    ({ busyWith tiny 1 0 0 [] with lenIn := 1 } : State).lenIn.toNat ≤ tiny.nMax ∧
      0 ≤ (busyWith tiny 1 0 0 []).ndist.toInt ∧
      Memory.slot (busyWith tiny 1 0 0 []).mem (ibufOff 0) = none ∧
      (busyWith tiny 3 0 0 [1, 0]).ibufWritten (busyWith tiny 3 0 0 [1, 0]).lenIn.toNat ∧
      ∀ j < 5, ({ busyWith tiny 3 0 0 (([1, 1, 0, 1, 9] : List Half).take j) with
        lenIn := 5 } : State).agreesWithStream [1, 1, 0, 1, 9] := by
  decide

theorem witness_CommandFaultsOnlyOnUnwrittenSlot_reads :
    streamReads tiny [1, 1, 0, 1, 9] 0 ∧ streamReads tiny [1, 1, 0, 1, 9] 1 ∧
      streamReads tiny [1, 1, 0, 1, 9] 2 ∧ streamReads tiny [1, 1, 0, 1, 9] 3 ∧
      streamReads tiny [1, 1, 0, 1, 9] 4 :=
  ⟨⟨by decide, .inl rfl⟩, ⟨by decide, .inr ⟨by decide, .inl rfl⟩⟩,
    ⟨by decide, .inr ⟨by decide, .inr ⟨by decide, .inl ⟨0, by decide, by decide, .inl rfl⟩⟩⟩⟩,
    ⟨by decide, .inr ⟨by decide, .inr ⟨by decide, .inl ⟨0, by decide, by decide, .inr rfl⟩⟩⟩⟩,
    ⟨by decide, .inr ⟨by decide, .inr ⟨by decide, .inr (by decide)⟩⟩⟩⟩

/-- The fault names the first unwritten word in pseudocode order: of the stream
[N, B, S_0, S_1, L_0, L_1, ...] with B = 2 and the slots of S_1 and L_0 unwritten, L_0 (R125). -/
theorem test_unsuppress_fault_order :
    (match exec .unsuppress { busyWith small 3 0 0 [] with
        lenIn := 8
        mem := Memory.writeSlot (Memory.writeSlots [] (ibufOff 0) [4, 2, 0]) (ibufOff 5) 1 } with
      | .fault (.unwrittenIbuf j) => j
      | _ => 99) = 4 := by decide

/-- A completion that stores, and a byte it does not store, next to one that it does. -/
theorem witness_CommandsStoreOnlyTheirResults :
    tiny.wellFormed = true ∧
      (match exec .suppress (busyWith tiny 1 0 0 [7]) with | .next t => t.lenOut | _ => 0) = 5#16 ∧
      ¬ inSlot 0xC0002 (obufOff 0) := by decide

/-- The clauses with hypotheses at their boundaries: thresholds 32768 and 32767, the pair 6 and -6, a
sample equal to its threshold. -/
theorem witness_ComparatorCornerCases :
    32768 ≤ (0x8000#16).toNat ∧ (0x7FFF#16).toNat ≤ 32767 ∧ (0xFFFA#16).toInt = -(6#16).toInt ∧
      (5#16).toInt.natAbs = (5#16).toNat ∧
      (busyWith tiny 2 0x8000 0 [0x8000]).holdsWaveform [0x8000] ∧
      32768 ≤ (busyWith tiny 2 0x8000 0 [0x8000]).thresh.toNat ∧ Instr.suppressNN ≠ .unsuppress ∧
      0 ≤ (busyWith tiny 2 0x8000 0 [0x8000]).ndist.toInt := by decide

/-- For the statements about a written waveform, N = N_MAX and N = 0 among them. -/
theorem witness_SuppressRecordsMaximalRuns :
    (busyWith tiny 1 5 0 [9]).holdsWaveform [9] ∧ (busyWith tiny 1 5 0 []).holdsWaveform [] ∧
      (busyWith small 1 5 0 waveV1).holdsWaveform waveV1 := by decide

theorem witness_SuppressNNRecordsGroups :
    (busyWith small 2 5 3 waveV1).holdsWaveform waveV1 ∧
      0 ≤ (busyWith small 2 5 3 waveV1).ndist.toInt ∧
      (busyWith tiny 2 5 0x7FFF [9]).holdsWaveform [9] ∧
      0 ≤ (busyWith tiny 2 5 0x7FFF [9]).ndist.toInt := by decide

theorem witness_EncodedStreamLayout :
    Instr.suppress ≠ .unsuppress ∧ (busyWith tiny 1 5 0xFFFF [9]).holdsWaveform [9] ∧
      Instr.suppressNN ≠ .unsuppress ∧ 0 ≤ (busyWith tiny 2 5 0 [9]).ndist.toInt := by decide

theorem witness_SuppressBlockListIsValid :
    Instr.suppressNN ≠ .unsuppress ∧ (busyWith small 2 5 0 waveV1).holdsWaveform waveV1 ∧
      0 ≤ (busyWith small 2 5 0 waveV1).ndist.toInt := by decide

theorem witness_HeaderWordsStayNonNegative :
    Instr.suppress ≠ .unsuppress ∧ tiny.wellFormed = true ∧
      (match exec .suppress (busyWith tiny 1 5 0 [9]) with | .next t => t.errCode | _ => 1) = 0#4 := by
  decide

/-- For the statements about a valid stream: one with a block, and the shortest one. -/
theorem witness_UnsuppressReinflates :
    (busyWith small 3 0 0 streamV1).holdsStream streamV1 ∧ streamValid small streamV1 ∧
      (busyWith tiny 3 0 0 [0, 0]).holdsStream [0, 0] ∧ streamValid tiny [0, 0] := by decide

theorem witness_UnsuppressAcceptsExactlyValidStreams :
    (busyWith tiny 3 0 0 [1, 1, 0, 1, 9]).holdsStream [1, 1, 0, 1, 9] ∧
      streamValid tiny [1, 1, 0, 1, 9] ∧ (busyWith tiny 3 0 0 [1, 1, 1, 1, 9]).holdsStream
        [1, 1, 1, 1, 9] ∧ ¬ streamValid tiny [1, 1, 1, 1, 9] := by decide

/-- The waveform [9] of the smallest implementation, encoded, and its stream copied back. -/
theorem witness_RoundTripKeepsRecordedSamples :
    (busyWith tiny 1 5 0 [9]).holdsWaveform [9] ∧
      (match exec .suppress (busyWith tiny 1 5 0 [9]) with
        | .next t => t.errCode = 0#4 ∧ (busyWith tiny 3 0 0 [1, 1, 0, 1, 9]).params = tiny ∧
            (busyWith tiny 3 0 0 [1, 1, 0, 1, 9]).lenIn = t.lenOut ∧
            ∀ j < t.lenOut.toNat,
              Memory.slot (busyWith tiny 3 0 0 [1, 1, 0, 1, 9]).mem (ibufOff j) = t.obufWord j
        | _ => False) := by
  constructor
  · decide
  · show _ ∧ _ ∧ _ ∧ ∀ j < 5, _
    decide

theorem witness_ResetZeroesRegisters :
    ({ busyWith tiny 1 5 0 [9] with schedule := [.reset] } : State).schedule = [.reset] ∧
      Reg.status ≠ .caps := by decide

theorem witness_ResetUnwritesStorage :
    ({ idleFull with schedule := [.reset] } : State).schedule = [.reset] := by decide

theorem witness_ResetAbandonsTheCommand :
    (busyWith tiny 1 5 0 [9]).busy = true ∧
      ({ busyWith tiny 1 5 0 [9] with schedule := [.reset, .sequencer] } : State).schedule =
        [.reset, .sequencer] := by decide

/-- A busy state that meets the flags' invariant, and its step to a next state. -/
theorem witness_FlagsInvariantIsKept :
    (busyWith tiny 1 5 0 [9]).flagsInv ∧
      (match step (busyWith tiny 1 5 0 [9]) with | .next t => t.done | _ => false) = true := by
  decide

/-- The reset state meets the storage and the results' invariant, and steps to a next state. -/
theorem witness_StorageInvariantIsKept :
    (State.resetOf tiny).storageInv ∧ step (State.resetOf tiny) = .next (State.resetOf tiny) :=
  ⟨⟨by decide, by decide, fun _ h => absurd h Bool.false_ne_true, fun _ _ => rfl,
    fun _ _ => rfl⟩, rfl⟩

theorem witness_ResultsInvariantIsKept :
    (State.resetOf tiny).resultsInv ∧ step (State.resetOf tiny) = .next (State.resetOf tiny) :=
  ⟨⟨by decide, by decide, by decide, fun _ _ _ h => nomatch h⟩, rfl⟩

theorem witness_ResetMeetsInvariants : small.wellFormed = true := by decide

end Sys2Proof.Tests
end

section
/-! PROOFS. The registers and flags of 10_state.md: the fields of the words a host reads, what a legal
write does, what every step does to the parameters and to BSYERR, and the statements about them. -/

namespace Sys2Proof.Machine

open Sys2Proof

/-! ### The words of CTRL, STATUS and CAPS -/

/-- CTRL's fields in place (10_state.md R20): IE above CMD above four zero bits. -/
theorem State.ctrlWord_eq_append (s : State) :
    s.ctrlWord = (BitVec.ofBool s.ctrlIe ++ s.ctrlCmd ++ 0#4).setWidth 32 := by
  simp only [State.ctrlWord]
  generalize s.ctrlIe = ie, s.ctrlCmd = c
  revert ie c
  decide

/-- STATUS' fields in place (10_state.md R20): ERRCODE above a zero bit, BSYERR, DONE and BUSY. -/
theorem State.statusWord_eq_append (s : State) :
    s.statusWord = (s.errCode ++ 0#1 ++ BitVec.ofBool s.bsyErr ++ BitVec.ofBool s.done ++
      BitVec.ofBool s.busy).setWidth 32 := by
  simp only [State.statusWord]
  generalize s.errCode = e, s.bsyErr = y, s.done = d, s.busy = b
  revert e y d b
  decide

theorem State.ctrlWord_start (s : State) : s.ctrlWord.getLsbD 0 = false := by
  simp [State.ctrlWord_eq_append, BitVec.getLsbD_append, -Nat.reduceAdd,
    -BitVec.getLsbD_eq_getElem]

theorem State.ctrlWord_ie (s : State) : s.ctrlWord.getLsbD 8 = s.ctrlIe := by
  simp [State.ctrlWord_eq_append, BitVec.getLsbD_append, -Nat.reduceAdd,
    -BitVec.getLsbD_eq_getElem]

theorem State.statusWord_done (s : State) : s.statusWord.getLsbD 1 = s.done := by
  simp [State.statusWord_eq_append, BitVec.getLsbD_append, -Nat.reduceAdd,
    -BitVec.getLsbD_eq_getElem]

theorem State.statusWord_bsyErr (s : State) : s.statusWord.getLsbD 2 = s.bsyErr := by
  simp [State.statusWord_eq_append, BitVec.getLsbD_append, -Nat.reduceAdd,
    -BitVec.getLsbD_eq_getElem]

theorem State.statusWord_bit3 (s : State) : s.statusWord.getLsbD 3 = false := by
  simp [State.statusWord_eq_append, BitVec.getLsbD_append, -Nat.reduceAdd,
    -BitVec.getLsbD_eq_getElem]

theorem State.statusWord_of_ge (s : State) (k : Nat) (hk : 8 ≤ k) :
    s.statusWord.getLsbD k = false := by
  rw [State.statusWord_eq_append, BitVec.getLsbD_setWidth, BitVec.getLsbD_of_ge _ k hk,
    Bool.and_false]

theorem State.capsWord_low (s : State) :
    s.capsWord.extractLsb' 0 16 = BitVec.ofNat 16 s.params.nMax :=
  BitVec.extractLsb'_append_eq_right

theorem State.capsWord_high (s : State) :
    s.capsWord.extractLsb' 16 16 = BitVec.ofNat 16 s.params.bMax :=
  BitVec.extractLsb'_append_eq_left

/-! ### Reserved bits -/

/-- The reserved bits of CTRL, START among them, read 0 (10_state.md R20, R39). -/
theorem State.ctrlWord_reserved (s : State) : s.ctrlWord &&& ~~~0x1F0#32 = 0#32 := by
  simp only [State.ctrlWord]
  generalize s.ctrlIe = ie, s.ctrlCmd = c
  revert ie c
  decide

/-- The reserved bits of STATUS read 0 (10_state.md R29, R39). -/
theorem State.statusWord_reserved (s : State) : s.statusWord &&& ~~~0xF7#32 = 0#32 := by
  simp only [State.statusWord]
  generalize s.errCode = e, s.bsyErr = y, s.done = d, s.busy = b
  revert e y d b
  decide

/-- A 16-bit register reads 0 above bit 15 (10_state.md R30 to R36, R39). -/
theorem half_setWidth_reserved (w : Half) : w.setWidth 32 &&& ~~~0xFFFF#32 = 0#32 := by
  have mask : ~~~0xFFFF#32 = ~~~((BitVec.allOnes 16).setWidth 32) := by decide
  ext i hi
  simp only [mask, BitVec.getElem_and, BitVec.getElem_not, BitVec.getElem_setWidth,
    BitVec.getLsbD_allOnes, BitVec.getElem_zero]
  by_cases h : i < 16
  · simp [h]
  · simp [BitVec.getLsbD_of_ge w i (by omega)]

/-- Every reserved bit reads 0 (10_state.md R39). -/
theorem State.readReg_reserved (s : State) (r : Reg) :
    s.readReg r &&& ~~~readableBits r = 0#32 := by
  cases r with
  | ctrl => exact s.ctrlWord_reserved
  | status => exact s.statusWord_reserved
  | caps => exact BitVec.and_zero
  | thresh => exact half_setWidth_reserved s.thresh
  | ndist => exact half_setWidth_reserved s.ndist
  | lenIn => exact half_setWidth_reserved s.lenIn
  | lenOut => exact half_setWidth_reserved s.lenOut
  | nblk => exact half_setWidth_reserved s.nblk
  | errInfo => exact half_setWidth_reserved s.errInfo

/-- What a 16-bit register stores of a bus word is its low half (10_state.md R30 to R32). -/
theorem setWidth_and_lowHalf (v : Word) : (v &&& 0xFFFF#32).setWidth 16 = v.setWidth 16 := by
  have mask : (0xFFFF#32).setWidth 16 = BitVec.allOnes 16 := by decide
  rw [BitVec.setWidth_and, mask, BitVec.and_allOnes]

/-- The fields of a command word lie in its bits that are not reserved (30_encoding.md R85, R88). -/
theorem commandWord_and_writable (v : Word) : commandWord (v &&& 0x1F1#32) = commandWord v := by
  have mask : (0x1F1#32).extractLsb' 4 4 = BitVec.allOnes 4 := by decide
  have cmd : (v &&& 0x1F1#32).extractLsb' 4 4 = v.extractLsb' 4 4 := by
    rw [BitVec.extractLsb'_and, mask, BitVec.and_allOnes]
  simp [commandWord, cmd]

/-- What is written to a reserved bit has no effect (10_state.md R39). -/
theorem State.writeReg_and_writable (s : State) (r : Reg) (v : Word) :
    s.writeReg r (v &&& writableBits r) = s.writeReg r v := by
  cases r with
  | ctrl => simp only [State.writeReg, State.writeCtrl, writableBits, commandWord_and_writable]
  | status => simp [State.writeReg, State.ackFlags, writableBits]
  | thresh => simp only [State.writeReg, writableBits, setWidth_and_lowHalf]
  | ndist => simp only [State.writeReg, writableBits, setWidth_and_lowHalf]
  | lenIn => simp only [State.writeReg, writableBits, setWidth_and_lowHalf]
  | lenOut | nblk | errInfo | caps => rfl

/-! ### Writes to CTRL, STATUS and the read-only targets -/

theorem State.hostWrite_ctrl (s : State) (v : Word) :
    s.hostWrite 0x0 v = { s.writeCtrl v with response := .okayWrite } :=
  s.hostWrite_regOff .ctrl v

theorem State.hostWrite_status (s : State) (v : Word) :
    s.hostWrite 0x4 v = { s.ackFlags v with response := .okayWrite } :=
  s.hostWrite_regOff .status v

/-- Every CTRL write stores IE (10_state.md R21, R23). -/
theorem State.writeCtrl_ctrlIe (s : State) (v : Word) :
    (s.writeCtrl v).ctrlIe = v.getLsbD 8 := by
  cases h : v.getLsbD 0 with
  | false => rw [s.writeCtrl_store v h]; rfl
  | true =>
    cases hb : s.busy with
    | false => rw [s.writeCtrl_issue v h hb]; rfl
    | true => rw [s.writeCtrl_drop v h hb]; rfl

/-- Write-1-to-clear, as a choice by the written bits (10_state.md R26, R27). -/
theorem State.ackFlags_eq_ite (s : State) (v : Word) :
    s.ackFlags v = { s with
      done := (if v.getLsbD 1 then false else s.done),
      bsyErr := (if v.getLsbD 2 then false else s.bsyErr) } := by
  have and_not_eq_ite : ∀ a b : Bool, (a && !b) = (if b then false else a) := by decide
  simp only [State.ackFlags, and_not_eq_ite]

/-- Whatever a BBRF offset names, an entry or nothing, ignores writes (10_state.md R46). -/
theorem State.writeTarget_bbrfTarget (s : State) (v : Word) (d : Nat) :
    s.writeTarget v (bbrfTarget s.params d) = s := by
  unfold bbrfTarget
  split
  · split <;> rfl
  · rfl

/-- The four read-only registers ignore writes (10_state.md R38). -/
theorem State.writeTarget_readOnlyReg (s : State) (v : Word) (off : Nat) (h4 : off % 4 = 0)
    (hl : 0x14 ≤ off) (hu : off ≤ 0x20) : s.writeTarget v (targetOf s.params off) = s := by
  have hoff : off = 0x14 ∨ off = 0x18 ∨ off = 0x1C ∨ off = 0x20 := by omega
  obtain rfl | rfl | rfl | rfl := hoff <;> rfl

/-- Every offset of the BBRF window ignores writes (10_state.md R46). -/
theorem State.writeTarget_bbrfWindow (s : State) (v : Word) (off : Nat) (hl : 0x40000 ≤ off)
    (hu : off < 0x80000) : s.writeTarget v (targetOf s.params off) = s := by
  have ht : targetOf s.params off = bbrfTarget s.params (off - 0x40000) := by
    simp only [targetOf, if_neg (Nat.not_lt.2 hl), if_pos hu]
  rw [ht, s.writeTarget_bbrfTarget]

/-- Every offset of the OBUF window ignores writes (10_state.md R51). -/
theorem State.writeTarget_obufWindow (s : State) (v : Word) (off : Nat) (hl : 0xC0000 ≤ off) :
    s.writeTarget v (targetOf s.params off) = s := by
  have h1 : ¬ off < 0x40000 := by omega
  have h2 : ¬ off < 0x80000 := by omega
  have h3 : ¬ off < 0xC0000 := by omega
  simp only [targetOf, if_neg h1, if_neg h2, if_neg h3]
  split <;> rfl

/-! ### What writes do to the parameters and to BSYERR -/

theorem State.writeTarget_params (s : State) (v : Word) (g : Target) :
    (s.writeTarget v g).params = s.params := by
  cases g with
  | reg r =>
    cases r with
    | ctrl => exact (s.writeCtrl_frame v).1
    | status | lenOut | nblk | errInfo | caps => rfl
    | thresh | ndist | lenIn =>
      simp only [State.writeTarget, State.writeReg]
      split <;> rfl
  | ibuf i =>
    simp only [State.writeTarget, State.writeIbuf]
    split <;> rfl
  | reserved | blockStart k | blockLength k | obuf j => rfl

/-- A write of `v` to the target is host misuse while BUSY = 1 (60_exceptions.md R149): an issue, or a
write to a parameter register or an IBUF slot. -/
def isMisuse (v : Word) : Target → Bool
  | .reg .ctrl => v.getLsbD 0
  | .reg .thresh => true
  | .reg .ndist => true
  | .reg .lenIn => true
  | .ibuf _ => true
  | _ => false

/-- A write of `v` to the target clears BSYERR (10_state.md R27). -/
def clearsMisuse (v : Word) : Target → Bool
  | .reg .status => v.getLsbD 2
  | _ => false

theorem State.writeCtrl_bsyErr (s : State) (v : Word) :
    (s.writeCtrl v).bsyErr = (s.bsyErr || s.busy && v.getLsbD 0) := by
  cases h : v.getLsbD 0 with
  | false => rw [s.writeCtrl_store v h]; simp
  | true =>
    cases hb : s.busy with
    | false => rw [s.writeCtrl_issue v h hb]; simp
    | true => rw [s.writeCtrl_drop v h hb]; simp

/-- Everything a write to a target does to BSYERR (10_state.md R27). -/
theorem State.writeTarget_bsyErr (s : State) (v : Word) (g : Target) :
    (s.writeTarget v g).bsyErr =
      (s.bsyErr && !clearsMisuse v g || s.busy && isMisuse v g) := by
  cases g with
  | reg r =>
    cases r with
    | ctrl =>
      simp [State.writeTarget, State.writeReg, s.writeCtrl_bsyErr v, isMisuse, clearsMisuse]
    | status | lenOut | nblk | errInfo | caps =>
      simp [State.writeTarget, State.writeReg, isMisuse, clearsMisuse]
    | thresh | ndist | lenIn =>
      cases hb : s.busy <;> simp [State.writeTarget, State.writeReg, isMisuse, clearsMisuse, hb]
  | ibuf i =>
    cases hb : s.busy <;> simp [State.writeTarget, State.writeIbuf, isMisuse, clearsMisuse, hb]
  | reserved | blockStart k | blockLength k | obuf j =>
    simp [State.writeTarget, isMisuse, clearsMisuse]

theorem State.hostWrite_bsyErr (s : State) (off : Nat) (v : Word) (h : off < 0x100000)
    (h4 : off % 4 = 0) :
    (s.hostWrite off v).bsyErr = (s.bsyErr && !clearsMisuse v (targetOf s.params off) ||
      s.busy && isMisuse v (targetOf s.params off)) := by
  rw [s.hostWrite_eq off v h h4]
  exact s.writeTarget_bsyErr v _

/-- The offsets at which a write of `v` is misuse (60_exceptions.md R149). -/
theorem isMisuse_targetOf_iff (p : Params) (off : Nat) (v : Word) (hp : p.wellFormed = true)
    (h4 : off % 4 = 0) :
    isMisuse v (targetOf p off) = true ↔
      (off = 0x0 ∧ v.getLsbD 0 = true ∨ off ∈ [0x8, 0xC, 0x10] ∨
        ∃ i < bufDepth p, off = 0x80000 + 4 * i) := by
  constructor
  · intro hm
    cases hg : targetOf p off with
    | reg r =>
      obtain rfl := targetOf_eq_reg p off r hg
      rw [hg] at hm
      cases r with
      | ctrl => exact .inl ⟨rfl, hm⟩
      | thresh | ndist | lenIn => exact .inr (.inl (by decide))
      | status | lenOut | nblk | errInfo | caps => cases hm
    | ibuf i =>
      obtain ⟨hoff, hi⟩ := targetOf_eq_ibuf p off i hg h4
      exact .inr (.inr ⟨i, hi, hoff⟩)
    | reserved | blockStart k | blockLength k | obuf j =>
      rw [hg] at hm
      cases hm
  · rintro (⟨rfl, hv⟩ | hoff | ⟨i, hi, rfl⟩)
    · exact hv
    · simp only [List.mem_cons, List.not_mem_nil, or_false] at hoff
      obtain rfl | rfl | rfl := hoff <;> rfl
    · rw [← ibufOff, targetOf_ibufOff p i hp hi]
      rfl

/-- The one offset at which a write clears BSYERR, and the bit that does (10_state.md R27). -/
theorem clearsMisuse_targetOf_iff (p : Params) (off : Nat) (v : Word) :
    clearsMisuse v (targetOf p off) = true ↔ off = 0x4 ∧ v.getLsbD 2 = true := by
  constructor
  · intro hc
    cases hg : targetOf p off with
    | reg r =>
      obtain rfl := targetOf_eq_reg p off r hg
      rw [hg] at hc
      cases r with
      | status => exact ⟨rfl, hc⟩
      | ctrl | thresh | ndist | lenIn | lenOut | nblk | errInfo | caps => cases hc
    | reserved | blockStart k | blockLength k | ibuf i | obuf j =>
      rw [hg] at hc
      cases hc
  · rintro ⟨rfl, hv⟩
    exact hv

/-! ### What a step does to the parameters and to BSYERR -/

theorem windowOffset_eq_some (p : Params) (addr off : Nat) (h : windowOffset p addr = some off) :
    addr = p.base + off ∧ off < 0x100000 := by
  unfold windowOffset at h
  split at h
  · cases h
    omega
  · cases h

/-- A step whose turn is a 32-bit write at a window offset is that write. -/
theorem step_hostWrite (s : State) (off : Nat) (v : Word) (ts : List Turn)
    (h : s.schedule = .host ⟨s.params.base + off, 4, .write v⟩ :: ts) :
    step s = .next (State.hostWrite { s with schedule := ts } off v) := by
  simp only [step, h, takeTurn, State.hostWrite]

theorem step_reset (s : State) (ts : List Turn) (h : s.schedule = .reset :: ts) :
    step s = .next (State.resetInput { s with schedule := ts }) := by
  simp only [step, h, takeTurn]

/-- Everything a step can do, with its legal host write named by offset: any other host access changes
the answer and the draws only. -/
theorem step_next_cases (s t : State) (h : step s = .next t) :
    ∃ ts, sequencerTurn { s with schedule := ts } = .next t ∨
      (∃ r d, t = { s with schedule := ts, response := r, draws := d }) ∨
      (∃ off v, off < 0x100000 ∧ off % 4 = 0 ∧
        s.schedule = .host ⟨s.params.base + off, 4, .write v⟩ :: ts ∧
        t = State.hostWrite { s with schedule := ts } off v) ∨
      (s.schedule = .reset :: ts ∧ t = State.resetInput { s with schedule := ts }) := by
  rcases step_cases s with ⟨hs, he⟩ | ⟨ts, -, he⟩ | ⟨op, ts, hs, he⟩ | ⟨ts, hs, he⟩
  · exact ⟨[], .inl (by rw [← hs, ← h, he])⟩
  · exact ⟨ts, .inl (he.symm.trans h)⟩
  · rw [he] at h
    cases h
    refine ⟨ts, .inr ?_⟩
    rcases State.hostAccess_cases { s with schedule := ts } op with
      ⟨r, hr⟩ | hr | ⟨off, v, hw, h4, hsize, hacc, -⟩
    · exact .inl ⟨r, s.draws, hr⟩
    · exact .inl ⟨_, _, hr⟩
    · obtain ⟨haddr, hoff⟩ := windowOffset_eq_some _ _ _ hw
      obtain ⟨addr, size, access⟩ := op
      subst haddr hsize hacc
      exact .inr (.inl ⟨off, v, hoff, h4, hs, rfl⟩)
  · rw [he] at h
    cases h
    exact ⟨ts, .inr (.inr (.inr ⟨hs, rfl⟩))⟩

/-- No completion changes the parameters or BSYERR (60_exceptions.md R147). -/
theorem sequencerTurn_params_bsyErr (s t : State) (h : sequencerTurn s = .next t) :
    t.params = s.params ∧ t.bsyErr = s.bsyErr := by
  rcases sequencerTurn_cases s t h with ⟨-, rfl⟩ | ⟨-, ⟨c, rfl⟩ | ⟨e, info, rfl⟩⟩
  · exact ⟨rfl, rfl⟩
  · exact ⟨rfl, rfl⟩
  · exact ⟨rfl, rfl⟩

/-- The OPEN parameters are constant (00_scope.md R7 to R10). -/
theorem step_params (s t : State) (h : step s = .next t) : t.params = s.params := by
  obtain ⟨ts, hseq | ⟨r, d, rfl⟩ | ⟨off, v, hoff, h4, -, rfl⟩ | ⟨-, rfl⟩⟩ := step_next_cases s t h
  · exact (sequencerTurn_params_bsyErr _ t hseq).1
  · rfl
  · rw [State.hostWrite_eq _ off v hoff h4]
    exact State.writeTarget_params _ v _
  · rfl

/-- A step keeps BSYERR, or is a legal write or the reset (10_state.md R27). -/
theorem step_bsyErr_cases (s t : State) (h : step s = .next t) :
    t.bsyErr = s.bsyErr ∨
      (∃ off v ts, off % 4 = 0 ∧ s.schedule = .host ⟨s.params.base + off, 4, .write v⟩ :: ts ∧
        t.bsyErr = (s.bsyErr && !clearsMisuse v (targetOf s.params off) ||
          s.busy && isMisuse v (targetOf s.params off))) ∨
      ((∃ ts, s.schedule = .reset :: ts) ∧ t.bsyErr = false) := by
  obtain ⟨ts, hseq | ⟨r, d, rfl⟩ | ⟨off, v, hoff, h4, hs, rfl⟩ | ⟨hs, rfl⟩⟩ := step_next_cases s t h
  · exact .inl (sequencerTurn_params_bsyErr _ t hseq).2
  · exact .inl rfl
  · exact .inr (.inl ⟨off, v, ts, h4, hs, State.hostWrite_bsyErr _ off v hoff h4⟩)
  · exact .inr (.inr ⟨⟨ts, hs⟩, rfl⟩)

/-- Which steps set BSYERR (10_state.md R27, 60_exceptions.md R149). -/
theorem step_sets_bsyErr_iff (s t : State) (hp : s.params.wellFormed = true)
    (h : step s = .next t) (hy : s.bsyErr = false) :
    t.bsyErr = true ↔ s.busy = true ∧
      ∃ off v ts, s.schedule = .host ⟨s.params.base + off, 4, .write v⟩ :: ts ∧
        (off = 0x0 ∧ v.getLsbD 0 = true ∨ off ∈ [0x8, 0xC, 0x10] ∨
          ∃ i < bufDepth s.params, off = 0x80000 + 4 * i) := by
  constructor
  · intro ht
    rcases step_bsyErr_cases s t h with hk | ⟨off, v, ts, h4, hs, hw⟩ | ⟨-, hr⟩
    · rw [hk, hy] at ht
      cases ht
    · have hset : s.busy = true ∧ isMisuse v (targetOf s.params off) = true := by
        simpa [ht, hy] using hw
      exact ⟨hset.1, off, v, ts, hs, (isMisuse_targetOf_iff _ off v hp h4).1 hset.2⟩
    · rw [hr] at ht
      cases ht
  · rintro ⟨hb, off, v, ts, hs, hoff⟩
    have hin : off < 0x100000 ∧ off % 4 = 0 := by
      obtain ⟨_, _, _, hd, _⟩ := (Params.wellFormed_iff s.params).1 hp
      simp only [List.mem_cons, List.not_mem_nil, or_false, bufDepth] at hoff
      rcases hoff with ⟨rfl, -⟩ | hparam | ⟨i, hi, rfl⟩ <;> omega
    have hm := (isMisuse_targetOf_iff s.params off v hp hin.2).2 hoff
    rw [step_hostWrite s off v ts hs] at h
    cases h
    rw [State.hostWrite_bsyErr _ off v hin.1 hin.2]
    simp [hb, hm]

/-- Which steps clear BSYERR (10_state.md R27). -/
theorem step_clears_bsyErr_iff (s t : State) (h : step s = .next t) (hy : s.bsyErr = true) :
    t.bsyErr = false ↔
      (∃ v ts, s.schedule = .host ⟨s.params.base + 4, 4, .write v⟩ :: ts ∧ v.getLsbD 2 = true) ∨
        ∃ ts, s.schedule = .reset :: ts := by
  constructor
  · intro ht
    rcases step_bsyErr_cases s t h with hk | ⟨off, v, ts, -, hs, hw⟩ | ⟨hr, -⟩
    · rw [hk, hy] at ht
      cases ht
    · have hclr : clearsMisuse v (targetOf s.params off) = true := by
        cases hc : clearsMisuse v (targetOf s.params off) with
        | true => rfl
        | false => simp [ht, hy, hc] at hw
      obtain ⟨rfl, hv⟩ := (clearsMisuse_targetOf_iff _ off v).1 hclr
      exact .inl ⟨v, ts, hs, hv⟩
    · exact .inr hr
  · rintro (⟨v, ts, hs, hv⟩ | ⟨ts, hs⟩)
    · rw [step_hostWrite s 4 v ts hs] at h
      cases h
      rw [State.hostWrite_status]
      simp [hv]
    · rw [step_reset s ts hs] at h
      cases h
      rfl

/-! ### The statements -/

/-- Settles O17. -/
theorem readOnlyTargetsIgnoreWrites : Obligations.ReadOnlyTargetsIgnoreWrites := by
  intro s off v h4 hoff
  have hin : off < 0x100000 := by omega
  have hkeep : s.writeTarget v (targetOf s.params off) = s := by
    rcases hoff with ⟨hl, hu⟩ | ⟨hl, hu⟩ | ⟨hl, -⟩
    · exact s.writeTarget_readOnlyReg v off h4 hl hu
    · exact s.writeTarget_bbrfWindow v off hl hu
    · exact s.writeTarget_obufWindow v off hl
  rw [s.hostWrite_eq off v hin h4, hkeep]

/-- Settles O21: well-formed N_MAX and B_MAX fit in 16 bits, and the parameters are constant. -/
theorem capsIsConstant : Obligations.CapsIsConstant := by
  refine ⟨fun s hp => ?_, fun s t h => ?_⟩
  · obtain ⟨_, hn, _, hd, _⟩ := (Params.wellFormed_iff s.params).1 hp
    simp only [State.readReg]
    refine ⟨s.capsWord_low, ?_, ?_, s.hostRead_regOff .caps⟩
    · rw [s.capsWord_low, BitVec.toNat_ofNat, Nat.mod_eq_of_lt (by omega)]
    · rw [s.capsWord_high, BitVec.toNat_ofNat, Nat.mod_eq_of_lt (by omega)]
  · have hp := step_params s t h
    exact ⟨hp, by simp only [State.readReg, State.capsWord, hp]⟩

/-- Settles O22. -/
theorem reservedBitsAreInert : Obligations.ReservedBitsAreInert := by
  intro s r
  refine ⟨s.readReg_reserved r, s.hostRead_regOff r, fun v => ?_⟩
  rw [s.hostWrite_regOff, s.hostWrite_regOff, s.writeReg_and_writable]

/-- Settles O26. -/
theorem misuseFlagChangesOnlyAsTold : Obligations.MisuseFlagChangesOnlyAsTold :=
  ⟨fun s t hp h => ⟨step_sets_bsyErr_iff s t hp h, step_clears_bsyErr_iff s t h⟩,
    fun s => ⟨s.statusWord_bsyErr, s.resetInput_bsyErr⟩⟩

/-- Settles O12: one clause for each way a CTRL write is taken. -/
theorem commandIssueEffects : Obligations.CommandIssueEffects := by
  intro s v
  refine ⟨fun h hb => ?_, fun h hb => ?_, fun h => ?_, s.ctrlWord_start⟩
  · rw [s.hostWrite_ctrl, s.writeCtrl_issue v h hb]
    rfl
  · rw [s.hostWrite_ctrl, s.writeCtrl_drop v h hb]
    rfl
  · rw [s.hostWrite_ctrl, s.writeCtrl_store v h]
    rfl

/-- Settles O13. -/
theorem statusWriteClearsWrittenOnes : Obligations.StatusWriteClearsWrittenOnes := by
  intro s v
  refine ⟨?_, s.statusWord_bit3, s.statusWord_of_ge⟩
  rw [s.hostWrite_status, s.ackFlags_eq_ite]

/-- Settles O24. -/
theorem interruptIsEnableAndDone : Obligations.InterruptIsEnableAndDone := by
  intro s
  refine ⟨?_, fun v h => ?_, fun v h hb => ?_, fun v h => ?_, fun v h => ?_⟩
  · simp only [State.readReg, State.ctrlWord_ie, State.statusWord_done, State.irq]
  · simp [s.hostWrite_status, State.irq, h]
  · rw [s.hostWrite_ctrl, s.writeCtrl_issue v h hb]
    simp [State.irq]
  · simp [s.hostWrite_ctrl, State.irq, s.writeCtrl_ctrlIe, h, -BitVec.getLsbD_eq_getElem]
  · rw [s.hostWrite_ctrl, s.writeCtrl_store v h]

end Sys2Proof.Machine
end

section
/-! PROOFS. The storage windows of 20_memory.md: what a host access at the offset of an IBUF or OBUF slot
does, and the statement about slots. -/

namespace Sys2Proof.Machine

open Sys2Proof

/-! ### A slot's offset -/

/-- Both buffers lie in the window, at aligned offsets: 2 + 2 * B_MAX + N_MAX is at most 65535
(00_scope.md R8, 20_memory.md R62). -/
theorem slotOffs_legal (p : Params) (i : Nat) (hp : p.wellFormed = true) (hi : i < bufDepth p) :
    (ibufOff i < 0x100000 ∧ ibufOff i % 4 = 0) ∧ obufOff i < 0x100000 ∧ obufOff i % 4 = 0 := by
  obtain ⟨_, _, _, hd, _⟩ := (Params.wellFormed_iff p).1 hp
  simp only [bufDepth, ibufOff, obufOff] at *
  omega

/-! ### Host accesses to a slot -/

/-- A host read of an IBUF slot answers the slot, busy or idle (20_memory.md R66, R68). -/
theorem State.hostRead_ibufOff (s : State) (i : Nat) (hp : s.params.wellFormed = true)
    (hi : i < bufDepth s.params) : s.hostRead (ibufOff i) = s.answerSlot (ibufOff i) := by
  obtain ⟨⟨hlt, h4⟩, -⟩ := slotOffs_legal s.params i hp hi
  rw [s.hostRead_eq _ hlt h4, targetOf_ibufOff _ i hp hi]
  rfl

/-- A host read of an OBUF slot answers a result cell (20_memory.md R67, 10_state.md R52). -/
theorem State.hostRead_obufOff (s : State) (j : Nat) (hp : s.params.wellFormed = true)
    (hj : j < bufDepth s.params) : s.hostRead (obufOff j) = s.answerResult (obufOff j) := by
  obtain ⟨-, hlt, h4⟩ := slotOffs_legal s.params j hp hj
  rw [s.hostRead_eq _ hlt h4, targetOf_obufOff _ j hj]
  rfl

/-- A host write at an IBUF slot's offset is the write of the slot (20_memory.md R66). -/
theorem State.hostWrite_ibufOff (s : State) (i : Nat) (v : Word) (hp : s.params.wellFormed = true)
    (hi : i < bufDepth s.params) :
    s.hostWrite (ibufOff i) v = { s.writeIbuf i v with response := .okayWrite } := by
  obtain ⟨⟨hlt, h4⟩, -⟩ := slotOffs_legal s.params i hp hi
  rw [s.hostWrite_eq _ v hlt h4, targetOf_ibufOff _ i hp hi]
  rfl

/-- A written slot answers its word, zero-extended (20_memory.md R68). -/
theorem State.answerSlot_written (s : State) (off : Nat) (w : Half)
    (h : Memory.slot s.mem off = some w) : s.answerSlot off = s.answer (w.setWidth 32) := by
  simp only [State.answerSlot, h]

/-- While the block is idle, a result cell answers as any other slot (10_state.md R46, R52). -/
theorem State.answerResult_idle (s : State) (off : Nat) (hb : s.busy = false) :
    s.answerResult off = s.answerSlot off := by
  simp [State.answerResult, hb]

/-- An idle block takes a write to an IBUF slot: the slot's word becomes the low half
(20_memory.md R68). -/
theorem State.writeIbuf_idle (s : State) (i : Nat) (v : Word) (hb : s.busy = false) :
    s.writeIbuf i v = { s with mem := Memory.writeSlot s.mem (ibufOff i) (v.setWidth 16) } := by
  simp [State.writeIbuf, hb]

/-! ### The statement -/

/-- Settles O18: the memory after the write is the slot write of the low half. -/
theorem slotsHoldSixteenBits : Obligations.SlotsHoldSixteenBits := by
  intro s i hp hi
  refine ⟨fun w hw => ?_, fun w hb hw => ?_, fun v hb => ?_⟩
  · calc s.hostRead (ibufOff i)
      _ = s.answerSlot (ibufOff i) := s.hostRead_ibufOff i hp hi
      _ = s.answer (w.setWidth 32) := s.answerSlot_written _ w hw
  · calc s.hostRead (obufOff i)
      _ = s.answerResult (obufOff i) := s.hostRead_obufOff i hp hi
      _ = s.answerSlot (obufOff i) := s.answerResult_idle _ hb
      _ = s.answer (w.setWidth 32) := s.answerSlot_written _ w hw
  · have low : v.extractLsb' 0 16 = v.setWidth 16 :=
      (BitVec.setWidth_eq_extractLsb' (by decide)).symm
    refine ⟨Memory.writeSlot s.mem (ibufOff i) (v.setWidth 16), ?_, ?_, fun a ha => ?_⟩
    · rw [← ibufOff, s.hostWrite_ibufOff i v hp hi, s.writeIbuf_idle i v hb]
    · rw [low, Memory.slot_writeSlot_same]
    · obtain ⟨h0, h1⟩ := not_or.1 ha
      exact Memory.read_writeSlot_other s.mem (ibufOff i) a _ h0 h1

end Sys2Proof.Machine
end

section
/-! PROOFS. The command words of 30_encoding.md: which words issue which command, and what their reserved
bits do not change. -/

namespace Sys2Proof.Machine

open Sys2Proof

/-! ### The fields a match compares -/

/-- What the mask of the match test keeps (30_encoding.md R91): CMD in place, and START. -/
theorem and_matchMask_eq_fields (v : Word) :
    v &&& 0xF1#32 =
      ((v.extractLsb' 4 4).setWidth 32 <<< 4) ||| (BitVec.ofBool (v.getLsbD 0)).setWidth 32 := by
  have mask : ∀ j < 32, (0xF1#32).getLsbD j = (decide (j = 0) || decide (4 ≤ j ∧ j < 8)) := by
    decide
  apply BitVec.eq_of_getLsbD_eq
  intro j hj
  rw [BitVec.getLsbD_and, mask j hj]
  obtain rfl | hlow | hcmd | hhigh : j = 0 ∨ (0 < j ∧ j < 4) ∨ (4 ≤ j ∧ j < 8) ∨ 8 ≤ j := by omega
  · simp
  · simp [hlow, hj, show j ≠ 0 by omega, show ¬ 4 ≤ j by omega]
  · simp [hcmd, hj, show j ≠ 0 by omega, show j - 4 < 4 by omega, show 4 + (j - 4) = j by omega]
  · simp [hj, show j ≠ 0 by omega, show ¬ j < 8 by omega, show ¬ j - 4 < 4 by omega]

/-- A word matches a command exactly when START = 1 and CMD is the command's code (30_encoding.md R86,
R91). -/
theorem and_matchMask_eq_matchWord_iff (v : Word) (i : Instr) :
    v &&& 0xF1#32 = matchWord i ↔ v.getLsbD 0 = true ∧ v.extractLsb' 4 4 = commandCode i := by
  have fields : ∀ (c : BitVec 4) (b : Bool),
      (c.setWidth 32 <<< 4) ||| (BitVec.ofBool b).setWidth 32 = matchWord i ↔
        b = true ∧ c = commandCode i := by
    cases i <;> decide
  rw [and_matchMask_eq_fields, fields]

/-! ### The latched code -/

/-- The code of a command, and no other, selects it (30_encoding.md R86). -/
theorem decodeCommand_eq_ok_iff (c : BitVec 4) (i : Instr) :
    decodeCommand c = .ok i ↔ c = commandCode i := by
  revert c
  cases i <;> decide

/-- A code of no command is reserved (30_encoding.md R87). -/
theorem decodeCommand_reserved (c : BitVec 4) (h : ∀ i, c ≠ commandCode i) :
    decodeCommand c = .error (.reservedCommand c) := by
  calc decodeCommand c
    _ = if c = commandCode .suppressNN then .ok .suppressNN
        else if c = commandCode .unsuppress then .ok .unsuppress
        else .error (.reservedCommand c) := if_neg (h .suppress)
    _ = if c = commandCode .unsuppress then .ok .unsuppress
        else .error (.reservedCommand c) := if_neg (h .suppressNN)
    _ = .error (.reservedCommand c) := if_neg (h .unsuppress)

/-! ### A CTRL write on an idle block -/

/-- On an idle block a CTRL write issues exactly when START = 1 (10_state.md R21). -/
theorem State.hostWrite_ctrl_busy (s : State) (v : Word) (hb : s.busy = false) :
    (s.hostWrite 0x0 v).busy = v.getLsbD 0 := by
  cases hv : v.getLsbD 0 with
  | false => rw [s.hostWrite_ctrl, s.writeCtrl_store v hv]; exact hb
  | true => rw [s.hostWrite_ctrl, s.writeCtrl_issue v hv hb]

/-- A command issue latches CMD (10_state.md R21, R55). -/
theorem State.hostWrite_ctrl_fetch (s : State) (v : Word) (hb : s.busy = false)
    (hv : v.getLsbD 0 = true) : (s.hostWrite 0x0 v).fetch = decodeCommand (v.extractLsb' 4 4) := by
  rw [s.hostWrite_ctrl, s.writeCtrl_issue v hv hb]
  rfl

/-- On an idle block a CTRL write issues the command that the masked word matches (30_encoding.md R91). -/
theorem State.hostWrite_ctrl_issues_iff (s : State) (v : Word) (i : Instr) (hb : s.busy = false) :
    ((s.hostWrite 0x0 v).busy = true ∧ (s.hostWrite 0x0 v).fetch = .ok i) ↔
      v &&& 0xF1#32 = matchWord i := by
  rw [and_matchMask_eq_matchWord_iff, s.hostWrite_ctrl_busy v hb]
  refine and_congr_right fun hv => ?_
  rw [s.hostWrite_ctrl_fetch v hb hv, decodeCommand_eq_ok_iff]

/-- On an idle block a CTRL write with START = 1 that matches no command issues a reserved code
(30_encoding.md R87, R91). -/
theorem State.hostWrite_ctrl_reserved (s : State) (v : Word) (hb : s.busy = false)
    (hv : v.getLsbD 0 = true) (hne : ∀ i, v &&& 0xF1#32 ≠ matchWord i) :
    (s.hostWrite 0x0 v).fetch = .error (.reservedCommand (v.extractLsb' 4 4)) := by
  rw [s.hostWrite_ctrl_fetch v hb hv]
  exact decodeCommand_reserved _ fun i hc =>
    hne i ((and_matchMask_eq_matchWord_iff v i).2 ⟨hv, hc⟩)

/-! ### The statements -/

/-- Settles O1: the mask keeps exactly START and CMD, and CMD is what the issue latches. -/
theorem maskedWordIssuesCommand : Obligations.MaskedWordIssuesCommand := by
  refine ⟨fun s v hb => ⟨fun i => s.hostWrite_ctrl_issues_iff v i hb, fun hv hne => ?_, fun hv => ?_⟩,
    by decide⟩
  · exact ⟨(s.hostWrite_ctrl_busy v hb).trans hv, s.hostWrite_ctrl_reserved v hb hv hne⟩
  · exact (s.hostWrite_ctrl_busy v hb).trans hv

/-- Settles O3: the decoder and the CTRL write see a word through its fields only. -/
theorem reservedCommandBitsAreIgnored : Obligations.ReservedCommandBitsAreIgnored := by
  intro s v
  refine ⟨by simp only [decode, commandWord_and_writable], ?_⟩
  calc s.hostWrite 0x0 v
    _ = { s.writeReg .ctrl v with response := .okayWrite } := s.hostWrite_regOff .ctrl v
    _ = { s.writeReg .ctrl (v &&& 0x1F1#32) with response := .okayWrite } := by
      rw [← s.writeReg_and_writable .ctrl v, writableBits]
    _ = s.hostWrite 0x0 (v &&& 0x1F1#32) := (s.hostWrite_regOff .ctrl (v &&& 0x1F1#32)).symm

end Sys2Proof.Machine
end

section
/-! PROOFS. The zero-suppressed encoding of 30_encoding.md (R92 to R98): the blocks the scans of the suppress
commands keep, the words of the stream EMIT makes of a block list, and the state that holds them. -/

namespace Sys2Proof.Machine

open Sys2Proof

/-! ### Block lists -/

/-- The blocks lie in `lo` to `n - 1`, ascend without overlap, none is empty, and their starts are at least
two samples apart. This is `blockListValid` (`spacedBlocks.blockListValid`) with what bounds the number of
blocks by half the waveform (40_suppress.md R111, R121). -/
def spacedBlocks (lo n : Nat) (bs : List Block) : Prop :=
  bs.Pairwise (fun b c => b.start + b.len ≤ c.start ∧ b.start + 2 ≤ c.start) ∧
    ∀ b ∈ bs, lo ≤ b.start ∧ 1 ≤ b.len ∧ b.start + b.len ≤ n

/-- The blocks lie below `n`, ascend with at least one sample between neighbours, and none is empty
(40_suppress.md R120, R121). -/
def separatedBlocks (n : Nat) (bs : List Block) : Prop :=
  bs.Pairwise (fun b c => b.start + b.len < c.start) ∧ ∀ b ∈ bs, 1 ≤ b.len ∧ b.start + b.len ≤ n

theorem spacedBlocks_nil (lo n : Nat) : spacedBlocks lo n [] := by
  simp [spacedBlocks]

theorem spacedBlocks_cons (lo n : Nat) (b : Block) (bs : List Block) (hlo : lo ≤ b.start)
    (hlen : 1 ≤ b.len) (hend : b.start + b.len ≤ n)
    (h : spacedBlocks (max (b.start + b.len) (b.start + 2)) n bs) : spacedBlocks lo n (b :: bs) := by
  obtain ⟨hpair, hmem⟩ := h
  refine ⟨List.pairwise_cons.2 ⟨fun c hc => ?_, hpair⟩, fun c hc => ?_⟩
  · have := (hmem c hc).1
    omega
  · rcases List.mem_cons.1 hc with rfl | hc
    · exact ⟨hlo, hlen, hend⟩
    · obtain ⟨hs, hl, he⟩ := hmem c hc
      exact ⟨by omega, hl, he⟩

/-- Taking a spaced list apart: the rest starts at the first block's end and two samples after its start. -/
theorem spacedBlocks.of_cons {lo n : Nat} {b : Block} {bs : List Block}
    (h : spacedBlocks lo n (b :: bs)) :
    (lo ≤ b.start ∧ 1 ≤ b.len ∧ b.start + b.len ≤ n) ∧
      spacedBlocks (max (b.start + b.len) (b.start + 2)) n bs := by
  obtain ⟨hpair, hmem⟩ := h
  obtain ⟨hb, hpair⟩ := List.pairwise_cons.1 hpair
  refine ⟨hmem b (by simp), hpair, fun c hc => ?_⟩
  obtain ⟨he, hs⟩ := hb c hc
  obtain ⟨-, hc'⟩ := hmem c (by simp [hc])
  exact ⟨by omega, hc'⟩

theorem spacedBlocks.mono {lo lo' n : Nat} {bs : List Block} (h : spacedBlocks lo n bs)
    (hlo : lo' ≤ lo) : spacedBlocks lo' n bs :=
  ⟨h.1, fun b hb => ⟨hlo.trans (h.2 b hb).1, (h.2 b hb).2⟩⟩

/-- Spaced blocks meet the invariants of a block list (30_encoding.md R99). -/
theorem spacedBlocks.blockListValid {lo n : Nat} {bs : List Block} (h : spacedBlocks lo n bs) :
    blockListValid n bs :=
  ⟨h.1.imp fun hbc => hbc.1, fun b hb => (h.2 b hb).2⟩

theorem spacedBlocks.end_le {lo n : Nat} {bs : List Block} (h : spacedBlocks lo n bs) :
    ∀ b ∈ bs, b.start + b.len ≤ n :=
  fun b hb => (h.blockListValid.2 b hb).2

theorem separatedBlocks.spacedBlocks {n : Nat} {bs : List Block} (h : separatedBlocks n bs) :
    spacedBlocks 0 n bs := by
  obtain ⟨hpair, hmem⟩ := h
  refine ⟨hpair.imp_of_mem fun hb _ hlt => ?_, fun b hb => ⟨Nat.zero_le _, hmem b hb⟩⟩
  have := (hmem _ hb).1
  omega

/-- There are at most half as many blocks as samples, rounded up (40_suppress.md R111, R121). -/
theorem spacedBlocks.two_mul_length_le {lo n : Nat} {bs : List Block} (h : spacedBlocks lo n bs) :
    2 * bs.length ≤ n - lo + 1 := by
  induction bs generalizing lo with
  | nil => simp
  | cons b bs ih =>
    obtain ⟨hb, htail⟩ := h.of_cons
    have := ih htail
    rw [List.length_cons]
    omega

/-- The blocks hold at most as many samples as the waveform has (40_suppress.md R111, R121). -/
theorem spacedBlocks.totalLength_le {lo n : Nat} {bs : List Block} (h : spacedBlocks lo n bs) :
    totalLength bs ≤ n - lo := by
  induction bs generalizing lo with
  | nil => simp [totalLength]
  | cons b bs ih =>
    obtain ⟨hb, htail⟩ := h.of_cons
    have := ih htail
    rw [totalLength, List.map_cons, List.sum_cons, ← totalLength]
    omega

/-! ### The scan of SUPPRESS -/

theorem add_length_cons (i : Nat) (x : Half) (xs : List Half) :
    i + (x :: xs).length = i + 1 + xs.length := by
  rw [List.length_cons]
  omega

/-- The scan of SUPPRESS from index `i` on, with no block open, answers spaced blocks from `i` on; with
block `b` open, which ends at `i`, spaced blocks from `b`'s start on. Only the last block can be without a
closing sample, so starts are at least two apart (40_suppress.md R108, R109). -/
theorem suppressScan_spacedBlocks (thresh : Half) (i : Nat) (cur : Option Block) (xs : List Half)
    (hcur : ∀ b ∈ cur, 1 ≤ b.len ∧ b.start + b.len = i) :
    spacedBlocks (cur.elim i Block.start) (i + xs.length) (suppressScan thresh i cur xs) := by
  induction xs generalizing i cur with
  | nil =>
    cases cur with
    | none => exact spacedBlocks_nil _ _
    | some b =>
      obtain ⟨hlen, hend⟩ := hcur b rfl
      exact spacedBlocks_cons _ _ b [] (Nat.le_refl _) hlen (by simp [hend]) (spacedBlocks_nil _ _)
  | cons x xs ih =>
    rw [add_length_cons]
    cases cur with
    | none =>
      cases hx : active thresh x with
      | true =>
        rw [suppressScan, if_pos hx]
        exact ih (i + 1) (some ⟨i, 1⟩) (by simp)
      | false =>
        rw [suppressScan, if_neg (by simp [hx])]
        exact (ih (i + 1) none (by simp)).mono (Nat.le_succ i)
    | some b =>
      obtain ⟨hlen, hend⟩ := hcur b rfl
      cases hx : active thresh x with
      | true =>
        rw [suppressScan, if_pos hx]
        exact ih (i + 1) (some ⟨b.start, b.len + 1⟩) (by simp; omega)
      | false =>
        rw [suppressScan, if_neg (by simp [hx])]
        refine spacedBlocks_cons _ _ _ _ (Nat.le_refl _) (by simp) (by simp; omega) ?_
        exact (ih (i + 1) none (by simp)).mono (by simp; omega)

/-! ### The scan of SUPPRESS_NN -/

theorem separatedBlocks_nil (n : Nat) : separatedBlocks n [] := by
  simp [separatedBlocks]

theorem separatedBlocks.mono {n n' : Nat} {bs : List Block} (h : separatedBlocks n bs)
    (hn : n ≤ n') : separatedBlocks n' bs :=
  ⟨h.1, fun b hb => ⟨(h.2 b hb).1, (h.2 b hb).2.trans hn⟩⟩

/-- The latest block of a separated list: it is in range and lies after all the others. -/
theorem separatedBlocks_reverse_cons_iff (n : Nat) (b : Block) (closed : List Block) :
    separatedBlocks n (b :: closed).reverse ↔
      (1 ≤ b.len ∧ b.start + b.len ≤ n) ∧ (∀ p ∈ closed, p.start + p.len < b.start) ∧
        separatedBlocks n closed.reverse := by
  simp only [separatedBlocks, List.pairwise_reverse, List.pairwise_cons, List.mem_reverse,
    List.forall_mem_cons]
  tauto

/-- What a SUPPRESS_NN scan has found when it comes to sample `i`: the closed blocks, the latest first, and
the open block, which ends at `i`. -/
def nnScanFound (i : Nat) (closed : List Block) : Option (Block × Nat) → Prop
  | none => separatedBlocks i closed.reverse
  | some (b, _) => b.start + b.len = i ∧ separatedBlocks i (b :: closed).reverse

/-- Sample `i` joins the open block, or re-opens the latest closed one (40_suppress.md R113, R116). -/
theorem nnScanFound_regrow (i len cnt : Nat) (b : Block) (closed : List Block)
    (h : separatedBlocks i (b :: closed).reverse) (hend : b.start + len = i + 1) :
    nnScanFound (i + 1) closed (some (⟨b.start, len⟩, cnt)) := by
  obtain ⟨hb, hafter, hclosed⟩ := (separatedBlocks_reverse_cons_iff i b closed).1 h
  refine ⟨hend, (separatedBlocks_reverse_cons_iff _ _ _).2 ⟨⟨?_, hend.le⟩, hafter, ?_⟩⟩
  · show 1 ≤ len
    omega
  · exact hclosed.mono (Nat.le_succ i)

/-- Active sample `i` opens a block whose padded start lies after every closed block (40_suppress.md R114,
R116). -/
theorem nnScanFound_openBlock (d i : Nat) (closed : List Block) (h : separatedBlocks i closed.reverse)
    (hafter : ∀ p ∈ closed, p.start + p.len < i - d) :
    nnScanFound (i + 1) closed (some (openBlock d i, 0)) := by
  have hend : (openBlock d i).start + (openBlock d i).len = i + 1 := by
    simp only [openBlock]
    omega
  exact ⟨hend, (separatedBlocks_reverse_cons_iff _ _ _).2
    ⟨⟨Nat.le_add_left _ _, hend.le⟩, hafter, h.mono (Nat.le_succ i)⟩⟩

/-- Where the latest closed block is not re-opened, every closed block ends before the padded start
(40_suppress.md R116). -/
theorem before_start_of_not_merges (d i : Nat) (p : Block) (ps : List Block)
    (h : separatedBlocks i (p :: ps).reverse) (hm : ¬ merges d i p = true) :
    ∀ q ∈ p :: ps, q.start + q.len < i - d := by
  have hp : p.start + p.len < i - d := by
    simp only [merges, decide_eq_true_eq] at hm
    omega
  obtain ⟨-, hafter, -⟩ := (separatedBlocks_reverse_cons_iff i p ps).1 h
  intro q hq
  rcases List.mem_cons.1 hq with rfl | hq
  · exact hp
  · have := hafter q hq
    omega

/-- A sub-threshold sample outside every block changes nothing (40_suppress.md R113). -/
theorem suppressNNScan_skip (thresh : Half) (d i : Nat) (closed : List Block) (x : Half)
    (xs : List Half) (hx : ¬ active thresh x = true) :
    suppressNNScan thresh d i closed none (x :: xs) =
      suppressNNScan thresh d (i + 1) closed none xs := by
  cases closed with
  | nil => rw [suppressNNScan, if_neg hx]
  | cons p ps => rw [suppressNNScan, if_neg hx]

/-- The scan of SUPPRESS_NN from sample `i` on keeps its blocks separated (40_suppress.md R113, R120). -/
theorem suppressNNScan_separatedBlocks (thresh : Half) (d i : Nat) (closed : List Block)
    (cur : Option (Block × Nat)) (xs : List Half) (h : nnScanFound i closed cur) :
    separatedBlocks (i + xs.length) (suppressNNScan thresh d i closed cur xs) := by
  induction i, closed, cur, xs using suppressNNScan.induct thresh d with
  | case1 i closed => exact h
  | case2 i closed b cnt => exact h.2
  | case3 i x xs hx ih =>
    rw [suppressNNScan, if_pos hx, add_length_cons]
    exact ih (nnScanFound_openBlock d i [] h (by simp))
  | case4 i x xs hx p ps hm ih =>
    rw [suppressNNScan, if_pos hx, if_pos hm, add_length_cons]
    obtain ⟨⟨hp, hpi⟩, -⟩ := (separatedBlocks_reverse_cons_iff i p ps).1 h
    exact ih (nnScanFound_regrow i _ 0 p ps h (by omega))
  | case5 i x xs hx p ps hm ih =>
    rw [suppressNNScan, if_pos hx, if_neg hm, add_length_cons]
    exact ih (nnScanFound_openBlock d i _ h (before_start_of_not_merges d i p ps h hm))
  | case6 i closed x xs hx ih =>
    rw [suppressNNScan_skip thresh d i closed x xs hx, add_length_cons]
    exact ih (h.mono (Nat.le_succ i))
  | case7 i closed b cnt x xs hx ih =>
    rw [suppressNNScan, if_pos hx, add_length_cons]
    exact ih (nnScanFound_regrow i _ 0 b closed h.2 (by rw [← h.1, Nat.add_assoc]))
  | case8 i closed b cnt x xs hx hc ih =>
    rw [suppressNNScan, if_neg hx, if_pos hc, add_length_cons]
    exact ih (nnScanFound_regrow i _ _ b closed h.2 (by rw [← h.1, Nat.add_assoc]))
  | case9 i closed b cnt x xs hx hc hl ih =>
    rw [suppressNNScan, if_neg hx, if_neg hc, if_pos hl, add_length_cons]
    exact ih (h.2.mono (Nat.le_succ i))
  | case10 i closed b cnt x xs hx hc hl ih =>
    rw [suppressNNScan, if_neg hx, if_neg hc, if_neg hl, add_length_cons]
    exact ih (nnScanFound_regrow i _ cnt b closed h.2 (by rw [← h.1, Nat.add_assoc]))

/-! ### The words EMIT writes -/

theorem emit_out_zero (xs : List Half) (bs : List Block) :
    (emit xs bs).out[0]? = some (store16 xs.length) := rfl

theorem emit_out_one (xs : List Half) (bs : List Block) :
    (emit xs bs).out[1]? = some (store16 bs.length) := rfl

/-- The stream past its two header words: the starts, the lengths, the samples (30_encoding.md R97). -/
theorem emit_out_add_two (xs : List Half) (bs : List Block) (j : Nat) :
    (emit xs bs).out[2 + j]? = (bs.map (fun b => store16 b.start) ++
      (bs.map (fun b => store16 b.len) ++ blockSamples xs bs))[j]? := by
  rw [Nat.add_comm, ← List.append_assoc]
  rfl

/-- The start of block `k` is word 2 + k (30_encoding.md R95). -/
theorem emit_out_start (xs : List Half) (bs : List Block) (k : Nat) (b : Block)
    (h : bs[k]? = some b) : (emit xs bs).out[2 + k]? = some (store16 b.start) := by
  obtain ⟨hk, -⟩ := List.getElem?_eq_some_iff.1 h
  rw [emit_out_add_two, List.getElem?_append_left (by simpa using hk), List.getElem?_map, h]
  rfl

/-- The length of block `k` is word 2 + B + k (30_encoding.md R96). -/
theorem emit_out_length (xs : List Half) (bs : List Block) (k : Nat) (b : Block)
    (h : bs[k]? = some b) : (emit xs bs).out[2 + bs.length + k]? = some (store16 b.len) := by
  obtain ⟨hk, -⟩ := List.getElem?_eq_some_iff.1 h
  rw [Nat.add_assoc, emit_out_add_two, List.getElem?_append_right (by simp), List.length_map,
    Nat.add_sub_cancel_left, List.getElem?_append_left (by simpa using hk), List.getElem?_map, h]
  rfl

/-- The samples are the words from 2 + 2B on (30_encoding.md R97). -/
theorem emit_out_samples (xs : List Half) (bs : List Block) (j : Nat) :
    (emit xs bs).out[2 + 2 * bs.length + j]? = (blockSamples xs bs)[j]? := by
  rw [show 2 + 2 * bs.length + j = 2 + (bs.length + (bs.length + j)) by omega, emit_out_add_two,
    List.getElem?_append_right (by simp), List.length_map, Nat.add_sub_cancel_left,
    List.getElem?_append_right (by simp), List.length_map, Nat.add_sub_cancel_left]

theorem samplesBefore_length (bs : List Block) : samplesBefore bs bs.length = totalLength bs := by
  rw [samplesBefore, List.take_length, totalLength]

/-- A block inside the waveform has as many samples as it is long. -/
theorem length_take_drop_of_le (xs : List Half) (b : Block) (h : b.start + b.len ≤ xs.length) :
    ((xs.drop b.start).take b.len).length = b.len := by
  rw [List.length_take, List.length_drop]
  omega

theorem length_blockSamples (xs : List Half) (bs : List Block)
    (h : ∀ b ∈ bs, b.start + b.len ≤ xs.length) :
    (blockSamples xs bs).length = totalLength bs := by
  induction bs with
  | nil => rfl
  | cons b bs ih =>
    obtain ⟨hb, hbs⟩ := List.forall_mem_cons.1 h
    rw [blockSamples, List.flatMap_cons, List.length_append, length_take_drop_of_le xs b hb,
      ← blockSamples, ih hbs, totalLength, totalLength, List.map_cons, List.sum_cons]

/-- Sample `m` of block `k` stands after the samples of the blocks before it, copied raw
(30_encoding.md R97, R98). -/
theorem blockSamples_getElem? (xs : List Half) (bs : List Block)
    (h : ∀ b ∈ bs, b.start + b.len ≤ xs.length) (k m : Nat) (b : Block) (hk : bs[k]? = some b)
    (hm : m < b.len) : (blockSamples xs bs)[samplesBefore bs k + m]? = xs[b.start + m]? := by
  induction bs generalizing k with
  | nil => simp at hk
  | cons c bs ih =>
    obtain ⟨hc, hbs⟩ := List.forall_mem_cons.1 h
    have hlen := length_take_drop_of_le xs c hc
    rw [blockSamples, List.flatMap_cons, ← blockSamples]
    cases k with
    | zero =>
      obtain rfl : c = b := by simpa using hk
      rw [samplesBefore, List.take_zero, List.map_nil, List.sum_nil, Nat.zero_add,
        List.getElem?_append_left (by omega), List.getElem?_take_of_lt hm, List.getElem?_drop]
    | succ k =>
      rw [samplesBefore, List.take_succ_cons, List.map_cons, List.sum_cons, ← samplesBefore,
        Nat.add_assoc, List.getElem?_append_right (by omega), hlen, Nat.add_sub_cancel_left]
      exact ih hbs k (by simpa using hk)

/-- The length of the stream (30_encoding.md R97). -/
theorem length_emit_out (xs : List Half) (bs : List Block)
    (h : ∀ b ∈ bs, b.start + b.len ≤ xs.length) :
    (emit xs bs).out.length = 2 + 2 * bs.length + totalLength bs := by
  simp only [emit, List.length_cons, List.length_append, List.length_map, length_blockSamples xs bs h]
  omega

/-! ### The state that holds a result -/

theorem store16_toNat (v : Nat) (h : v < 65536) : (store16 v).toNat = v := by
  rw [store16, BitVec.toNat_ofNat, Nat.mod_eq_of_lt h]

/-- A successful completion leaves the result's words in OBUF (10_state.md R51). -/
theorem State.succeed_obufWord (s : State) (r : CommandResult) (j : Nat) (w : Half)
    (h : r.out[j]? = some w) : (s.succeed r).obufWord j = some w := by
  obtain ⟨hj, -⟩ := List.getElem?_eq_some_iff.1 h
  rw [State.obufWord, State.succeed_mem, show obufOff j = obufOff 0 + 4 * j by simp [obufOff],
    Memory.slot_writeSlots _ _ _ _ hj, h]

/-- A successful completion leaves the result's blocks in the BBRF (10_state.md R44), which ends below
OBUF. -/
theorem State.succeed_block (s : State) (r : CommandResult) (k : Nat) (b : Block)
    (h : r.blocks[k]? = some b) (hk : k < 0x10000) (hs : b.start < 65536) (hl : b.len < 65536) :
    (s.succeed r).block k = some b := by
  obtain ⟨hstart, hlen⟩ := Memory.slot_writeBlocks s.mem 0 k r.blocks b h
  rw [Nat.zero_add] at hstart hlen
  have below : bsOff k + 1 < obufOff 0 ∧ blOff k + 1 < obufOff 0 := by
    simp only [bsOff, blOff, obufOff]
    omega
  rw [State.block, State.succeed_mem, Memory.slot_writeSlots_below _ _ _ _ below.1, hstart,
    Memory.slot_writeSlots_below _ _ _ _ below.2, hlen]
  simp only [store16_toNat _ hs, store16_toNat _ hl]

/-! ### A suppress command on a written waveform -/

theorem State.ibufWords_of_holdsWaveform (s : State) (xs : List Half) (h : s.holdsWaveform xs) :
    s.ibufWords 0 s.lenIn.toNat = .ok xs := by
  obtain ⟨-, hlen, -, hibuf⟩ := h
  refine (s.ibufWords_eq_ok _ _ _).2 ⟨hlen.symm, fun j hj => ?_⟩
  rw [Nat.zero_add]
  exact hibuf j (hlen ▸ hj)

theorem State.suppressPrologue_of_holdsWaveform (s : State) (xs : List Half)
    (h : s.holdsWaveform xs) : s.suppressPrologue = .ok s.lenIn.toNat := by
  obtain ⟨-, hlen, hmax, -⟩ := h
  rcases s.suppressPrologue_cases with ⟨-, hok⟩ | ⟨hlt, -⟩
  · exact hok
  · omega

/-- SUPPRESS of a written waveform of legal length (40_suppress.md R108). -/
theorem exec_suppress_of_holdsWaveform (s : State) (xs : List Half) (h : s.holdsWaveform xs) :
    exec .suppress s = .next (s.succeed (emit xs (suppressScan s.thresh 0 none xs))) := by
  rw [exec_eq_finish]
  simp only [State.suppressResult, s.suppressPrologue_of_holdsWaveform xs h,
    s.ibufWords_of_holdsWaveform xs h, State.finish]

/-- SUPPRESS_NN of a written waveform of legal length with D >= 0 (40_suppress.md R113). -/
theorem exec_suppressNN_of_holdsWaveform (s : State) (xs : List Half) (h : s.holdsWaveform xs)
    (hd : 0 ≤ s.ndist.toInt) :
    exec .suppressNN s =
      .next (s.succeed (emit xs (suppressNNScan s.thresh s.distance 0 [] none xs))) := by
  rw [exec_eq_finish]
  simp only [State.suppressNNResult, s.suppressPrologue_of_holdsWaveform xs h,
    s.ibufWords_of_holdsWaveform xs h, State.finish, sext16, if_neg (Int.not_lt.2 hd),
    State.distance]

/-- A suppress command on a written waveform of legal length completes with the encoding of spaced blocks
(40_suppress.md R107, R111, R121). -/
theorem exec_emits_spacedBlocks (i : Instr) (s : State) (xs : List Half) (hi : i ≠ .unsuppress)
    (h : s.holdsWaveform xs) (hd : i = .suppressNN → 0 ≤ s.ndist.toInt) :
    ∃ bs, exec i s = .next (s.succeed (emit xs bs)) ∧ spacedBlocks 0 xs.length bs := by
  cases i with
  | suppress =>
    have hscan := suppressScan_spacedBlocks s.thresh 0 none xs (by simp)
    rw [Nat.zero_add] at hscan
    exact ⟨_, exec_suppress_of_holdsWaveform s xs h, hscan⟩
  | suppressNN =>
    have hscan := suppressNNScan_separatedBlocks s.thresh s.distance 0 [] none xs
      (separatedBlocks_nil 0)
    rw [Nat.zero_add] at hscan
    exact ⟨_, exec_suppressNN_of_holdsWaveform s xs h (hd rfl), hscan.spacedBlocks⟩
  | unsuppress => exact absurd rfl hi

/-- The encoding of spaced blocks fits OBUF (00_scope.md R8, R9). -/
theorem emit_fits_bufDepth (p : Params) (xs : List Half) (bs : List Block) (hp : p.wellFormed = true)
    (hx : xs.length ≤ p.nMax) (hbs : spacedBlocks 0 xs.length bs) :
    bs.length ≤ p.bMax ∧ 2 + 2 * bs.length + totalLength bs ≤ bufDepth p := by
  obtain ⟨-, -, hb, -, -⟩ := (Params.wellFormed_iff p).1 hp
  have hcount := hbs.two_mul_length_le
  have htotal := hbs.totalLength_le
  rw [bufDepth]
  omega

/-- A completion with the encoding of blocks that fit 16 bits records those blocks (10_state.md R35,
R44). -/
theorem State.succeed_emit_recordsBlocks (s : State) (xs : List Half) (bs : List Block)
    (hx : xs.length < 65536) (hbs : spacedBlocks 0 xs.length bs) :
    (s.succeed (emit xs bs)).recordsBlocks bs := by
  have hcount := hbs.two_mul_length_le
  refine ⟨store16_toNat _ (by simp only [emit]; omega), fun k hk => ?_⟩
  obtain ⟨-, hlen, hend⟩ := hbs.2 bs[k] (List.getElem_mem hk)
  rw [List.getElem?_eq_getElem hk]
  exact s.succeed_block _ k _ (List.getElem?_eq_getElem hk) (by omega) (by omega) (by omega)

/-- The header words of block `k` read as its start and its length (30_encoding.md R95, R96). -/
theorem State.succeed_emit_header (s : State) (xs : List Half) (bs : List Block) (k : Nat) (b : Block)
    (hk : bs[k]? = some b) (hb : b.start + b.len < 65536) :
    ((s.succeed (emit xs bs)).obufWord (2 + k)).map BitVec.toNat = some b.start ∧
      ((s.succeed (emit xs bs)).obufWord (2 + bs.length + k)).map BitVec.toNat = some b.len := by
  rw [s.succeed_obufWord _ _ _ (emit_out_start xs bs k b hk),
    s.succeed_obufWord _ _ _ (emit_out_length xs bs k b hk), Option.map_some, Option.map_some,
    store16_toNat _ (by omega), store16_toNat _ (by omega)]
  exact ⟨rfl, rfl⟩

/-- Sample `m` of block `k` stands raw in its place of the stream (30_encoding.md R97, R98). -/
theorem State.succeed_emit_sample (s : State) (xs : List Half) (bs : List Block)
    (h : ∀ b ∈ bs, b.start + b.len ≤ xs.length) (k m : Nat) (b : Block) (hk : bs[k]? = some b)
    (hm : m < b.len) :
    (s.succeed (emit xs bs)).obufWord (2 + 2 * bs.length + samplesBefore bs k + m) =
        xs[b.start + m]? ∧ (xs[b.start + m]?).isSome = true := by
  have hb := h b (List.mem_of_getElem? hk)
  have hsample : xs[b.start + m]? = some xs[b.start + m] := List.getElem?_eq_getElem (by omega)
  rw [hsample]
  refine ⟨s.succeed_obufWord _ _ _ ?_, rfl⟩
  rw [Nat.add_assoc, emit_out_samples, blockSamples_getElem? xs bs h k m b hk hm, hsample]

/-! ### The statement -/

/-- Settles O44: OBUF holds the words of EMIT, and every number among them fits 16 bits. -/
theorem encodedStreamLayout : Obligations.EncodedStreamLayout := by
  intro i s xs hi h hd
  obtain ⟨bs, hexec, hbs⟩ := exec_emits_spacedBlocks i s xs hi h hd
  obtain ⟨hp, hlen, hmax, -⟩ := h
  obtain ⟨-, -, -, hdepth, -⟩ := (Params.wellFormed_iff s.params).1 hp
  have hfit := (emit_fits_bufDepth s.params xs bs hp hmax hbs).2
  rw [bufDepth] at hfit
  have hin := hbs.end_le
  have hlenIn : s.lenIn = store16 xs.length := by
    rw [← hlen, store16, BitVec.ofNat_toNat, BitVec.setWidth_eq]
  refine ⟨_, bs, hexec, s.succeed_errCode _, s.succeed_emit_recordsBlocks xs bs (by omega) hbs,
    ?_, s.succeed_obufWord _ 1 _ (emit_out_one xs bs), fun k b hk => ?_, ?_⟩
  · rw [hlenIn]
    exact s.succeed_obufWord _ 0 _ (emit_out_zero xs bs)
  · have hb := hin b (List.mem_of_getElem? hk)
    obtain ⟨hstart, hlength⟩ := s.succeed_emit_header xs bs k b hk (by omega)
    exact ⟨hstart, hlength, fun m hm => s.succeed_emit_sample xs bs hin k m b hk hm⟩
  · rw [State.succeed_lenOut, length_emit_out xs bs hin, store16_toNat _ (by omega),
      samplesBefore_length]

end Sys2Proof.Machine
end

section
/-! PROOFS. The threshold comparator of 40_suppress.md (R104, R105): when a sample is active, and what the
suppress commands do with a waveform that has no active sample. -/

namespace Sys2Proof.Machine

open Sys2Proof

/-! ### The comparator -/

/-- R104 read as the spec states it: the magnitude, an integer, against the unsigned threshold. -/
theorem active_iff (t w : Half) : active t w = true ↔ (t.toNat : Int) < |w.toInt| := by
  rw [active, decide_eq_true_eq, zext16, sext16, Int.abs_eq_natAbs, Int.ofNat_lt]

theorem active_eq_false_iff (t w : Half) : active t w = false ↔ |w.toInt| ≤ (t.toNat : Int) := by
  rw [← Bool.not_eq_true, active_iff, Int.not_lt]

/-- The largest magnitude is that of 0x8000 (40_suppress.md R105). -/
theorem abs_toInt_le (w : Half) : |w.toInt| ≤ 32768 := by
  have hlow := BitVec.le_toInt w
  have hhigh := BitVec.toInt_lt (x := w)
  rw [abs_le]
  omega

/-- With threshold 0 every sample but 0 is active (40_suppress.md R105). -/
theorem active_zero_iff (w : Half) : active 0#16 w = true ↔ w ≠ 0#16 := by
  rw [active_iff, BitVec.toNat_zero, Nat.cast_zero, abs_pos, ne_eq, ← BitVec.toInt_zero,
    BitVec.toInt_inj]

/-- From threshold 32768 on no sample is active (40_suppress.md R105). -/
theorem active_of_large_threshold (t w : Half) (h : 32768 ≤ t.toNat) : active t w = false := by
  have hw := abs_toInt_le w
  rw [active_eq_false_iff]
  omega

/-- Below threshold 32768 the sample 0x8000 is active (40_suppress.md R105). -/
theorem active_minimum (t : Half) (h : t.toNat ≤ 32767) : active t 0x8000#16 = true := by
  have habs : |(0x8000#16).toInt| = 32768 := by decide
  rw [active_iff, habs]
  omega

/-- The comparator does not see the sign of a sample (40_suppress.md R105). -/
theorem active_neg (t w w' : Half) (h : w'.toInt = -w.toInt) : active t w = active t w' := by
  rw [Bool.eq_iff_iff, active_iff, active_iff, h, abs_neg]

/-! ### A waveform without active samples -/

theorem suppressScan_of_inactive (thresh : Half) (i : Nat) (xs : List Half)
    (h : ∀ x ∈ xs, active thresh x = false) : suppressScan thresh i none xs = [] := by
  induction xs generalizing i with
  | nil => rw [suppressScan]
  | cons x xs ih =>
    obtain ⟨hx, hxs⟩ := List.forall_mem_cons.1 h
    rw [suppressScan, if_neg (by simp [hx]), ih (i + 1) hxs]

theorem suppressNNScan_of_inactive (thresh : Half) (d i : Nat) (xs : List Half)
    (h : ∀ x ∈ xs, active thresh x = false) : suppressNNScan thresh d i [] none xs = [] := by
  induction xs generalizing i with
  | nil => rw [suppressNNScan, List.reverse_nil]
  | cons x xs ih =>
    obtain ⟨hx, hxs⟩ := List.forall_mem_cons.1 h
    rw [suppressNNScan_skip thresh d i [] x xs (by simp [hx]), ih (i + 1) hxs]

/-- With no active sample a suppress command completes with the encoding of no block
(40_suppress.md R105, R107). -/
theorem exec_emits_nil_of_inactive (i : Instr) (s : State) (xs : List Half) (hi : i ≠ .unsuppress)
    (h : s.holdsWaveform xs) (hd : i = .suppressNN → 0 ≤ s.ndist.toInt)
    (hxs : ∀ x ∈ xs, active s.thresh x = false) :
    exec i s = .next (s.succeed (emit xs [])) := by
  cases i with
  | suppress => rw [exec_suppress_of_holdsWaveform s xs h, suppressScan_of_inactive _ _ _ hxs]
  | suppressNN =>
    rw [exec_suppressNN_of_holdsWaveform s xs h (hd rfl), suppressNNScan_of_inactive _ _ _ _ hxs]
  | unsuppress => exact absurd rfl hi

/-- The N word EMIT writes for the waveform of LEN_IN samples (30_encoding.md R93). -/
theorem State.store16_length_of_holdsWaveform (s : State) (xs : List Half) (h : s.holdsWaveform xs) :
    store16 xs.length = s.lenIn := by
  obtain ⟨-, hlen, -, -⟩ := h
  rw [← hlen, store16, BitVec.ofNat_toNat, BitVec.setWidth_eq]

/-! ### The statement -/

/-- Settles O41: every comparator clause follows from R104, and at a threshold of 32768 or more no sample
of the waveform is active, so the commands emit no block. -/
theorem comparatorCornerCases : Obligations.ComparatorCornerCases := by
  refine ⟨active_iff, active_zero_iff, active_of_large_threshold, active_minimum, active_neg,
    fun t w h => (active_eq_false_iff t w).2 h.le, fun s xs h ht i hi hd => ?_⟩
  have hexec := exec_emits_nil_of_inactive i s xs hi h hd
    fun x _ => active_of_large_threshold s.thresh x ht
  refine ⟨_, hexec, s.succeed_errCode _, s.succeed_lenOut _, s.succeed_nblk _, ?_,
    s.succeed_obufWord _ 1 _ (emit_out_one xs [])⟩
  rw [← s.store16_length_of_holdsWaveform xs h]
  exact s.succeed_obufWord _ 0 _ (emit_out_zero xs [])

end Sys2Proof.Machine
end

section
/-! PROOFS. UNSUPPRESS of a written stream (41_unsuppress.md R125 to R136): what it computes on a stream that
meets R126 to R130, the error it raises on every other, and the waveform it rebuilds. -/

namespace Sys2Proof.Machine

open Sys2Proof

/-! ### Placing samples -/

theorem length_overwrite (out : List Half) (start : Nat) (ws : List Half)
    (h : start + ws.length ≤ out.length) : (overwrite out start ws).length = out.length := by
  simp only [overwrite, List.length_append, List.length_take, List.length_drop]
  omega

/-- Word `m` of what is written lands `m` slots after its start. -/
theorem overwrite_getElem?_add (out : List Half) (start m : Nat) (ws : List Half)
    (h : start ≤ out.length) (hm : m < ws.length) :
    (overwrite out start ws)[start + m]? = ws[m]? := by
  have hlen : (out.take start).length = start := List.length_take_of_le h
  rw [overwrite, List.append_assoc, List.getElem?_append_right (by omega), hlen,
    Nat.add_sub_cancel_left, List.getElem?_append_left hm]

theorem overwrite_getElem?_outside (out : List Half) (start j : Nat) (ws : List Half)
    (h : start ≤ out.length) (hj : ¬ (start ≤ j ∧ j < start + ws.length)) :
    (overwrite out start ws)[j]? = out[j]? := by
  have hlen : (out.take start).length = start := List.length_take_of_le h
  by_cases hlt : j < start
  · rw [overwrite, List.append_assoc, List.getElem?_append_left (by omega),
      List.getElem?_take_of_lt hlt]
  · rw [overwrite, List.getElem?_append_right (by rw [List.length_append]; omega),
      List.length_append, hlen, List.getElem?_drop, Nat.add_sub_of_le (by omega)]

/-- One block's samples, written where the block lies, stay inside the waveform. -/
theorem length_overwrite_block (out : List Half) (b : Block) (ws : List Half)
    (h : b.start + b.len ≤ out.length) :
    (overwrite out b.start (ws.take b.len)).length = out.length :=
  length_overwrite _ _ _ ((Nat.add_le_add_left (List.length_take_le _ _) _).trans h)

theorem length_placeBlocks (out : List Half) (bs : List Block) (ws : List Half)
    (h : ∀ b ∈ bs, b.start + b.len ≤ out.length) :
    (placeBlocks out bs ws).length = out.length := by
  induction bs generalizing out ws with
  | nil => rfl
  | cons b bs ih =>
    obtain ⟨hb, hbs⟩ := List.forall_mem_cons.1 h
    have hlen := length_overwrite_block out b ws hb
    rw [placeBlocks, ih _ _ (by rwa [hlen]), hlen]

/-- A slot in no block keeps its word (41_unsuppress.md R131). -/
theorem placeBlocks_getElem?_outside (out : List Half) (bs : List Block) (ws : List Half) (j : Nat)
    (h : ∀ b ∈ bs, b.start + b.len ≤ out.length)
    (hj : ∀ b ∈ bs, ¬ (b.start ≤ j ∧ j < b.start + b.len)) :
    (placeBlocks out bs ws)[j]? = out[j]? := by
  induction bs generalizing out ws with
  | nil => rfl
  | cons b bs ih =>
    obtain ⟨hb, hbs⟩ := List.forall_mem_cons.1 h
    obtain ⟨hjb, hjbs⟩ := List.forall_mem_cons.1 hj
    have hcount : (ws.take b.len).length ≤ b.len := List.length_take_le _ _
    rw [placeBlocks, ih _ _ (by rwa [length_overwrite_block out b ws hb]) hjbs,
      overwrite_getElem?_outside _ _ _ _ (by omega) (by omega)]

/-- Sample `m` of block `k` comes from after the samples of the blocks before it; no later block
overwrites it, for the blocks do not overlap (41_unsuppress.md R131). -/
theorem placeBlocks_getElem?_block (out : List Half) (bs : List Block) (ws : List Half)
    (h : blockListValid out.length bs) (hws : totalLength bs ≤ ws.length) (k m : Nat) (b : Block)
    (hk : bs[k]? = some b) (hm : m < b.len) :
    (placeBlocks out bs ws)[b.start + m]? = ws[samplesBefore bs k + m]? := by
  induction bs generalizing out ws k with
  | nil => simp at hk
  | cons c bs ih =>
    obtain ⟨hpair, hmem⟩ := h
    obtain ⟨hafter, hpair⟩ := List.pairwise_cons.1 hpair
    obtain ⟨⟨-, hc⟩, hbs⟩ := List.forall_mem_cons.1 hmem
    have hlen := length_overwrite_block out c ws hc
    rw [totalLength, List.map_cons, List.sum_cons, ← totalLength] at hws
    rw [placeBlocks]
    cases k with
    | zero =>
      obtain rfl : c = b := by simpa using hk
      have hcount : m < (ws.take c.len).length := by
        rw [List.length_take]
        omega
      rw [placeBlocks_getElem?_outside _ bs _ _ (fun d hd => hlen ▸ (hbs d hd).2)
          fun d hd => by have := hafter d hd; omega,
        overwrite_getElem?_add _ _ _ _ (by omega) hcount, List.getElem?_take_of_lt hm,
        samplesBefore, List.take_zero, List.map_nil, List.sum_nil, Nat.zero_add]
    | succ k =>
      rw [ih _ (ws.drop c.len) ⟨hpair, by rwa [hlen]⟩ (by rw [List.length_drop]; omega) k
          (by simpa using hk),
        List.getElem?_drop, samplesBefore, samplesBefore, List.take_succ_cons, List.map_cons,
        List.sum_cons, Nat.add_assoc]

/-- The waveform has the length asked for. -/
theorem length_reinflate (n : Nat) (bs : List Block) (ws : List Half) (h : blockListValid n bs) :
    (reinflate n bs ws).length = n := by
  rw [reinflate, length_placeBlocks _ _ _ fun b hb => ?_, List.length_replicate]
  rw [List.length_replicate]
  exact (h.2 b hb).2

theorem reinflate_getElem?_block (n : Nat) (bs : List Block) (ws : List Half)
    (h : blockListValid n bs) (hws : totalLength bs ≤ ws.length) (k m : Nat) (b : Block)
    (hk : bs[k]? = some b) (hm : m < b.len) :
    (reinflate n bs ws)[b.start + m]? = ws[samplesBefore bs k + m]? :=
  placeBlocks_getElem?_block _ bs ws (by rwa [List.length_replicate]) hws k m b hk hm

theorem reinflate_getElem?_outside (n : Nat) (bs : List Block) (ws : List Half)
    (h : blockListValid n bs) (j : Nat) (hj : j < n)
    (hout : ∀ b ∈ bs, ¬ (b.start ≤ j ∧ j < b.start + b.len)) :
    (reinflate n bs ws)[j]? = some 0#16 := by
  rw [reinflate, placeBlocks_getElem?_outside _ _ _ _ (fun b hb => ?_) hout,
    List.getElem?_replicate_of_lt hj]
  rw [List.length_replicate]
  exact (h.2 b hb).2

/-! ### The blocks of a stream -/

/-- A word read as a signed integer is below 2^15 (92_eei_decisions.md D32). -/
theorem streamInt_lt (ws : List Half) (j : Nat) : streamInt ws j < 32768 :=
  BitVec.toInt_lt

/-- The first `m` blocks of a stream, as UNSUPPRESS reads them (41_unsuppress.md R125). -/
def streamBlocks (ws : List Half) (m : Nat) : List Block := (List.range' 0 m).map (streamBlock ws)

@[simp] theorem length_streamBlocks (ws : List Half) (m : Nat) : (streamBlocks ws m).length = m := by
  rw [streamBlocks, List.length_map, List.length_range']

theorem streamBlocks_getElem? (ws : List Half) (m k : Nat) (hk : k < m) :
    (streamBlocks ws m)[k]? = some (streamBlock ws k) := by
  rw [streamBlocks, List.getElem?_map, List.getElem?_range' hk, Nat.one_mul, Nat.zero_add,
    Option.map_some]

theorem mem_streamBlocks (ws : List Half) (m : Nat) (b : Block) :
    b ∈ streamBlocks ws m ↔ ∃ k < m, streamBlock ws k = b := by
  simp [streamBlocks, List.mem_range'_1]

/-- The samples of a stream's first `k` blocks, counted as the stream's own lengths say. -/
theorem samplesBefore_streamBlocks (ws : List Half) (m k : Nat) (hk : k ≤ m)
    (h : ∀ i < k, streamBlockOk ws i) :
    (samplesBefore (streamBlocks ws m) k : Int) = streamTotal ws k := by
  rw [samplesBefore, streamBlocks, ← List.map_take, List.take_range'_of_length_ge hk, ← totalLength,
    totalLength_streamBlocks ws k h]

/-- The numbers of a block that passes its checks are not negative (41_unsuppress.md R129). -/
theorem streamBlock_toInt (ws : List Half) (k : Nat) (h : ∀ i ≤ k, streamBlockOk ws i) :
    ((streamBlock ws k).start : Int) = streamStart ws k ∧
      ((streamBlock ws k).len : Int) = streamLen ws k := by
  have hprev := streamPrevEnd_nonneg ws k fun i hi => h i hi.le
  obtain ⟨hlen, hstart, -⟩ := h k (Nat.le_refl k)
  exact ⟨Int.toNat_of_nonneg (hprev.trans hstart), Int.toNat_of_nonneg (by omega)⟩

/-- Blocks that pass their checks lie one after the other, not only next to each other
(41_unsuppress.md R129). -/
theorem streamEnd_le_streamStart (ws : List Half) (i k : Nat) (hik : i < k)
    (h : ∀ j ≤ k, streamBlockOk ws j) : streamStart ws i + streamLen ws i ≤ streamStart ws k := by
  induction k with
  | zero => omega
  | succ k ih =>
    obtain ⟨-, hnext, -⟩ := h (k + 1) (Nat.le_refl _)
    rw [streamPrevEnd] at hnext
    rcases Nat.lt_succ_iff_lt_or_eq.1 hik with hlt | rfl
    · have hbefore := ih hlt fun j hj => h j (by omega)
      obtain ⟨hlen, -, -⟩ := h k (Nat.le_succ k)
      omega
    · exact hnext

/-- R129 gives the stream's blocks the invariants of a block list (30_encoding.md R99). -/
theorem streamBlocks_blockListValid (ws : List Half) (m : Nat)
    (h : ∀ k < m, streamBlockOk ws k) :
    blockListValid (streamN ws).toNat (streamBlocks ws m) := by
  refine ⟨List.pairwise_map.2 ((List.pairwise_lt_range' 1).imp_of_mem fun {i k} _ hk hik => ?_),
    fun b hb => ?_⟩
  · have hkm := (List.mem_range'_1.1 hk).2
    have hi := streamBlock_toInt ws i fun j hj => h j (by omega)
    have hk := streamBlock_toInt ws k fun j hj => h j (by omega)
    have := streamEnd_le_streamStart ws i k hik fun j hj => h j (by omega)
    omega
  · obtain ⟨k, hkm, rfl⟩ := (mem_streamBlocks ws m b).1 hb
    obtain ⟨hstart, hlen⟩ := streamBlock_toInt ws k fun j hj => h j (by omega)
    obtain ⟨hpos, -, hend⟩ := h k hkm
    omega

/-! ### What UNSUPPRESS computes -/

/-- Code 0 of ERRCODE is success alone (60_exceptions.md R138). -/
theorem errorCode_ne_zero (e : CommandError) : errorCode e ≠ 0#4 := by
  cases e <;> decide

/-- The waveform and the blocks that a valid stream encodes (41_unsuppress.md R131, R132). -/
def streamResult (ws : List Half) : CommandResult where
  out := reinflate (streamN ws).toNat (streamBlocks ws (streamB ws).toNat)
    (ws.drop (2 + 2 * (streamB ws).toNat))
  blocks := streamBlocks ws (streamB ws).toNat

theorem State.hasWord_of_holdsStream (s : State) (ws : List Half) (h : s.holdsStream ws) (j : Nat)
    (hj : j < ws.length) : s.hasWord ws j := by
  obtain ⟨-, -, hibuf⟩ := h
  exact s.hasWord_of_eq ws j hj (hibuf j hj)

/-- Every start and every length that R128 lets the stream have is written. -/
theorem State.hasBlockWords_of_holdsStream (s : State) (ws : List Half) (h : s.holdsStream ws)
    (hB : streamBOk s.params ws) (k : Nat) (hk : k < (streamB ws).toNat) :
    s.hasWord ws (2 + k) ∧ s.hasWord ws (2 + (streamB ws).toNat + k) := by
  obtain ⟨-, -, hfit⟩ := hB
  exact ⟨s.hasWord_of_holdsStream ws h _ (by omega), s.hasWord_of_holdsStream ws h _ (by omega)⟩

/-- The words after the headers are the samples. -/
theorem State.ibufWords_of_holdsStream (s : State) (ws : List Half) (h : s.holdsStream ws) (i : Nat) :
    s.ibufWords i (ws.length - i) = .ok (ws.drop i) := by
  obtain ⟨-, -, hibuf⟩ := h
  refine (s.ibufWords_eq_ok _ _ _).2 ⟨List.length_drop, fun j hj => ?_⟩
  rw [List.getElem?_drop]
  exact hibuf (i + j) (by omega)

/-- UNSUPPRESS comes to its body on a written stream that meets R126 to R128. -/
theorem State.unsuppressResult_of_header (s : State) (ws : List Half) (h : s.holdsStream ws)
    (hL : streamLengthOk s.params ws) (hN : streamNOk s.params ws) (hB : streamBOk s.params ws) :
    s.unsuppressResult = s.unsuppressBody ws.length (streamN ws).toNat (streamB ws).toNat := by
  have ⟨_, hlen, _⟩ := h
  obtain ⟨-, hread⟩ := s.unsuppressResult_legal ws hlen hL
  obtain ⟨-, hread⟩ := hread (s.hasWord_of_holdsStream ws h 0 (by omega))
  obtain ⟨-, hread⟩ := hread hN
  obtain ⟨-, hread⟩ := hread (s.hasWord_of_holdsStream ws h 1 (by omega))
  exact hread hB

/-- A stream that meets R126 to R130 is reinflated. -/
theorem State.unsuppressResult_of_streamValid (s : State) (ws : List Half) (h : s.holdsStream ws)
    (hv : streamValid s.params ws) : s.unsuppressResult = .ok (streamResult ws) := by
  obtain ⟨hL, hN, hB, hblocks, htotal⟩ := hv
  have ⟨hN0, _⟩ := hN
  have ⟨hB0, _, hfit⟩ := hB
  obtain ⟨-, hbody⟩ := s.unsuppressBody_samples ws hN0 hB0 hfit
    (s.hasBlockWords_of_holdsStream ws h hB) hblocks
  rw [s.unsuppressResult_of_header ws h hL hN hB, hbody htotal, s.ibufWords_of_holdsStream ws h]
  rfl

/-- Where some block fails its checks, the first one that does raises ERR_BAD_BLOCK
(41_unsuppress.md R129). -/
theorem State.unsuppressBody_of_badBlock (s : State) (ws : List Half) (h : s.holdsStream ws)
    (hN : streamNOk s.params ws) (hB : streamBOk s.params ws)
    (hbad : ∃ k < (streamB ws).toNat, ¬ streamBlockOk ws k) :
    ∃ k, s.unsuppressBody ws.length (streamN ws).toNat (streamB ws).toNat =
      .error (.raise .badBlock (store16 k)) := by
  obtain ⟨hk, hkbad⟩ := Nat.find_spec hbad
  have hbefore : ∀ i < Nat.find hbad, streamBlockOk ws i := fun i hi => by
    by_contra hno
    exact Nat.find_min hbad hi ⟨hi.trans hk, hno⟩
  have hwords := s.hasBlockWords_of_holdsStream ws h hB
  obtain ⟨hstart, hlen⟩ := hwords _ hk
  obtain ⟨-, hread⟩ := s.unsuppressBody_block ws _ hN.1 hk (fun i hi => hwords i (hi.trans hk)) hbefore
  obtain ⟨-, hread⟩ := hread hstart
  exact ⟨_, hread hlen hkbad⟩

/-- A written stream that fails one of R126 to R130 raises an error: the first check that fails, in the
order of the pseudocode (41_unsuppress.md R125), decides which. -/
theorem State.unsuppressResult_of_not_streamValid (s : State) (ws : List Half) (h : s.holdsStream ws)
    (hv : ¬ streamValid s.params ws) :
    ∃ e info, s.unsuppressResult = .error (.raise e info) := by
  have ⟨_, hlen, _⟩ := h
  by_cases hL : streamLengthOk s.params ws
  case neg => exact ⟨_, _, s.unsuppressResult_length ws hlen hL⟩
  obtain ⟨-, hread⟩ := s.unsuppressResult_legal ws hlen hL
  obtain ⟨hbadN, hread⟩ := hread (s.hasWord_of_holdsStream ws h 0 (by omega))
  by_cases hN : streamNOk s.params ws
  case neg => exact ⟨_, _, hbadN hN⟩
  obtain ⟨-, hread⟩ := hread hN
  obtain ⟨hbadB, -⟩ := hread (s.hasWord_of_holdsStream ws h 1 (by omega))
  by_cases hB : streamBOk s.params ws
  case neg => exact ⟨_, _, hbadB hB⟩
  rw [s.unsuppressResult_of_header ws h hL hN hB]
  by_cases hblocks : ∀ k < (streamB ws).toNat, streamBlockOk ws k
  case neg =>
    simp only [not_forall, exists_prop] at hblocks
    obtain ⟨k, hraise⟩ := s.unsuppressBody_of_badBlock ws h hN hB hblocks
    exact ⟨_, _, hraise⟩
  have ⟨hN0, _⟩ := hN
  have ⟨hB0, _, hfit⟩ := hB
  obtain ⟨hraise, -⟩ := s.unsuppressBody_samples ws hN0 hB0 hfit
    (s.hasBlockWords_of_holdsStream ws h hB) hblocks
  exact ⟨_, _, hraise fun htotal => hv ⟨hL, hN, hB, hblocks, htotal⟩⟩

/-- UNSUPPRESS of a written stream that meets R126 to R130 (41_unsuppress.md R131, R132). -/
theorem exec_unsuppress_of_streamValid (s : State) (ws : List Half) (h : s.holdsStream ws)
    (hv : streamValid s.params ws) : exec .unsuppress s = .next (s.succeed (streamResult ws)) := by
  rw [exec_eq_finish]
  simp only [s.unsuppressResult_of_streamValid ws h hv, State.finish]

/-- UNSUPPRESS of any other written stream (41_unsuppress.md R126 to R130). -/
theorem exec_unsuppress_of_not_streamValid (s : State) (ws : List Half) (h : s.holdsStream ws)
    (hv : ¬ streamValid s.params ws) :
    ∃ e info, exec .unsuppress s = .next (s.raiseError e info) := by
  obtain ⟨e, info, hraise⟩ := s.unsuppressResult_of_not_streamValid ws h hv
  refine ⟨e, info, ?_⟩
  rw [exec_eq_finish]
  simp only [hraise, State.finish]

/-! ### What a valid stream is rebuilt to -/

theorem length_streamResult_out (ws : List Half)
    (h : ∀ k < (streamB ws).toNat, streamBlockOk ws k) :
    (streamResult ws).out.length = (streamN ws).toNat :=
  length_reinflate _ _ _ (streamBlocks_blockListValid ws _ h)

/-- The block lengths account for every sample word (41_unsuppress.md R130). -/
theorem totalLength_streamBlocks_eq_length_drop (ws : List Half) (hB : 0 ≤ streamB ws)
    (h : ∀ k < (streamB ws).toNat, streamBlockOk ws k) (htotal : streamTotalOk ws) :
    totalLength (streamBlocks ws (streamB ws).toNat) =
      (ws.drop (2 + 2 * (streamB ws).toNat)).length := by
  have := totalLength_streamBlocks ws _ h
  rw [← streamBlocks] at this
  rw [List.length_drop]
  omega

/-- Sample `m` of block `k` is copied raw from its place in the stream (41_unsuppress.md R131). -/
theorem streamResult_out_sample (ws : List Half) (hB : 0 ≤ streamB ws)
    (h : ∀ k < (streamB ws).toNat, streamBlockOk ws k) (htotal : streamTotalOk ws) (k m : Nat)
    (hk : k < (streamB ws).toNat) (hm : m < (streamLen ws k).toNat) :
    (streamResult ws).out[(streamStart ws k).toNat + m]? =
      ws[2 + 2 * (streamB ws).toNat + (streamTotal ws k).toNat + m]? := by
  have hvalid := streamBlocks_blockListValid ws _ h
  have hplace := samplesBefore_streamBlocks ws _ k hk.le fun i hi => h i (hi.trans hk)
  have hsample := reinflate_getElem?_block _ _ _ hvalid
    (totalLength_streamBlocks_eq_length_drop ws hB h htotal).le k m (streamBlock ws k)
    (streamBlocks_getElem? ws _ k hk) hm
  rwa [List.getElem?_drop, ← Nat.add_assoc, ← Int.toNat_natCast (samplesBefore _ k), hplace] at hsample

/-- A slot in no block of the stream holds 0 (41_unsuppress.md R131). -/
theorem streamResult_out_zero (ws : List Half) (h : ∀ k < (streamB ws).toNat, streamBlockOk ws k)
    (j : Nat) (hj : (j : Int) < streamN ws)
    (hout : ∀ k < (streamB ws).toNat,
      ¬ (streamStart ws k ≤ j ∧ (j : Int) < streamStart ws k + streamLen ws k)) :
    (streamResult ws).out[j]? = some 0#16 := by
  refine reinflate_getElem?_outside _ _ _ (streamBlocks_blockListValid ws _ h) j (by omega) fun b hb => ?_
  obtain ⟨k, hk, rfl⟩ := (mem_streamBlocks ws _ b).1 hb
  have hints := streamBlock_toInt ws k fun i hi => h i (by omega)
  have := hout k hk
  omega

/-! ### The statements -/

/-- Settles O48: a written stream that meets the checks succeeds, and every other raises an error, whose
code is not 0. -/
theorem unsuppressAcceptsExactlyValidStreams : Obligations.UnsuppressAcceptsExactlyValidStreams := by
  intro s ws h
  by_cases hv : streamValid s.params ws
  · exact ⟨_, exec_unsuppress_of_streamValid s ws h hv, iff_of_true (s.succeed_errCode _) hv⟩
  · obtain ⟨e, info, hexec⟩ := exec_unsuppress_of_not_streamValid s ws h hv
    exact ⟨_, hexec, iff_of_false (errorCode_ne_zero e) hv⟩

/-- Settles O47: the completion stores the waveform and the blocks of `streamResult`, and their numbers fit
16 bits. -/
theorem unsuppressReinflates : Obligations.UnsuppressReinflates := by
  intro s ws h hv
  have hexec := exec_unsuppress_of_streamValid s ws h hv
  obtain ⟨-, ⟨hN, -⟩, ⟨hB, -⟩, hblocks, htotal⟩ := hv
  have hN16 : streamN ws < 32768 := streamInt_lt ws 0
  have hB16 : streamB ws < 32768 := streamInt_lt ws 1
  have hout := length_streamResult_out ws hblocks
  refine ⟨_, hexec, s.succeed_errCode _, s.succeed_errInfo _, s.succeed_busy _, s.succeed_done _,
    ?_, ?_, fun k hk => ⟨?_, fun m hm => ?_⟩, fun j hj hfree => ?_⟩
  · rw [State.succeed_lenOut, hout, store16_toNat _ (by omega), Int.toNat_of_nonneg hN]
  · rw [State.succeed_nblk, streamResult, length_streamBlocks, store16_toNat _ (by omega),
      Int.toNat_of_nonneg hB]
  · have hstart : streamStart ws k < 32768 := streamInt_lt ws _
    have hlen : streamLen ws k < 32768 := streamInt_lt ws _
    exact s.succeed_block _ k (streamBlock ws k) (streamBlocks_getElem? ws _ k hk) (by omega)
      (by simp only [streamBlock]; omega) (by simp only [streamBlock]; omega)
  · have hinside : (streamStart ws k).toNat + m < (streamResult ws).out.length := by
      obtain ⟨-, -, hend⟩ := hblocks k hk
      have := streamBlock_toInt ws k fun i hi => hblocks i (by omega)
      simp only [streamBlock] at this
      omega
    have hword := s.succeed_obufWord _ _ _ (List.getElem?_eq_getElem hinside)
    rw [hword, ← streamResult_out_sample ws hB hblocks htotal k m hk hm,
      List.getElem?_eq_getElem hinside]
    exact ⟨rfl, rfl⟩
  · exact s.succeed_obufWord _ j _ (streamResult_out_zero ws hblocks j hj hfree)

end Sys2Proof.Machine
end

section
/-! PROOFS. The exceptions of 60_exceptions.md: the accesses that get ERROR (R148), host misuse while
BUSY = 1 (R149), and for each command error (R138 to R147) when it is raised and what it leaves. -/

namespace Sys2Proof.Machine

open Sys2Proof

/-! ### Host accesses -/

/-- An access that is not 32 bits wide at an aligned offset gets ERROR and does nothing else
(60_exceptions.md R148). -/
theorem State.windowAccess_illegal (s : State) (off size : Nat) (a : Access)
    (h : size ≠ 4 ∨ off % 4 ≠ 0) : s.windowAccess off size a = { s with response := .error } := by
  have hl : legalAccess off size = false := by
    rcases h with hsize | halign
    · simp [legalAccess, hsize]
    · simp [legalAccess, halign]
  simp [State.windowAccess, hl]

/-- A legal access gets OKAY, with data if it is a read (20_memory.md R63 to R70). -/
theorem State.windowAccess_legal_response (s : State) (off : Nat) (a : Access) (h4 : off % 4 = 0) :
    (∃ d, (s.windowAccess off 4 a).response = .okayRead d) ∨
      (s.windowAccess off 4 a).response = .okayWrite := by
  have hl : legalAccess off 4 = true := by simp [legalAccess, h4]
  simp only [State.windowAccess, if_pos hl]
  cases a with
  | read =>
    left
    rcases s.readTarget_cases (targetOf s.params off) with ⟨d, h⟩ | h
    · exact ⟨d, by rw [h, State.answer_response]⟩
    · exact ⟨_, by rw [h]; rfl⟩
  | write v => exact .inr rfl

/-- While BUSY = 1 a misused target other than CTRL drops the write and sets BSYERR
(60_exceptions.md R149). -/
theorem State.writeTarget_misuse (s : State) (v : Word) (g : Target) (hb : s.busy = true)
    (hg : g ≠ .reg .ctrl) (hm : isMisuse v g = true) : s.writeTarget v g = s.misuseFlag := by
  cases g with
  | reg r =>
    cases r with
    | ctrl => exact absurd rfl hg
    | thresh | ndist | lenIn => exact if_pos hb
    | status | lenOut | nblk | errInfo | caps => cases hm
  | ibuf i => exact if_pos hb
  | reserved | blockStart k | blockLength k | obuf j => cases hm

/-- A host write at the offset of a misused target other than CTRL, while BUSY = 1
(60_exceptions.md R149). -/
theorem State.hostWrite_misuse (s : State) (off : Nat) (v : Word) (g : Target) (hb : s.busy = true)
    (hin : off < 0x100000) (h4 : off % 4 = 0) (ht : targetOf s.params off = g)
    (hg : g ≠ .reg .ctrl) (hm : isMisuse v g = true) :
    s.hostWrite off v = { s with bsyErr := true, response := .okayWrite } := by
  rw [s.hostWrite_eq off v hin h4, ht, s.writeTarget_misuse v g hb hg hm]
  rfl

/-! ### How a command ends -/

/-- What a command computes before it ends. -/
def State.commandResult (s : State) : Instr → Except Stop CommandResult
  | .suppress => s.suppressResult
  | .suppressNN => s.suppressNNResult
  | .unsuppress => s.unsuppressResult

theorem exec_eq_finish_commandResult (i : Instr) (s : State) :
    exec i s = s.finish (s.commandResult i) := by
  cases i <;> rfl

/-- Taking an error changes only the completion's own results (60_exceptions.md R146). -/
theorem State.raiseError_eq_failedWith (s : State) (e : CommandError) (info : Half) :
    s.raiseError e info = s.failedWith (errorCode e) info := rfl

/-- A command that raises an error fails with its code (60_exceptions.md R138, R146). -/
theorem exec_of_raise (i : Instr) (s : State) (e : CommandError) (info : Half)
    (h : s.commandResult i = .error (.raise e info)) :
    exec i s = .next (s.failedWith (errorCode e) info) := by
  rw [exec_eq_finish_commandResult, h, ← State.raiseError_eq_failedWith]
  rfl

/-- No two command errors share a code (60_exceptions.md R138). -/
theorem errorCode_injective : Function.Injective errorCode := by
  intro e e'
  cases e <;> cases e' <;> decide

/-- Only the command error of a code leaves it in ERRCODE (60_exceptions.md R138). -/
theorem exec_errCode (i : Instr) (s t : State) (e : CommandError) (h : exec i s = .next t)
    (hc : t.errCode = errorCode e) : ∃ info, s.commandResult i = .error (.raise e info) := by
  rw [exec_eq_finish_commandResult] at h
  rcases (s.finish_eq_next t _).1 h with ⟨c, -, rfl⟩ | ⟨e', info, hraise, rfl⟩
  · exact absurd hc.symm (errorCode_ne_zero e)
  · obtain rfl : e' = e := errorCode_injective hc
    exact ⟨info, hraise⟩

/-- A completion that leaves an ERRCODE other than 0 is a failure, for a reserved code too
(60_exceptions.md R146, R147). -/
theorem eq_failedWith_of_completes (s t : State)
    (h : (∃ c, t = s.succeed c) ∨ ∃ e info, t = s.raiseError e info) (hc : t.errCode ≠ 0#4) :
    t = s.failedWith t.errCode t.errInfo := by
  rcases h with ⟨c, rfl⟩ | ⟨e, info, rfl⟩
  · exact absurd (s.succeed_errCode c) hc
  · exact s.raiseError_eq_failedWith e info

/-- The completion of a reserved code (60_exceptions.md R139). -/
theorem sequencerTurn_reserved (s : State) (hb : s.busy = true)
    (hr : ∀ i, s.lcmd ≠ commandCode i) : sequencerTurn s = .next s.completeIllegal := by
  simp only [sequencerTurn, if_pos hb, completion, State.fetch, decodeCommand_reserved s.lcmd hr]

/-! ### Which errors a command raises -/

/-- Reading IBUF raises no error: it stops at an unwritten slot only (10_state.md R54). -/
theorem State.ibufWord_ne_raise (s : State) (i : Nat) (e : CommandError) (info : Half) :
    s.ibufWord i ≠ .error (.raise e info) := by
  intro h
  obtain ⟨hstop, -⟩ := (s.ibufWord_eq_error i _).1 h
  cases hstop

theorem State.ibufWords_ne_raise (s : State) (i n : Nat) (e : CommandError) (info : Half) :
    s.ibufWords i n ≠ .error (.raise e info) := by
  intro h
  obtain ⟨j, -, hstop, -⟩ := (s.ibufWords_eq_error i n _).1 h
  cases hstop

/-- SUPPRESS raises ERR_BAD_LENGTH alone, for a waveform longer than N_MAX (40_suppress.md R106). -/
theorem State.suppressResult_raise_iff (s : State) (e : CommandError) (info : Half) :
    s.suppressResult = .error (.raise e info) ↔
      s.params.nMax < s.lenIn.toNat ∧ e = .badLength ∧ info = s.lenIn := by
  rcases s.suppressPrologue_cases with ⟨hle, hp⟩ | ⟨hlt, hp⟩
  · simp only [State.suppressResult, hp, Nat.not_lt.2 hle, false_and, iff_false]
    intro h
    split at h
    case h_1 stop hw =>
      cases h
      exact s.ibufWords_ne_raise _ _ e info hw
    case h_2 xs hw => cases h
  · simp [State.suppressResult, hp, hlt, eq_comm]

/-- SUPPRESS_NN raises ERR_BAD_LENGTH as SUPPRESS does, then ERR_BAD_NDIST for a negative distance
(40_suppress.md R106, R117; 60_exceptions.md R145). -/
theorem State.suppressNNResult_raise_iff (s : State) (e : CommandError) (info : Half) :
    s.suppressNNResult = .error (.raise e info) ↔
      (s.params.nMax < s.lenIn.toNat ∧ e = .badLength ∧ info = s.lenIn) ∨
        (s.lenIn.toNat ≤ s.params.nMax ∧ s.ndist.toInt < 0 ∧ e = .badNdist ∧ info = s.ndist) := by
  rcases s.suppressPrologue_cases with ⟨hle, hp⟩ | ⟨hlt, hp⟩
  · by_cases hd : s.ndist.toInt < 0
    · simp [State.suppressNNResult, hp, sext16, hd, hle, eq_comm]
    · simp only [State.suppressNNResult, hp, sext16, hd, Nat.not_lt.2 hle, false_and, and_false,
        or_false, if_false, iff_false]
      intro h
      split at h
      case h_1 stop hw =>
        cases h
        exact s.ibufWords_ne_raise _ _ e info hw
      case h_2 xs hw => cases h
  · simp [State.suppressNNResult, hp, hlt, Nat.not_le.2 hlt, eq_comm]

/-- The length check of UNSUPPRESS: L, or ERR_BAD_LENGTH (41_unsuppress.md R126). -/
theorem State.streamLength_cases (s : State) :
    ((2 ≤ s.lenIn.toNat ∧ s.lenIn.toNat ≤ bufDepth s.params) ∧
        s.streamLength = .ok s.lenIn.toNat) ∨
      ((s.lenIn.toNat < 2 ∨ bufDepth s.params < s.lenIn.toNat) ∧
        s.streamLength = .error (.raise .badLength s.lenIn)) := by
  by_cases h : s.lenIn.toNat < 2 ∨ bufDepth s.params < s.lenIn.toNat
  · exact .inr ⟨h, if_pos h⟩
  · exact .inl ⟨by omega, if_neg h⟩

/-- The header checks raise ERR_BAD_HEADER alone (41_unsuppress.md R127, R128). -/
theorem State.headerLength_raise (s : State) (e : CommandError) (info : Half)
    (h : s.headerLength = .error (.raise e info)) : e = .badHeader := by
  unfold State.headerLength at h
  split at h
  case h_1 stop hw =>
    cases h
    exact absurd hw (s.ibufWord_ne_raise 0 e info)
  case h_2 w hw =>
    split at h <;> cases h
    rfl

theorem State.headerCount_raise (s : State) (l : Nat) (e : CommandError) (info : Half)
    (h : s.headerCount l = .error (.raise e info)) : e = .badHeader := by
  unfold State.headerCount at h
  split at h
  case h_1 stop hw =>
    cases h
    exact absurd hw (s.ibufWord_ne_raise 1 e info)
  case h_2 w hw =>
    split at h <;> cases h
    rfl

theorem checkBlock_raise (n e k : Nat) (sw lw : Half) (err : CommandError) (info : Half)
    (h : checkBlock n e k sw lw = .error (.raise err info)) : err = .badBlock := by
  unfold checkBlock at h
  split at h <;> cases h
  rfl

/-- The block checks raise ERR_BAD_BLOCK alone (41_unsuppress.md R129). -/
theorem State.checkBlocks_raise (s : State) (n b count k e : Nat) (err : CommandError) (info : Half)
    (h : s.checkBlocks n b count k e = .error (.raise err info)) : err = .badBlock := by
  induction count generalizing k e with
  | zero => cases h
  | succ count ih =>
    unfold State.checkBlocks at h
    split at h
    case h_1 stop hs =>
      cases h
      exact absurd hs (s.ibufWord_ne_raise _ err info)
    split at h
    case h_1 stop hl =>
      cases h
      exact absurd hl (s.ibufWord_ne_raise _ err info)
    split at h
    case h_1 stop hc =>
      cases h
      exact checkBlock_raise _ _ _ _ _ err info hc
    split at h
    case h_1 stop hrest =>
      cases h
      exact ih _ _ hrest
    case h_2 bs hrest => cases h

/-- The body of UNSUPPRESS raises ERR_BAD_BLOCK or ERR_SIZE_MISMATCH (41_unsuppress.md R129, R130). -/
theorem State.unsuppressBody_raise (s : State) (l n b : Nat) (e : CommandError) (info : Half)
    (h : s.unsuppressBody l n b = .error (.raise e info)) : e = .badBlock ∨ e = .sizeMismatch := by
  unfold State.unsuppressBody at h
  split at h
  case h_1 stop hc =>
    cases h
    exact .inl (s.checkBlocks_raise n b b 0 0 e info hc)
  case h_2 bs hc =>
    split at h
    · cases h
      exact .inr rfl
    · split at h
      case h_1 stop hw =>
        cases h
        exact absurd hw (s.ibufWords_ne_raise _ _ e info)
      case h_2 ws hw => cases h

/-- UNSUPPRESS raises ERR_BAD_LENGTH for an illegal stream length, and else one of its own three errors
(41_unsuppress.md R126 to R130). -/
theorem State.unsuppressResult_raise (s : State) (e : CommandError) (info : Half)
    (h : s.unsuppressResult = .error (.raise e info)) :
    (e = .badLength ∧ (s.lenIn.toNat < 2 ∨ bufDepth s.params < s.lenIn.toNat)) ∨
      e = .badHeader ∨ e = .badBlock ∨ e = .sizeMismatch := by
  unfold State.unsuppressResult at h
  rcases s.streamLength_cases with ⟨-, hlen⟩ | ⟨hbad, hlen⟩
  · simp only [hlen] at h
    right
    split at h
    case h_1 stop hN =>
      cases h
      exact .inl (s.headerLength_raise e info hN)
    split at h
    case h_1 stop hB =>
      cases h
      exact .inl (s.headerCount_raise _ e info hB)
    case h_2 b hB => exact .inr (s.unsuppressBody_raise _ _ _ e info h)
  · rw [hlen] at h
    cases h
    exact .inl ⟨rfl, hbad⟩

/-- The errors the suppress commands do not raise are raised by UNSUPPRESS alone
(60_exceptions.md R142 to R144). -/
theorem eq_unsuppress_of_raise (i : Instr) (s : State) (e : CommandError) (info : Half)
    (h : s.commandResult i = .error (.raise e info)) (hl : e ≠ .badLength) (hd : e ≠ .badNdist) :
    i = .unsuppress := by
  cases i with
  | suppress => exact absurd ((s.suppressResult_raise_iff e info).1 h).2.1 hl
  | suppressNN =>
    rcases (s.suppressNNResult_raise_iff e info).1 h with ⟨-, he, -⟩ | ⟨-, -, he, -⟩
    · exact absurd he hl
    · exact absurd he hd
  | unsuppress => rfl

/-- The codes of those errors in ERRCODE name UNSUPPRESS (60_exceptions.md R142 to R144). -/
theorem eq_unsuppress_of_errCode (i : Instr) (s t : State) (e : CommandError)
    (h : exec i s = .next t) (hc : t.errCode = errorCode e) (hl : e ≠ .badLength)
    (hd : e ≠ .badNdist) : i = .unsuppress := by
  obtain ⟨info, hraise⟩ := exec_errCode i s t e h hc
  exact eq_unsuppress_of_raise i s e info hraise hl hd

/-- Where ERR_BAD_LENGTH comes from (60_exceptions.md R140). -/
theorem badLength_of_raise (i : Instr) (s : State) (info : Half)
    (h : s.commandResult i = .error (.raise .badLength info)) :
    (i ≠ .unsuppress ∧ s.params.nMax < s.lenIn.toNat) ∨
      (i = .unsuppress ∧ (s.lenIn.toNat < 2 ∨ bufDepth s.params < s.lenIn.toNat)) := by
  cases i with
  | suppress =>
    obtain ⟨hlt, -⟩ := (s.suppressResult_raise_iff _ info).1 h
    exact .inl ⟨by decide, hlt⟩
  | suppressNN =>
    rcases (s.suppressNNResult_raise_iff _ info).1 h with ⟨hlt, -⟩ | ⟨-, -, he, -⟩
    · exact .inl ⟨by decide, hlt⟩
    · cases he
  | unsuppress =>
    rcases s.unsuppressResult_raise _ info h with ⟨-, hbad⟩ | he | he | he
    · exact .inr ⟨rfl, hbad⟩
    · cases he
    · cases he
    · cases he

/-- Where ERR_BAD_NDIST comes from (60_exceptions.md R141). -/
theorem badNdist_of_raise (i : Instr) (s : State) (info : Half)
    (h : s.commandResult i = .error (.raise .badNdist info)) :
    i = .suppressNN ∧ s.ndist.toInt < 0 := by
  cases i with
  | suppress =>
    obtain ⟨-, he, -⟩ := (s.suppressResult_raise_iff _ info).1 h
    cases he
  | suppressNN =>
    rcases (s.suppressNNResult_raise_iff _ info).1 h with ⟨-, he, -⟩ | ⟨-, hneg, -⟩
    · cases he
    · exact ⟨rfl, hneg⟩
  | unsuppress =>
    rcases s.unsuppressResult_raise _ info h with ⟨he, -⟩ | he | he | he <;> cases he

/-! ### UNSUPPRESS on a stream of which only the words it reads are known -/

/-- UNSUPPRESS of an illegal stream length (41_unsuppress.md R126). -/
theorem State.unsuppressResult_badLength (s : State)
    (h : s.lenIn.toNat < 2 ∨ bufDepth s.params < s.lenIn.toNat) :
    s.unsuppressResult = .error (.raise .badLength s.lenIn) := by
  rcases s.streamLength_cases with ⟨⟨hl, hu⟩, -⟩ | ⟨-, hlen⟩
  · omega
  · simp only [State.unsuppressResult, hlen]

/-- Where a slot of the stream is written, IBUF's word is the stream's. -/
theorem State.agreesWithStream.streamInt_eq {s : State} {ws : List Half} (h : s.agreesWithStream ws)
    (j : Nat) (w : Half) (hj : j < s.lenIn.toNat) (hw : Memory.slot s.mem (ibufOff j) = some w) :
    s.hasWord ws j ∧ streamInt ws j = w.toInt := by
  have hword := h.hasWord j (h.1 ▸ hj) (by rw [hw]; rfl)
  refine ⟨hword, ?_⟩
  rw [State.hasWord, hw, Option.some.injEq] at hword
  rw [streamInt, ← hword]

/-- A bad N word stops UNSUPPRESS whatever the other slots hold (41_unsuppress.md R127). -/
theorem State.unsuppressResult_badN (s : State) (w0 : Half) (hl : 2 ≤ s.lenIn.toNat)
    (hu : s.lenIn.toNat ≤ bufDepth s.params) (h0 : Memory.slot s.mem (ibufOff 0) = some w0)
    (hbad : w0.toInt < 0 ∨ (s.params.nMax : Int) < w0.toInt) :
    s.unsuppressResult = .error (.raise .badHeader 0#16) := by
  obtain ⟨ws, hws⟩ := s.exists_agreesWithStream
  obtain ⟨hword, hN⟩ := hws.streamInt_eq 0 w0 (by omega) h0
  obtain ⟨-, hread⟩ := s.unsuppressResult_legal ws hws.1 ⟨hws.1 ▸ hl, hws.1 ▸ hu⟩
  obtain ⟨hraise, -⟩ := hread hword
  refine hraise fun hok => ?_
  rw [streamNOk, streamN, hN] at hok
  omega

/-- A bad B word stops UNSUPPRESS whatever the slots after it hold (41_unsuppress.md R128). -/
theorem State.unsuppressResult_badB (s : State) (w0 w1 : Half) (hl : 2 ≤ s.lenIn.toNat)
    (hu : s.lenIn.toNat ≤ bufDepth s.params) (h0 : Memory.slot s.mem (ibufOff 0) = some w0)
    (hN0 : 0 ≤ w0.toInt) (hNmax : w0.toInt ≤ s.params.nMax)
    (h1 : Memory.slot s.mem (ibufOff 1) = some w1)
    (hbad : w1.toInt < 0 ∨ (s.params.bMax : Int) < w1.toInt ∨
      (s.lenIn.toNat : Int) < 2 + 2 * w1.toInt) :
    s.unsuppressResult = .error (.raise .badHeader 1#16) := by
  obtain ⟨ws, hws⟩ := s.exists_agreesWithStream
  obtain ⟨hword0, hN⟩ := hws.streamInt_eq 0 w0 (by omega) h0
  obtain ⟨hword1, hB⟩ := hws.streamInt_eq 1 w1 (by omega) h1
  obtain ⟨-, hread⟩ := s.unsuppressResult_legal ws hws.1 ⟨hws.1 ▸ hl, hws.1 ▸ hu⟩
  obtain ⟨-, hread⟩ := hread hword0
  obtain ⟨-, hread⟩ := hread (by rw [streamNOk, streamN, hN]; exact ⟨hN0, hNmax⟩)
  obtain ⟨hraise, -⟩ := hread hword1
  refine hraise fun hok => ?_
  rw [streamBOk, streamB, hB, ← hws.1] at hok
  omega

/-- The words that `holdsBlockWords` speaks of are written: R128 puts them inside the stream. -/
theorem State.hasWords_of_holdsBlockWords (s : State) (ws : List Half) (n : Nat)
    (h : s.holdsBlockWords ws n) (hL : streamLengthOk s.params ws) (hB : streamBOk s.params ws)
    (hn : n ≤ (streamB ws).toNat) :
    s.hasWord ws 0 ∧ s.hasWord ws 1 ∧
      ∀ i < n, s.hasWord ws (2 + i) ∧ s.hasWord ws (2 + (streamB ws).toNat + i) := by
  obtain ⟨-, hibuf⟩ := h
  obtain ⟨hlen, -⟩ := hL
  obtain ⟨-, -, hfit⟩ := hB
  have hword : ∀ j < ws.length,
      (j < 2 ∨ ∃ k < n, j = 2 + k ∨ j = 2 + (streamB ws).toNat + k) → s.hasWord ws j :=
    fun j hj hread => s.hasWord_of_eq ws j hj (hibuf j hj hread)
  refine ⟨hword 0 (by omega) (.inl (by decide)), hword 1 (by omega) (.inl (by decide)),
    fun i hi => ⟨?_, ?_⟩⟩
  · exact hword _ (by omega) (.inr ⟨i, hi, .inl rfl⟩)
  · exact hword _ (by omega) (.inr ⟨i, hi, .inr rfl⟩)

/-- UNSUPPRESS comes to its body once its two header words are written and legal
(41_unsuppress.md R126 to R128). -/
theorem State.unsuppressResult_eq_body (s : State) (ws : List Half) (hlen : s.lenIn.toNat = ws.length)
    (hL : streamLengthOk s.params ws) (hN : streamNOk s.params ws) (hB : streamBOk s.params ws)
    (h0 : s.hasWord ws 0) (h1 : s.hasWord ws 1) :
    s.unsuppressResult = s.unsuppressBody ws.length (streamN ws).toNat (streamB ws).toNat := by
  obtain ⟨-, hread⟩ := s.unsuppressResult_legal ws hlen hL
  obtain ⟨-, hread⟩ := hread h0
  obtain ⟨-, hread⟩ := hread hN
  obtain ⟨-, hread⟩ := hread h1
  exact hread hB

/-- The first block that fails its checks is the one reported (41_unsuppress.md R129). -/
theorem State.unsuppressResult_badBlock (s : State) (ws : List Half) (k : Nat)
    (h : s.holdsBlockWords ws (k + 1)) (hL : streamLengthOk s.params ws)
    (hN : streamNOk s.params ws) (hB : streamBOk s.params ws) (hk : k < (streamB ws).toNat)
    (hok : ∀ j < k, streamBlockOk ws j) (hbad : ¬ streamBlockOk ws k) :
    s.unsuppressResult = .error (.raise .badBlock (store16 k)) := by
  obtain ⟨h0, h1, hwords⟩ := s.hasWords_of_holdsBlockWords ws (k + 1) h hL hB hk
  obtain ⟨hstart, hlen⟩ := hwords k (Nat.lt_succ_self k)
  obtain ⟨-, hread⟩ := s.unsuppressBody_block ws k hN.1 hk
    (fun i hi => hwords i (Nat.lt_succ_of_lt hi)) hok
  obtain ⟨-, hraise⟩ := hread hstart
  rw [s.unsuppressResult_eq_body ws h.1 hL hN hB h0 h1, hraise hlen hbad]

/-- Sound blocks whose lengths do not account for the samples are reported by their sum
(41_unsuppress.md R130). -/
theorem State.unsuppressResult_sizeMismatch (s : State) (ws : List Half)
    (h : s.holdsBlockWords ws (streamB ws).toNat) (hL : streamLengthOk s.params ws)
    (hN : streamNOk s.params ws) (hB : streamBOk s.params ws)
    (hok : ∀ k < (streamB ws).toNat, streamBlockOk ws k) (hbad : ¬ streamTotalOk ws) :
    s.unsuppressResult =
      .error (.raise .sizeMismatch (BitVec.ofInt 16 (streamTotal ws (streamB ws).toNat))) := by
  obtain ⟨h0, h1, hwords⟩ := s.hasWords_of_holdsBlockWords ws _ h hL hB (Nat.le_refl _)
  have ⟨hB0, _, hfit⟩ := hB
  obtain ⟨hraise, -⟩ := s.unsuppressBody_samples ws hN.1 hB0 hfit hwords hok
  rw [s.unsuppressResult_eq_body ws h.1 hL hN hB h0 h1, hraise hbad]

/-! ### The statements -/

/-- Settles O10. -/
theorem onlyIllegalAccessesGetError : Obligations.OnlyIllegalAccessesGetError := by
  intro s off size a hin
  rw [s.hostAccess_inside _ off (windowOffset_base s.params off hin)]
  refine ⟨s.windowAccess_illegal off size a, ?_⟩
  rintro rfl h4
  rcases s.windowAccess_legal_response off a h4 with ⟨d, h⟩ | h
  · simp [h]
  · simp [h]

/-- Settles O14: CTRL still stores CMD and IE of the dropped issue (R21); the other misused targets change
BSYERR alone. -/
theorem misuseWhileBusyIsDropped : Obligations.MisuseWhileBusyIsDropped := by
  intro s v hb
  refine ⟨fun hv => ?_, fun off hoff => ?_, fun hp i hi => ?_⟩
  · rw [s.hostWrite_ctrl, s.writeCtrl_drop v hv hb]
    rfl
  · simp only [List.mem_cons, List.not_mem_nil, or_false] at hoff
    obtain rfl | rfl | rfl := hoff
    · exact s.hostWrite_misuse _ v (.reg .thresh) hb (by decide) rfl rfl (by decide) rfl
    · exact s.hostWrite_misuse _ v (.reg .ndist) hb (by decide) rfl rfl (by decide) rfl
    · exact s.hostWrite_misuse _ v (.reg .lenIn) hb (by decide) rfl rfl (by decide) rfl
  · obtain ⟨⟨hin, h4⟩, -⟩ := slotOffs_legal s.params i hp hi
    exact s.hostWrite_misuse _ v (.ibuf i) hb hin h4 (targetOf_ibufOff _ i hp hi) (by simp) rfl

/-- Settles O33. -/
theorem badLengthExactlyOutOfRange : Obligations.BadLengthExactlyOutOfRange := by
  intro s
  refine ⟨fun hlt => ⟨?_, ?_⟩, fun hbad => ?_, fun i t h hc => ?_⟩
  · exact exec_of_raise .suppress s .badLength _
      ((s.suppressResult_raise_iff _ _).2 ⟨hlt, rfl, rfl⟩)
  · exact exec_of_raise .suppressNN s .badLength _
      ((s.suppressNNResult_raise_iff _ _).2 (.inl ⟨hlt, rfl, rfl⟩))
  · exact exec_of_raise .unsuppress s .badLength _ (s.unsuppressResult_badLength hbad)
  · obtain ⟨info, hraise⟩ := exec_errCode i s t .badLength h hc
    exact badLength_of_raise i s info hraise

/-- Settles O34. -/
theorem badDistanceOnlyWhenNegative : Obligations.BadDistanceOnlyWhenNegative := by
  intro s
  refine ⟨fun hle hneg => ?_, fun i t h hc => ?_⟩
  · exact exec_of_raise .suppressNN s .badNdist _
      ((s.suppressNNResult_raise_iff _ _).2 (.inr ⟨hle, hneg, rfl, rfl⟩))
  · obtain ⟨info, hraise⟩ := exec_errCode i s t .badNdist h hc
    exact badNdist_of_raise i s info hraise

/-- Settles O35. -/
theorem badHeaderNamesTheWord : Obligations.BadHeaderNamesTheWord := by
  refine ⟨fun s w0 hl hu h0 => ⟨fun hbad => ?_, fun hN0 hNmax w1 h1 hbad => ?_⟩, fun i s t h hc => ?_⟩
  · exact exec_of_raise .unsuppress s .badHeader _ (s.unsuppressResult_badN w0 hl hu h0 hbad)
  · exact exec_of_raise .unsuppress s .badHeader _
      (s.unsuppressResult_badB w0 w1 hl hu h0 hN0 hNmax h1 hbad)
  · exact eq_unsuppress_of_errCode i s t .badHeader h hc (by decide) (by decide)

/-- Settles O36. -/
theorem badBlockNamesTheFirst : Obligations.BadBlockNamesTheFirst := by
  refine ⟨fun s ws k h hL hN hB hk hok hbad => ?_, fun i s t h hc => ?_⟩
  · exact exec_of_raise .unsuppress s .badBlock _
      (s.unsuppressResult_badBlock ws k h hL hN hB hk hok hbad)
  · exact eq_unsuppress_of_errCode i s t .badBlock h hc (by decide) (by decide)

/-- Settles O37. -/
theorem sizeMismatchReportsTheSum : Obligations.SizeMismatchReportsTheSum := by
  refine ⟨fun s ws h hL hN hB hok hbad => ?_, fun i s t h hc => ?_⟩
  · exact exec_of_raise .unsuppress s .sizeMismatch _
      (s.unsuppressResult_sizeMismatch ws h hL hN hB hok hbad)
  · exact eq_unsuppress_of_errCode i s t .sizeMismatch h hc (by decide) (by decide)

/-- Settles O38: a completion that changed more than its own results would be a success. -/
theorem failedCommandChangesOnlyResults : Obligations.FailedCommandChangesOnlyResults := by
  intro s t h hc
  refine eq_failedWith_of_completes s t ?_ hc
  rcases h with ⟨i, hexec⟩ | ⟨hb, hturn⟩
  · rw [exec_eq_finish_commandResult] at hexec
    rcases (s.finish_eq_next t _).1 hexec with ⟨c, -, ht⟩ | ⟨e, info, -, ht⟩
    · exact .inl ⟨c, ht⟩
    · exact .inr ⟨e, info, ht⟩
  · rcases sequencerTurn_cases s t hturn with ⟨hidle, -⟩ | ⟨-, hends⟩
    · rw [hb] at hidle
      cases hidle
    · exact hends

/-- Settles O32: a code that is none of 1, 2 and 3 is no command's. -/
theorem reservedCommandCompletesIllegal : Obligations.ReservedCommandCompletesIllegal := by
  intro s hb h1 h2 h3
  have hr : ∀ i, s.lcmd ≠ commandCode i := by
    intro i
    cases i with
    | suppress => exact h1
    | suppressNN => exact h2
    | unsuppress => exact h3
  rw [sequencerTurn_reserved s hb hr, State.completeIllegal, State.raiseError_eq_failedWith,
    BitVec.ofNat_toNat]
  rfl

end Sys2Proof.Machine
end

section
/-! PROOFS. The reset input of 70_reset_and_hazards.md: the registers (R160) and the storage (R161) as a
reset turn leaves them. -/

namespace Sys2Proof.Machine

open Sys2Proof

/-! ### What a reset leaves -/

@[simp] theorem State.resetInput_ctrlWord (s : State) : s.resetInput.ctrlWord = 0#32 := by
  simp [State.ctrlWord]

@[simp] theorem State.resetInput_statusWord (s : State) : s.resetInput.statusWord = 0#32 := by
  simp [State.statusWord]

/-- The registers' reset values (70_reset_and_hazards.md R160); CAPS is built from the parameters, which
a reset does not change (10_state.md R37). -/
theorem State.resetInput_readReg (s : State) (r : Reg) :
    s.resetInput.readReg r = if r = .caps then s.readReg .caps else 0#32 := by
  cases r with
  | ctrl => exact s.resetInput_ctrlWord
  | status => exact s.resetInput_statusWord
  | thresh | ndist | lenIn | lenOut | nblk | errInfo => simp [State.readReg]
  | caps => rfl

/-- The interrupt is low after reset: its enable and DONE both reset to 0 (10_state.md R59). -/
@[simp] theorem State.resetInput_irq (s : State) : s.resetInput.irq = false := by
  simp [State.irq]

@[simp] theorem Memory.read_nil (a : Nat) : Memory.read [] a = none := rfl

@[simp] theorem Memory.slot_nil (off : Nat) : Memory.slot [] off = none := rfl

/-- No OBUF slot is written after reset (70_reset_and_hazards.md R161). -/
@[simp] theorem State.resetInput_obufWord (s : State) (j : Nat) : s.resetInput.obufWord j = none := by
  rw [State.obufWord, State.resetInput_mem, Memory.slot_nil]

/-- No BBRF entry is written after reset (70_reset_and_hazards.md R161). -/
@[simp] theorem State.resetInput_block (s : State) (k : Nat) : s.resetInput.block k = none := by
  simp [State.block]

/-! ### The statements -/

/-- Settles O50. -/
theorem resetZeroesRegisters : Obligations.ResetZeroesRegisters := by
  intro s ts h
  refine ⟨_, step_reset s ts h, fun r hr => ?_, ?_, rfl, rfl, rfl, State.resetInput_irq _, rfl⟩
  · rw [State.resetInput_readReg, if_neg hr]
  · rw [State.resetInput_readReg, if_pos rfl]
    rfl

/-- Settles O51. -/
theorem resetUnwritesStorage : Obligations.ResetUnwritesStorage := by
  intro s ts h
  refine ⟨_, step_reset s ts h, fun a => ?_, fun j => ⟨?_, ?_, ?_⟩⟩
  · rw [State.resetInput_mem, Memory.read_nil]
  · exact State.resetInput_obufWord _ j
  · exact State.resetInput_block _ j
  · rw [State.resetInput_mem, Memory.slot_nil]

end Sys2Proof.Machine
end

section
/-! PROOFS. Decoding as the inverse of encoding (30_encoding.md R85 to R91). -/

namespace Sys2Proof.Machine

open Sys2Proof

/-! ### The encoder's word and its fields -/

/-- The bits that are not reserved, in place (30_encoding.md R85): IE, and the ones a match
compares. -/
theorem and_writableMask_eq_fields (v : Word) :
    v &&& 0x1F1#32 = (v &&& 0xF1#32) ||| (if v.getLsbD 8 then 0x100#32 else 0#32) := by
  have mask : 0x1F1#32 = 0xF1#32 ||| BitVec.twoPow 32 8 := by decide
  have ie : BitVec.twoPow 32 8 = 0x100#32 := by decide
  rw [mask, BitVec.and_or_distrib_left, BitVec.and_twoPow, ie]

/-- The encoder's word is the opcode map's match value with the IE bit (30_encoding.md R91). -/
theorem encode_eq_matchWord_or (w : Issue) :
    encode w = matchWord w.command ||| (if w.ie then 0x100#32 else 0#32) := by
  obtain ⟨i, ie⟩ := w
  cases i <;> cases ie <;> decide

/-- The encoder's word has the fields of what it encodes (30_encoding.md R85, R86). -/
theorem commandWord_encode (w : Issue) :
    commandWord (encode w) = { start := true, cmd := commandCode w.command, ie := w.ie } := by
  obtain ⟨i, ie⟩ := w
  cases i <;> cases ie <;> decide

/-- Masking a word drops whatever its reserved bits hold, and leaves the encoder's word
(30_encoding.md R88). -/
theorem encode_or_reserved_and_writable (w : Issue) (r : Word) :
    (encode w ||| (r &&& 0xFFFFFE0E#32)) &&& 0x1F1#32 = encode w &&& 0x1F1#32 := by
  have disjoint : 0x1F1#32 &&& 0xFFFFFE0E#32 = 0#32 := by decide
  calc (encode w ||| (r &&& 0xFFFFFE0E#32)) &&& 0x1F1#32
    _ = (encode w &&& 0x1F1#32) ||| (r &&& (0x1F1#32 &&& 0xFFFFFE0E#32)) := by
      rw [BitVec.and_comm, BitVec.and_or_distrib_left, BitVec.and_comm _ (encode w),
        ← BitVec.and_assoc, BitVec.and_comm _ r, BitVec.and_assoc]
    _ = encode w &&& 0x1F1#32 := by rw [disjoint, BitVec.and_zero, BitVec.or_zero]

/-! ### The decoder -/

/-- A word decodes exactly when START = 1 and CMD is a command's code; it issues that command, with
its IE bit (30_encoding.md R85 to R87). -/
theorem decode_eq_ok_iff (v : Word) (w : Issue) :
    decode v = .ok w ↔
      commandWord v = { start := true, cmd := commandCode w.command, ie := w.ie } := by
  obtain ⟨i, ie⟩ := w
  rcases hw : commandWord v with ⟨start, cmd, ie'⟩
  cases start with
  | false => simp [decode, hw]
  | true =>
    cases hc : decodeCommand cmd with
    | error r =>
      have hne : cmd ≠ commandCode i := fun h => by
        rw [(decodeCommand_eq_ok_iff cmd i).2 h] at hc
        cases hc
      simp [decode, hw, hc, hne]
    | ok i' =>
      obtain rfl := (decodeCommand_eq_ok_iff cmd i').1 hc
      have inj : commandCode i' = commandCode i ↔ i' = i := by cases i' <;> cases i <;> decide
      simp [decode, hw, hc, inj]

/-! ### The statements -/

/-- Settles O2: the decoder sees a word through its fields, and the fields with the reserved bits
zero make up the encoder's word. -/
theorem decodeInvertsEncode : Obligations.DecodeInvertsEncode := by
  refine ⟨fun w r => ?_, fun v w h => ?_⟩
  · rw [decode_eq_ok_iff, ← commandWord_and_writable, encode_or_reserved_and_writable,
      commandWord_and_writable, commandWord_encode]
  · have hfields := (decode_eq_ok_iff v w).1 h
    simp only [commandWord, CommandWord.mk.injEq] at hfields
    obtain ⟨hstart, hcmd, hie⟩ := hfields
    rw [and_writableMask_eq_fields, (and_matchMask_eq_matchWord_iff v _).2 ⟨hstart, hcmd⟩, hie,
      encode_eq_matchWord_or]

/-- Settles O4. -/
theorem sampleCommandWordsDecode : Obligations.SampleCommandWordsDecode := by
  unfold Obligations.SampleCommandWordsDecode
  decide

end Sys2Proof.Machine
end

section
/-! PROOFS. The step of the machine: what the host can change while a command runs (20_memory.md
R77), the sequencer's turn (60_exceptions.md R147), runs of a few steps, and the flags over a step.
-/

namespace Sys2Proof.Machine

open Sys2Proof

/-! ### Host accesses while BUSY = 1 -/

/-- `u` is `s` but for what host accesses can change while BUSY = 1: CTRL, DONE, BSYERR and the
model's own `draws` and `response` (20_memory.md R77). -/
def State.hostChanged (s u : State) : Prop :=
  ∃ c ie d y n r, u = { s with
    ctrlCmd := c, ctrlIe := ie, done := d, bsyErr := y, draws := n, response := r }

theorem State.hostChanged.refl (s : State) : s.hostChanged s :=
  ⟨_, _, _, _, _, _, rfl⟩

theorem State.hostChanged.trans {s u w : State} (h : s.hostChanged u) (h' : u.hostChanged w) :
    s.hostChanged w := by
  obtain ⟨_, _, _, _, _, _, rfl⟩ := h
  obtain ⟨_, _, _, _, _, _, rfl⟩ := h'
  exact ⟨_, _, _, _, _, _, rfl⟩

/-- What the running command reads and writes, and BUSY, are as they were. -/
theorem State.hostChanged.frame {s u : State} (h : s.hostChanged u) :
    u.thresh = s.thresh ∧ u.ndist = s.ndist ∧ u.lenIn = s.lenIn ∧ u.lcmd = s.lcmd ∧ u.mem = s.mem ∧
      u.busy = s.busy ∧ u.params = s.params ∧ u.schedule = s.schedule := by
  obtain ⟨_, _, _, _, _, _, rfl⟩ := h
  exact ⟨rfl, rfl, rfl, rfl, rfl, rfl, rfl, rfl⟩

theorem State.hostAccess_hostChanged (s : State) (op : HostOp) (hb : s.busy = true) :
    s.hostChanged (s.hostAccess op) := by
  rcases s.hostAccess_cases op with ⟨r, h⟩ | h | ⟨off, v, -, -, -, -, h⟩
  · exact ⟨_, _, _, _, _, r, h⟩
  · exact ⟨_, _, _, _, _, _, h⟩
  · obtain ⟨c, ie, d, y, hw⟩ := s.writeTarget_busy v (targetOf s.params off) hb
    exact ⟨c, ie, d, y, _, _, by rw [h, hw]⟩

theorem State.hostAccesses_hostChanged (s : State) (ops : List HostOp) (hb : s.busy = true) :
    s.hostChanged (s.hostAccesses ops) := by
  induction ops generalizing s with
  | nil => exact State.hostChanged.refl s
  | cons op ops ih =>
    have hop := s.hostAccess_hostChanged op hb
    obtain ⟨-, -, -, -, -, hbusy, -⟩ := hop.frame
    exact hop.trans (ih (s.hostAccess op) (hbusy.trans hb))

/-! ### Commands on states that differ in what they do not read -/

/-- A command computes the same from the same inputs (30_encoding.md R89). -/
theorem State.commandResult_congr (s u : State) (i : Instr) (hp : u.params = s.params)
    (hl : u.lenIn = s.lenIn) (ht : u.thresh = s.thresh) (hd : u.ndist = s.ndist)
    (hm : u.mem = s.mem) : u.commandResult i = s.commandResult i := by
  cases i with
  | suppress => exact s.suppressResult_congr u hp hl ht hm
  | suppressNN => exact s.suppressNNResult_congr u hp hl ht hd hm
  | unsuppress => exact s.unsuppressResult_congr u hp hl hm

/-- A change of the state that both ends of a command carry along is carried along by the command.
-/
theorem State.finish_mapNext (s : State) (f : State → State) (r : Except Stop CommandResult)
    (hs : ∀ c, (f s).succeed c = f (s.succeed c))
    (he : ∀ e info, (f s).raiseError e info = f (s.raiseError e info)) :
    (f s).finish r = mapNext f (s.finish r) := by
  rcases r with (⟨e, info⟩ | i) | c
  · exact congrArg _ (he e info)
  · rfl
  · exact congrArg _ (hs c)

/-! ### The sequencer's turn -/

/-- While BUSY = 1 the sequencer's turn performs the command of LCMD (60_exceptions.md R147). -/
theorem sequencerTurn_of_fetch (s : State) (i : Instr) (hb : s.busy = true) (hf : s.fetch = .ok i) :
    sequencerTurn s = exec i s := by
  simp only [sequencerTurn, if_pos hb, completion, hf]

/-- While BUSY = 1 a reserved code completes with ERR_ILLEGAL_CMD (60_exceptions.md R139). -/
theorem sequencerTurn_of_reject (s : State) (r : Reject) (hb : s.busy = true)
    (hf : s.fetch = .error r) : sequencerTurn s = .next s.completeIllegal := by
  simp only [sequencerTurn, if_pos hb, completion, hf]

/-- While BUSY = 0 the sequencer waits (70_reset_and_hazards.md R163). -/
theorem sequencerTurn_idle (s : State) (hb : s.busy = false) : sequencerTurn s = .next s := by
  simp [sequencerTurn, hb]

/-- After the sequencer's turn the block is idle (10_state.md R25). -/
theorem sequencerTurn_busy (s t : State) (h : sequencerTurn s = .next t) : t.busy = false := by
  rcases sequencerTurn_cases s t h with ⟨hb, rfl⟩ | ⟨-, ⟨c, rfl⟩ | ⟨e, info, rfl⟩⟩
  · exact hb
  · rfl
  · rfl

/-- Both ends of a command lower BUSY, raise DONE and leave the controls (60_exceptions.md R147). -/
theorem completes_frame (s t : State)
    (h : (∃ c, t = s.succeed c) ∨ ∃ e info, t = s.raiseError e info) :
    t.busy = false ∧ t.done = true ∧ s.keepsControls t ∧ (t.errCode = 0#4 → t.errInfo = 0#16) := by
  rcases h with ⟨c, rfl⟩ | ⟨e, info, rfl⟩
  · exact ⟨rfl, rfl, ⟨rfl, rfl, rfl, rfl, rfl, rfl, rfl, rfl, rfl, rfl, rfl⟩, fun _ => rfl⟩
  · exact ⟨rfl, rfl, ⟨rfl, rfl, rfl, rfl, rfl, rfl, rfl, rfl, rfl, rfl, rfl⟩,
      fun hc => absurd hc (errorCode_ne_zero e)⟩

/-- The completion carries along what the host changed while the command ran (10_state.md R58). -/
theorem sequencerTurn_hostChanged (s u : State) (h : s.hostChanged u) (hb : s.busy = true) :
    sequencerTurn u = mapNext (fun t => { t with
      ctrlCmd := u.ctrlCmd, ctrlIe := u.ctrlIe, bsyErr := u.bsyErr, draws := u.draws,
      response := u.response }) (sequencerTurn s) := by
  obtain ⟨hthresh, hndist, hlenIn, hlcmd, hmem, hbusy, hparams, -⟩ := h.frame
  have hfetch : u.fetch = s.fetch := by rw [State.fetch, hlcmd, State.fetch]
  cases hf : s.fetch with
  | ok i =>
    rw [sequencerTurn_of_fetch s i hb hf,
      sequencerTurn_of_fetch u i (hbusy.trans hb) (hfetch.trans hf), exec_eq_finish_commandResult,
      exec_eq_finish_commandResult, s.commandResult_congr u i hparams hlenIn hthresh hndist hmem]
    obtain ⟨_, _, _, _, _, _, rfl⟩ := h
    rcases s.commandResult i with (⟨e, info⟩ | j) | c <;> rfl
  | error r =>
    rw [sequencerTurn_of_reject s r hb hf,
      sequencerTurn_of_reject u r (hbusy.trans hb) (hfetch.trans hf)]
    obtain ⟨_, _, _, _, _, _, rfl⟩ := h
    rfl

/-! ### One step and a few -/

theorem step_nil (s : State) (h : s.schedule = []) : step s = sequencerTurn s := by
  simp only [step, h]

theorem step_sequencer (s : State) (ts : List Turn) (h : s.schedule = .sequencer :: ts) :
    step s = sequencerTurn { s with schedule := ts } := by
  simp only [step, h, takeTurn]

theorem step_host (s : State) (op : HostOp) (ts : List Turn) (h : s.schedule = .host op :: ts) :
    step s = .next (State.hostAccess { s with schedule := ts } op) := by
  simp only [step, h, takeTurn]

/-- A run of any machine goes on from where its first step leads. -/
theorem coreRun_succ (M : Host.Core) (k : Nat) (s t : M.State) (h : M.step s = .next t) :
    M.run (k + 1) s = M.run k t := by
  rw [Host.Core.run, h]

theorem coreRun_one (M : Host.Core) (s : M.State) : M.run 1 s = M.step s := by
  rw [Host.Core.run]
  cases M.step s <;> rfl

theorem run_succ (k : Nat) (s t : State) (h : step s = .next t) :
    Host.Core.run Sys2Proof.core (k + 1) s = Host.Core.run Sys2Proof.core k t :=
  coreRun_succ Sys2Proof.core k s t h

theorem run_one (s : State) : Host.Core.run Sys2Proof.core 1 s = step s :=
  coreRun_one Sys2Proof.core s

/-! ### The command issue -/

/-- The state after the issue of `w` on an idle block (10_state.md R21). -/
def State.issued (s : State) (w : Issue) : State :=
  { s with
    ctrlCmd := commandCode w.command, ctrlIe := w.ie, lcmd := commandCode w.command,
    busy := true, done := false, errCode := 0#4 }

/-- The CTRL write of a command word issues it (10_state.md R21). -/
theorem State.writeCtrl_of_decode (s : State) (v : Word) (w : Issue) (hv : decode v = .ok w)
    (hb : s.busy = false) : s.writeCtrl v = s.issued w := by
  have hw := (decode_eq_ok_iff v w).1 hv
  rw [s.writeCtrl_issue v (by rw [hw]) hb, hw]
  rfl

/-- After an issue the sequencer's turn performs the command (10_state.md R55). -/
theorem sequencerTurn_issued (s : State) (w : Issue) :
    sequencerTurn (s.issued w) = exec w.command (s.issued w) :=
  sequencerTurn_of_fetch _ _ rfl ((decodeCommand_eq_ok_iff _ _).2 rfl)

/-- A 32-bit table word is the value of the CTRL write (30_encoding.md R90). -/
theorem tableWord_toNat (v : Word) : tableWord 32 v.toNat = v := by
  rw [tableWord, Nat.mod_eq_of_lt v.isLt, BitVec.ofNat_toNat, BitVec.setWidth_eq]

/-- The state made for a command word: its issue, with the sequencer's turn next. -/
theorem State.withFetchWord_of_decode (s : State) (v : Word) (w : Issue) (hv : decode v = .ok w) :
    (s.schedule = [] ∧ s.withFetchWord 32 v.toNat = s.issued w) ∨
      s.withFetchWord 32 v.toNat = { s.issued w with schedule := .sequencer :: s.schedule } := by
  have hissue : State.writeCtrl { s with busy := false } v = s.issued w :=
    State.writeCtrl_of_decode _ v w hv rfl
  simp only [State.withFetchWord, tableWord_toNat, hissue]
  split
  · exact .inl ⟨by assumption, rfl⟩
  · exact .inr rfl

/-! ### BUSY over a step -/

theorem State.statusWord_busy (s : State) : s.statusWord.getLsbD 0 = s.busy := by
  simp [State.statusWord_eq_append, BitVec.getLsbD_append, -Nat.reduceAdd,
    -BitVec.getLsbD_eq_getElem]

/-- A write of `v` to the target asks for a command issue (10_state.md R21). -/
def isIssue (v : Word) : Target → Bool
  | .reg .ctrl => v.getLsbD 0
  | _ => false

/-- A write raises BUSY exactly when it issues (10_state.md R25). -/
theorem State.writeTarget_busy_eq (s : State) (v : Word) (g : Target) :
    (s.writeTarget v g).busy = (s.busy || isIssue v g) := by
  cases hb : s.busy with
  | true =>
    obtain ⟨_, _, _, _, hw⟩ := s.writeTarget_busy v g hb
    rw [hw, Bool.true_or]
    exact hb
  | false =>
    cases g with
    | reg r =>
      cases r with
      | ctrl =>
        have hctrl := s.hostWrite_ctrl_busy v hb
        rw [s.hostWrite_ctrl] at hctrl
        exact hctrl.trans (Bool.false_or _).symm
      | status | thresh | ndist | lenIn | lenOut | nblk | errInfo | caps =>
        simp [State.writeTarget, State.writeReg, isIssue, hb]
    | ibuf i => simp [State.writeTarget, s.writeIbuf_idle i v hb, isIssue, hb]
    | reserved | blockStart k | blockLength k | obuf j => exact hb

/-- The one offset at which a write issues, and the bit that does (10_state.md R21). -/
theorem isIssue_targetOf (p : Params) (off : Nat) (v : Word)
    (h : isIssue v (targetOf p off) = true) : off = 0 ∧ v.getLsbD 0 = true := by
  cases hg : targetOf p off with
  | reg r =>
    obtain rfl := targetOf_eq_reg p off r hg
    rw [hg] at h
    cases r with
    | ctrl => exact ⟨rfl, h⟩
    | status | thresh | ndist | lenIn | lenOut | nblk | errInfo | caps => cases h
  | reserved | blockStart k | blockLength k | ibuf i | obuf j =>
    rw [hg] at h
    cases h

/-- Which steps raise BUSY (10_state.md R25). -/
theorem step_raises_busy_iff (s t : State) (h : step s = .next t) (hb : s.busy = false) :
    t.busy = true ↔
      ∃ v ts, s.schedule = .host ⟨s.params.base, 4, .write v⟩ :: ts ∧ v.getLsbD 0 = true := by
  constructor
  · intro ht
    obtain ⟨ts, hseq | ⟨r, d, rfl⟩ | ⟨off, v, hoff, h4, hs, rfl⟩ | ⟨-, rfl⟩⟩ := step_next_cases s t h
    · rw [sequencerTurn_busy _ t hseq] at ht
      cases ht
    · rw [hb] at ht
      cases ht
    · rw [State.hostWrite_eq _ off v hoff h4] at ht
      have hissue : isIssue v (targetOf s.params off) = true := by
        simpa [State.writeTarget_busy_eq, hb] using ht
      obtain ⟨rfl, hv⟩ := isIssue_targetOf _ off v hissue
      exact ⟨v, ts, hs, hv⟩
    · cases ht
  · rintro ⟨v, ts, hs, hv⟩
    rw [step_hostWrite s 0 v ts hs] at h
    cases h
    exact (State.hostWrite_ctrl_busy { s with schedule := ts } v hb).trans hv

/-- Which steps lower BUSY (10_state.md R25). -/
theorem step_lowers_busy_iff (s t : State) (h : step s = .next t) (hb : s.busy = true) :
    t.busy = false ↔
      s.schedule = [] ∨ ∃ ts, s.schedule = .sequencer :: ts ∨ s.schedule = .reset :: ts := by
  rcases step_cases s with ⟨hs, he⟩ | ⟨ts, hs, he⟩ | ⟨op, ts, hs, he⟩ | ⟨ts, hs, he⟩
  · exact iff_of_true (sequencerTurn_busy s t (he.symm.trans h)) (.inl hs)
  · exact iff_of_true (sequencerTurn_busy _ t (he.symm.trans h)) (.inr ⟨ts, .inl hs⟩)
  · rw [he] at h
    cases h
    obtain ⟨-, -, -, -, -, hbusy, -⟩ :=
      (State.hostAccess_hostChanged { s with schedule := ts } op hb).frame
    exact iff_of_false (by rw [hbusy]; simp [hb]) (by simp [hs])
  · rw [he] at h
    cases h
    exact iff_of_true rfl (.inr ⟨ts, .inr hs⟩)

/-! ### The invariant of the flags -/

theorem errorCode_le (e : CommandError) : (errorCode e).toNat ≤ 6 := by
  cases e <;> decide

/-- The flags' invariant speaks of five fields. -/
theorem State.flagsInv_congr (s t : State) (hi : s.flagsInv) (hc : t.errCode = s.errCode)
    (hb : t.busy = s.busy) (hd : s.done = false → t.done = false) (ho : t.lenOut = s.lenOut)
    (hn : t.nblk = s.nblk) : t.flagsInv := by
  obtain ⟨hcode, hbusy, herr⟩ := hi
  refine ⟨by rwa [hc], fun h => ?_, fun h => ?_⟩
  · obtain ⟨hdone, hzero⟩ := hbusy (hb ▸ h)
    exact ⟨hd hdone, hc.trans hzero⟩
  · rw [ho, hn]
    exact herr (hc ▸ h)

/-- A write to a target keeps the flags' invariant: an issue clears DONE and ERRCODE as it sets BUSY
(10_state.md R21), and no other write touches BUSY or ERRCODE. -/
theorem State.flagsInv_writeTarget (s : State) (v : Word) (g : Target) (hi : s.flagsInv) :
    (s.writeTarget v g).flagsInv := by
  cases g with
  | reg r =>
    cases r with
    | ctrl =>
      show (s.writeCtrl v).flagsInv
      cases h : (commandWord v).start with
      | false =>
        rw [s.writeCtrl_store v h]
        exact hi
      | true =>
        cases hb : s.busy with
        | false =>
          rw [s.writeCtrl_issue v h hb]
          exact ⟨Nat.zero_le _, fun _ => ⟨rfl, rfl⟩, fun hne => absurd rfl hne⟩
        | true =>
          rw [s.writeCtrl_drop v h hb]
          exact s.flagsInv_congr _ hi rfl rfl id rfl rfl
    | status =>
      exact s.flagsInv_congr _ hi rfl rfl
        (fun h => by simp [State.writeTarget, State.writeReg, h]) rfl rfl
    | thresh | ndist | lenIn =>
      simp only [State.writeTarget, State.writeReg]
      split
      · exact hi
      · exact hi
    | lenOut | nblk | errInfo | caps => exact hi
  | ibuf i =>
    simp only [State.writeTarget, State.writeIbuf]
    split
    · exact hi
    · exact hi
  | reserved | blockStart k | blockLength k | obuf j => exact hi

/-- The sequencer's turn keeps the flags' invariant: an error clears LEN_OUT and NBLK
(60_exceptions.md R146). -/
theorem sequencerTurn_flagsInv (s t : State) (hi : s.flagsInv) (h : sequencerTurn s = .next t) :
    t.flagsInv := by
  rcases sequencerTurn_cases s t h with ⟨-, rfl⟩ | ⟨-, ⟨c, rfl⟩ | ⟨e, info, rfl⟩⟩
  · exact hi
  · exact ⟨Nat.zero_le _, fun hb => absurd hb Bool.false_ne_true, fun hne => absurd rfl hne⟩
  · exact ⟨errorCode_le e, fun hb => absurd hb Bool.false_ne_true, fun _ => ⟨rfl, rfl⟩⟩

/-- The state after reset meets every invariant (70_reset_and_hazards.md R160, R161). -/
theorem State.resetOf_invariants (p : Params) (hp : p.wellFormed = true) :
    (State.resetOf p).flagsInv ∧ (State.resetOf p).storageInv ∧ (State.resetOf p).resultsInv := by
  refine ⟨⟨Nat.zero_le _, fun hb => absurd hb Bool.false_ne_true, fun hne => absurd rfl hne⟩,
    ⟨hp, rfl, fun a h => ?_, fun _ _ => rfl, fun _ _ => rfl⟩,
    ⟨hp, Nat.zero_le _, Nat.zero_le _, fun k _ b h => ?_⟩⟩
  · exact absurd h Bool.false_ne_true
  · cases h

/-! ### The statements -/

/-- Settles O53. -/
theorem flagsInvariantIsKept : Obligations.FlagsInvariantIsKept := by
  intro s t hi h
  obtain ⟨ts, hseq | ⟨r, d, rfl⟩ | ⟨off, v, hoff, h4, -, rfl⟩ | ⟨-, rfl⟩⟩ := step_next_cases s t h
  · exact sequencerTurn_flagsInv { s with schedule := ts } t hi hseq
  · exact hi
  · rw [State.hostWrite_eq _ off v hoff h4]
    exact State.flagsInv_writeTarget { s with schedule := ts } v _ hi
  · exact ⟨Nat.zero_le _, fun hb => absurd hb Bool.false_ne_true, fun hne => absurd rfl hne⟩

/-- Settles O25. -/
theorem busyFollowsIssueAndCompletion : Obligations.BusyFollowsIssueAndCompletion := by
  exact ⟨fun s t h => ⟨step_raises_busy_iff s t h, step_lowers_busy_iff s t h⟩,
    fun s => ⟨s.statusWord_busy, rfl⟩⟩

/-- Settles O28. -/
theorem inputsAreFrozenWhileBusy : Obligations.InputsAreFrozenWhileBusy := by
  intro s op hb
  obtain ⟨ht, hd, hl, hc, hm, hbusy, hp, -⟩ := (s.hostAccess_hostChanged op hb).frame
  exact ⟨ht, hd, hl, hc, hm, hbusy.trans hb, hp⟩

/-- Settles O29. -/
theorem completionIgnoresAccessesWhileBusy : Obligations.CompletionIgnoresAccessesWhileBusy :=
  fun s ops hb => sequencerTurn_hostChanged s _ (s.hostAccesses_hostChanged ops hb) hb

/-- Settles O30: the command computes the same, and both its ends carry the registers along. -/
theorem commandsIgnoreWhatTheyDoNotRead : Obligations.CommandsIgnoreWhatTheyDoNotRead := by
  intro s t d
  simp only [exec_eq_finish_commandResult, State.commandResult]
  constructor
  · rw [s.suppressResult_congr { s with ndist := d } rfl rfl rfl rfl]
    exact s.finish_mapNext (fun u => { u with ndist := d }) _ (fun _ => rfl) fun _ _ => rfl
  · rw [s.unsuppressResult_congr { s with thresh := t, ndist := d } rfl rfl rfl]
    exact s.finish_mapNext (fun u => { u with thresh := t, ndist := d }) _ (fun _ => rfl)
      fun _ _ => rfl

/-- Settles O31. -/
theorem everyCompletionRaisesDone : Obligations.EveryCompletionRaisesDone := by
  intro s t hb h
  rcases sequencerTurn_cases s t h with ⟨hidle, -⟩ | ⟨-, hends⟩
  · rw [hb] at hidle
    cases hidle
  · exact completes_frame s t hends

/-- Settles O5. -/
theorem stepRunsLatchedCommand : Obligations.StepRunsLatchedCommand := by
  intro s i hb hf _
  refine ⟨fun hs => ?_, fun ts hs => ?_⟩
  · rw [step_nil s hs, sequencerTurn_of_fetch s i hb hf]
  · rw [step_sequencer s ts hs]
    exact sequencerTurn_of_fetch _ i hb hf

/-- Settles O6: the turn that `withFetchWord` puts first is taken off the schedule again. -/
theorem fetchWordRunsCommand : Obligations.FetchWordRunsCommand := by
  intro s v w hv
  rcases s.withFetchWord_of_decode v w hv with ⟨hs, hfetch⟩ | hfetch
  · rw [hfetch, step_nil (s.issued w) hs]
    exact sequencerTurn_issued s w
  · rw [hfetch, step_sequencer _ s.schedule rfl]
    exact sequencerTurn_issued s w

/-- Settles O7. -/
theorem issueThenCompletionPerformsCommand : Obligations.IssueThenCompletionPerformsCommand := by
  intro s v w hv hb hs
  have hissue : step s = .next { State.issued { s with schedule := [.sequencer] } w with
      response := .okayWrite } := by
    rw [step_hostWrite s 0 v _ hs, State.hostWrite_ctrl,
      State.writeCtrl_of_decode { s with schedule := [.sequencer] } v w hv hb]
  rw [run_succ 1 s _ hissue, run_one, step_sequencer _ [] rfl]
  exact sequencerTurn_issued { s with schedule := [], response := .okayWrite } w

/-- Settles O8. -/
theorem stepServesEachTurn : Obligations.StepServesEachTurn := by
  intro s ts
  refine ⟨fun op hs => step_host s op ts hs, step_reset s ts, fun hb hs => ?_, fun hb hs => ?_,
    fun op hout => s.hostAccess_outside op ?_⟩
  · rw [step_sequencer s ts hs]
    exact sequencerTurn_idle _ hb
  · rw [step_nil s hs, sequencerTurn_idle s hb]
  · rw [windowOffset, if_neg (by omega)]

/-- Settles O52: the reset leaves the block idle, and an idle block's sequencer waits. -/
theorem resetAbandonsTheCommand : Obligations.ResetAbandonsTheCommand := by
  intro s ts _ hs
  refine ⟨State.resetInput { s with schedule := ts }, ?_, rfl, rfl, rfl, State.resetInput_irq _, rfl,
    rfl, rfl, rfl, fun j => ⟨State.resetInput_obufWord _ j, State.resetInput_block _ j⟩⟩
  rw [run_succ 1 s _ (step_reset s _ hs), run_one, step_sequencer _ ts rfl]
  exact sequencerTurn_idle _ rfl

/-- Settles O56. -/
theorem resetMeetsInvariants : Obligations.ResetMeetsInvariants :=
  State.resetOf_invariants

end Sys2Proof.Machine
end

section
/-! PROOFS. Host accesses: reads (20_memory.md R72), reserved offsets (R64 to R67),
the result cells (10_state.md R46, R52, R54), the parameter registers, and what no access writes. -/

namespace Sys2Proof.Machine

open Sys2Proof

/-! ### Fields of the registers -/

theorem State.ctrlWord_cmd (s : State) : s.ctrlWord.extractLsb' 4 4 = s.ctrlCmd := by
  simp only [State.ctrlWord]
  generalize s.ctrlIe = ie, s.ctrlCmd = c
  revert ie c
  decide

theorem State.statusWord_errCode (s : State) : s.statusWord.extractLsb' 4 4 = s.errCode := by
  simp only [State.statusWord]
  generalize s.errCode = e, s.bsyErr = y, s.done = d, s.busy = b
  revert e y d b
  decide

/-- A 16-bit register stands in the low half of what the host reads (10_state.md R30 to R36). -/
theorem half_setWidth_low (w : Half) : (w.setWidth 32).extractLsb' 0 16 = w := by
  rw [← BitVec.setWidth_eq_extractLsb' (by decide), BitVec.setWidth_setWidth_of_le _ (by decide),
    BitVec.setWidth_eq]

/-- A slot's word is the same number on the bus (20_memory.md R68). -/
theorem half_setWidth_eq_ofNat (w : Half) : w.setWidth 32 = BitVec.ofNat 32 w.toNat :=
  (BitVec.ofNat_toNat 32 w).symm

/-! ### Reserved offsets -/

/-- The offsets no register, entry or slot has (20_memory.md R64 to R67). -/
theorem targetOf_reserved (p : Params) (off : Nat) (h4 : off % 4 = 0)
    (h : 0x24 ≤ off ∧ off < 0x40000 ∨ 0x40000 + 8 * p.bMax ≤ off ∧ off < 0x80000 ∨
      0x80000 + 4 * bufDepth p ≤ off ∧ off < 0xC0000 ∨
      0xC0000 + 4 * bufDepth p ≤ off ∧ off < 0x100000) : targetOf p off = .reserved := by
  unfold targetOf
  rcases h with ⟨hl, hu⟩ | ⟨hl, hu⟩ | ⟨hl, hu⟩ | ⟨hl, hu⟩
  · rw [if_pos hu, regTarget]
    repeat rw [if_neg (by omega)]
  · rw [if_neg (by omega), if_pos hu, bbrfTarget, if_neg (by omega)]
  · rw [if_neg (by omega), if_neg (by omega), if_pos hu, if_neg (by omega)]
  · rw [if_neg (by omega), if_neg (by omega), if_neg (by omega), if_neg (by omega)]

/-! ### Reads of the result cells -/

/-- The BBRF lies in the window, at aligned offsets (00_scope.md R8, 20_memory.md R62). -/
theorem blockOffs_legal (p : Params) (k : Nat) (hp : p.wellFormed = true) (hk : k < p.bMax) :
    (bsOff k < 0x100000 ∧ bsOff k % 4 = 0) ∧ blOff k < 0x100000 ∧ blOff k % 4 = 0 := by
  obtain ⟨_, _, _, hd, _⟩ := (Params.wellFormed_iff p).1 hp
  simp only [bsOff, blOff] at *
  omega

/-- A host read of the start of a BBRF entry answers a result cell (20_memory.md R65). -/
theorem State.hostRead_bsOff (s : State) (k : Nat) (hp : s.params.wellFormed = true)
    (hk : k < s.params.bMax) : s.hostRead (bsOff k) = s.answerResult (bsOff k) := by
  obtain ⟨⟨hlt, h4⟩, -⟩ := blockOffs_legal s.params k hp hk
  rw [s.hostRead_eq _ hlt h4, targetOf_bsOff _ k hp hk]
  rfl

/-- A host read of the length of a BBRF entry answers a result cell (20_memory.md R65). -/
theorem State.hostRead_blOff (s : State) (k : Nat) (hp : s.params.wellFormed = true)
    (hk : k < s.params.bMax) : s.hostRead (blOff k) = s.answerResult (blOff k) := by
  obtain ⟨-, hlt, h4⟩ := blockOffs_legal s.params k hp hk
  rw [s.hostRead_eq _ hlt h4, targetOf_blOff _ k hp hk]
  rfl

/-- An unwritten slot answers the next draw (10_state.md R54). -/
theorem State.answerSlot_unwritten (s : State) (off : Nat) (h : Memory.slot s.mem off = none) :
    s.answerSlot off = s.answerDraw := by
  simp only [State.answerSlot, h]

/-- A result cell answers the next draw while BUSY = 1, and where it is unwritten
(10_state.md R46, R52, R54). -/
theorem State.answerResult_unknown (s : State) (off : Nat)
    (h : s.busy = true ∨ Memory.slot s.mem off = none) : s.answerResult off = s.answerDraw := by
  cases hb : s.busy with
  | true => exact if_pos hb
  | false =>
    rw [s.answerResult_idle off hb]
    exact s.answerSlot_unwritten off (h.resolve_left (by simp [hb]))

/-- A block read from the BBRF is what the two fields of its entry hold (10_state.md R41 to R43). -/
theorem State.block_eq_some_iff (s : State) (k : Nat) (b : Block) :
    s.block k = some b ↔
      ∃ a l, Memory.slot s.mem (bsOff k) = some a ∧ Memory.slot s.mem (blOff k) = some l ∧
        b = ⟨a.toNat, l.toNat⟩ := by
  unfold State.block
  cases Memory.slot s.mem (bsOff k) with
  | none => simp
  | some a =>
    cases Memory.slot s.mem (blOff k) with
    | none => simp
    | some l => simp [eq_comm]

/-! ### What no host access writes -/

/-- No write touches the result registers (10_state.md R34 to R36). -/
theorem State.writeTarget_results (s : State) (v : Word) (g : Target) :
    (s.writeTarget v g).lenOut = s.lenOut ∧ (s.writeTarget v g).nblk = s.nblk ∧
      (s.writeTarget v g).errInfo = s.errInfo := by
  cases g with
  | reg r =>
    cases r with
    | ctrl =>
      obtain ⟨-, -, -, -, ho, hn, he, -⟩ := s.writeCtrl_frame v
      exact ⟨ho, hn, he⟩
    | status | lenOut | nblk | errInfo | caps => exact ⟨rfl, rfl, rfl⟩
    | thresh | ndist | lenIn =>
      simp only [State.writeTarget, State.writeReg]
      split <;> exact ⟨rfl, rfl, rfl⟩
  | ibuf i =>
    simp only [State.writeTarget, State.writeIbuf]
    split <;> exact ⟨rfl, rfl, rfl⟩
  | reserved | blockStart k | blockLength k | obuf j => exact ⟨rfl, rfl, rfl⟩

/-- The one storage a write reaches is an IBUF slot, on an idle block (10_state.md R46, R49, R51).
-/
theorem State.writeTarget_mem (s : State) (v : Word) (g : Target) :
    (s.writeTarget v g).mem = s.mem ∨ ∃ i, g = .ibuf i ∧ s.busy = false ∧
      (s.writeTarget v g).mem = Memory.writeSlot s.mem (ibufOff i) (v.setWidth 16) := by
  cases g with
  | reg r =>
    left
    cases r with
    | ctrl =>
      obtain ⟨-, -, -, -, -, -, -, hm, -⟩ := s.writeCtrl_frame v
      exact hm
    | status | lenOut | nblk | errInfo | caps => rfl
    | thresh | ndist | lenIn =>
      simp only [State.writeTarget, State.writeReg]
      split <;> rfl
  | ibuf i =>
    cases hb : s.busy with
    | true =>
      left
      obtain ⟨_, _, _, _, hw⟩ := s.writeTarget_busy v (.ibuf i) hb
      rw [hw]
    | false =>
      refine .inr ⟨i, rfl, rfl, ?_⟩
      rw [State.writeTarget, s.writeIbuf_idle i v hb]
  | reserved | blockStart k | blockLength k | obuf j => exact .inl rfl

/-- LCMD changes only at an issue on an idle block (10_state.md R21, R55). -/
theorem State.writeTarget_lcmd (s : State) (v : Word) (g : Target) :
    (s.writeTarget v g).lcmd = s.lcmd ∨ s.busy = false ∧ (s.writeTarget v g).busy = true := by
  cases hb : s.busy with
  | true =>
    left
    obtain ⟨_, _, _, _, hw⟩ := s.writeTarget_busy v g hb
    rw [hw]
  | false =>
    cases g with
    | reg r =>
      cases r with
      | ctrl =>
        show (s.writeCtrl v).lcmd = _ ∨ _ ∧ (s.writeCtrl v).busy = true
        cases h : (commandWord v).start with
        | false => exact .inl (by rw [s.writeCtrl_store v h])
        | true => exact .inr ⟨rfl, by rw [s.writeCtrl_issue v h hb]⟩
      | status | lenOut | nblk | errInfo | caps => exact .inl rfl
      | thresh | ndist | lenIn =>
        simp only [State.writeTarget, State.writeReg, hb]
        exact .inl rfl
    | ibuf i => exact .inl (by rw [State.writeTarget, s.writeIbuf_idle i v hb])
    | reserved | blockStart k | blockLength k | obuf j => exact .inl rfl

/-- A write at an aligned offset leaves the bytes outside the IBUF window (10_state.md R44, R51). -/
theorem State.read_writeTarget_outside (s : State) (v : Word) (off a : Nat)
    (hp : s.params.wellFormed = true) (h4 : off % 4 = 0) (ha : a < 0x80000 ∨ 0xC0000 ≤ a) :
    Memory.read (s.writeTarget v (targetOf s.params off)).mem a = Memory.read s.mem a := by
  rcases s.writeTarget_mem v (targetOf s.params off) with hm | ⟨i, hg, -, hm⟩
  · rw [hm]
  · obtain ⟨-, hi⟩ := targetOf_eq_ibuf _ off i hg h4
    obtain ⟨_, _, _, hd, _⟩ := (Params.wellFormed_iff s.params).1 hp
    rw [bufDepth] at hi
    rw [hm, Memory.read_writeSlot_other _ _ _ _ (by rw [ibufOff]; omega) (by rw [ibufOff]; omega)]

/-! ### The statements -/

/-- Settles O11. -/
theorem readsHaveNoSideEffect : Obligations.ReadsHaveNoSideEffect := by
  intro s op hread
  rcases s.hostAccess_cases op with ⟨r, h⟩ | h | ⟨off, v, -, -, -, hwrite, -⟩
  · exact ⟨r, s.draws, h, Nat.le_refl _, Nat.le_succ _⟩
  · exact ⟨_, _, h, Nat.le_succ _, Nat.le_refl _⟩
  · rw [hread] at hwrite
    cases hwrite

/-- Settles O16. -/
theorem reservedOffsetsAreInert : Obligations.ReservedOffsetsAreInert := by
  intro s off v hp h4 hoff
  have hin : off < 0x100000 := by
    obtain ⟨_, _, _, hd, _⟩ := (Params.wellFormed_iff s.params).1 hp
    omega
  have ht := targetOf_reserved s.params off h4 hoff
  rw [s.hostRead_eq off hin h4, s.hostWrite_eq off v hin h4, ht]
  exact ⟨rfl, rfl⟩

/-- Settles O19. -/
theorem blockEntriesReadThrough : Obligations.BlockEntriesReadThrough := by
  intro s k b hp hk hb hblock
  obtain ⟨a, l, hstart, hlen, rfl⟩ := (s.block_eq_some_iff k b).1 hblock
  constructor
  · calc s.hostRead (bsOff k)
      _ = s.answerResult (bsOff k) := s.hostRead_bsOff k hp hk
      _ = s.answerSlot (bsOff k) := s.answerResult_idle _ hb
      _ = s.answer (a.setWidth 32) := s.answerSlot_written _ a hstart
      _ = s.answer (BitVec.ofNat 32 a.toNat) := by rw [half_setWidth_eq_ofNat]
  · calc s.hostRead (blOff k)
      _ = s.answerResult (blOff k) := s.hostRead_blOff k hp hk
      _ = s.answerSlot (blOff k) := s.answerResult_idle _ hb
      _ = s.answer (l.setWidth 32) := s.answerSlot_written _ l hlen
      _ = s.answer (BitVec.ofNat 32 l.toNat) := by rw [half_setWidth_eq_ofNat]

/-- Settles O20: each of the four reads comes to `State.answerDraw`. -/
theorem unknownReadsAnswerTheNextDraw : Obligations.UnknownReadsAnswerTheNextDraw := by
  intro s off i hp h
  suffices hdraw : s.hostRead off = s.answerDraw from hdraw
  rcases h with ⟨rfl, hi, hu⟩ | ⟨rfl, hi, hu⟩ | ⟨rfl, hi, hu⟩ | ⟨rfl, hi, hu⟩
  · exact (s.hostRead_obufOff i hp hi).trans (s.answerResult_unknown _ hu)
  · exact (s.hostRead_bsOff i hp hi).trans (s.answerResult_unknown _ hu)
  · exact (s.hostRead_blOff i hp hi).trans (s.answerResult_unknown _ hu)
  · exact (s.hostRead_ibufOff i hp hi).trans (s.answerSlot_unwritten _ hu)

/-- Settles O27. -/
theorem hostAccessesKeepResults : Obligations.HostAccessesKeepResults := by
  intro s op hp
  rcases s.hostAccess_cases op with ⟨r, h⟩ | h | ⟨off, v, -, h4, -, -, h⟩
  · rw [h]
    exact ⟨rfl, rfl, rfl, rfl, fun _ _ => rfl, fun hne => absurd rfl hne⟩
  · rw [h]
    exact ⟨rfl, rfl, rfl, rfl, fun _ _ => rfl, fun hne => absurd rfl hne⟩
  · obtain ⟨ho, hn, he⟩ := s.writeTarget_results v (targetOf s.params off)
    rw [h]
    exact ⟨ho, hn, he, s.writeTarget_params v _,
      fun a ha => s.read_writeTarget_outside v off a hp h4 ha,
      fun hne => (s.writeTarget_lcmd v _).resolve_left hne⟩

/-- Settles O15. -/
theorem parameterWritesStoreLowHalf : Obligations.ParameterWritesStoreLowHalf := by
  intro s v hb
  have low : v.extractLsb' 0 16 = v.setWidth 16 :=
    (BitVec.setWidth_eq_extractLsb' (by decide)).symm
  rw [low]
  refine ⟨(s.hostWrite_regOff .thresh v).trans ?_, (s.hostWrite_regOff .ndist v).trans ?_,
    (s.hostWrite_regOff .lenIn v).trans ?_⟩
  all_goals simp only [State.writeReg, hb, Bool.false_eq_true, if_false]

/-- Settles O23. -/
theorem registerFieldsReadInPlace : Obligations.RegisterFieldsReadInPlace := by
  intro s
  exact ⟨s.ctrlWord_cmd, s.ctrlWord_ie, s.statusWord_busy, s.statusWord_done,
    s.statusWord_bsyErr, s.statusWord_errCode, half_setWidth_low _, half_setWidth_low _,
    half_setWidth_low _, half_setWidth_low _, half_setWidth_low _, half_setWidth_low _⟩

end Sys2Proof.Machine
end

section
/-! PROOFS. The slots a command reads (10_state.md R54, 40_suppress.md R106, 41_unsuppress.md R125):
when a command faults and on which slot, and the completion that is taken because it does not. -/

namespace Sys2Proof.Machine

open Sys2Proof

/-! ### Written slots, and their place in the order of the reads -/

/-- IBUF slot `j` is written (10_state.md R54). -/
abbrev State.written (s : State) (j : Nat) : Prop :=
  (Memory.slot s.mem (ibufOff j)).isSome = true

theorem State.not_written_iff (s : State) (j : Nat) :
    ¬ s.written j ↔ Memory.slot s.mem (ibufOff j) = none := by
  rw [State.written, Bool.not_eq_true, Option.isSome_eq_false_iff, Option.isNone_iff_eq_none]

/-- A slot of a stream of `b` blocks is a header word, a start, a length or a sample (30_encoding.md
R97). -/
theorem streamSlot_cases (b j : Nat) :
    (j = 0 ∨ j = 1) ∨ (∃ k < b, j = 2 + k) ∨ (∃ k < b, j = 2 + b + k) ∨ 2 + 2 * b ≤ j := by
  obtain h | h | h | h :
      j < 2 ∨ (2 ≤ j ∧ j < 2 + b) ∨ (2 + b ≤ j ∧ j < 2 + 2 * b) ∨ 2 + 2 * b ≤ j := by omega
  · exact .inl (by omega)
  · exact .inr (.inl ⟨j - 2, by omega, by omega⟩)
  · exact .inr (.inr (.inl ⟨j - 2 - b, by omega, by omega⟩))
  · exact .inr (.inr (.inr h))

theorem readRank_header (b j : Nat) (h : j < 2) : readRank b j = j := by
  rw [readRank, if_pos h]

theorem readRank_start (b k : Nat) (h : k < b) : readRank b (2 + k) = 2 + 2 * k := by
  rw [readRank, if_neg (by omega), if_pos (by omega)]
  omega

theorem readRank_length (b k : Nat) (h : k < b) : readRank b (2 + b + k) = 3 + 2 * k := by
  rw [readRank, if_neg (by omega), if_neg (by omega), if_pos (by omega)]
  omega

theorem readRank_sample (b j : Nat) (h : 2 + 2 * b ≤ j) : readRank b j = j := by
  rw [readRank, if_neg (by omega), if_neg (by omega), if_neg (by omega)]

/-- No two words have the same place (41_unsuppress.md R125). -/
theorem readRank_injective (b : Nat) : Function.Injective (readRank b) := by
  intro i j h
  unfold readRank at h
  repeat' split at h
  all_goals omega

/-- The words whose place in the order is before `n` are written once the header words, the blocks'
and the samples before that place are. -/
theorem State.written_of_readRank_lt (s : State) (b n j : Nat) (h0 : s.written 0) (h1 : s.written 1)
    (hstart : ∀ k < b, 2 + 2 * k < n → s.written (2 + k))
    (hlength : ∀ k < b, 3 + 2 * k < n → s.written (2 + b + k))
    (hsample : ∀ i, 2 + 2 * b ≤ i → i < n → s.written i) (hj : readRank b j < n) : s.written j := by
  rcases streamSlot_cases b j with (rfl | rfl) | ⟨k, hk, rfl⟩ | ⟨k, hk, rfl⟩ | h
  · exact h0
  · exact h1
  · exact hstart k hk (readRank_start b k hk ▸ hj)
  · exact hlength k hk (readRank_length b k hk ▸ hj)
  · exact hsample j h (readRank_sample b j h ▸ hj)

/-- UNSUPPRESS reads inside its stream (41_unsuppress.md R126, R128). -/
theorem streamReads.lt_length {p : Params} {ws : List Half} {j : Nat} (h : streamReads p ws j) :
    j < ws.length := by
  obtain ⟨⟨hlen, -⟩, rfl | ⟨-, rfl | ⟨⟨-, -, hfit⟩, ⟨k, hk, -, hj⟩ | ⟨-, -, -, hj⟩⟩⟩⟩ := h <;> omega

/-- A valid stream is read whole (41_unsuppress.md R125). -/
theorem streamReads_of_streamValid (p : Params) (ws : List Half) (j : Nat) (hv : streamValid p ws)
    (hj : j < ws.length) : streamReads p ws j := by
  obtain ⟨hL, hN, hB, hblocks, htotal⟩ := hv
  rcases streamSlot_cases (streamB ws).toNat j with (rfl | rfl) | ⟨k, hk, rfl⟩ | ⟨k, hk, rfl⟩ | h
  · exact ⟨hL, .inl rfl⟩
  · exact ⟨hL, .inr ⟨hN, .inl rfl⟩⟩
  · exact ⟨hL, .inr ⟨hN, .inr ⟨hB, .inl ⟨k, hk, fun i hi => hblocks i (hi.trans hk), .inl rfl⟩⟩⟩⟩
  · exact ⟨hL, .inr ⟨hN, .inr ⟨hB, .inl ⟨k, hk, fun i hi => hblocks i (hi.trans hk), .inr rfl⟩⟩⟩⟩
  · exact ⟨hL, .inr ⟨hN, .inr ⟨hB, .inr ⟨hblocks, htotal, h, hj⟩⟩⟩⟩

/-! ### UNSUPPRESS stops at its first unwritten word -/

/-- Word `j` is unwritten, UNSUPPRESS comes to read it, and every word before it in the order of the
reads is written (41_unsuppress.md R125). -/
def State.firstUnwritten (s : State) (ws : List Half) (j : Nat) : Prop :=
  streamReads s.params ws j ∧ Memory.slot s.mem (ibufOff j) = none ∧
    ∀ i < ws.length, readRank (streamB ws).toNat i < readRank (streamB ws).toNat j → s.written i

/-- There is at most one first unwritten word: of two, neither can be read before the other. -/
theorem State.firstUnwritten.unique {s : State} {ws : List Half} {i j : Nat}
    (hi : s.firstUnwritten ws i) (hj : s.firstUnwritten ws j) : i = j := by
  obtain ⟨hreadi, hnonei, hbeforei⟩ := hi
  obtain ⟨hreadj, hnonej, hbeforej⟩ := hj
  have hij := mt (hbeforej i hreadi.lt_length) ((s.not_written_iff i).2 hnonei)
  have hji := mt (hbeforei j hreadj.lt_length) ((s.not_written_iff j).2 hnonej)
  exact readRank_injective (streamB ws).toNat (by omega)

/-- UNSUPPRESS, with the answer `r`, stopped at the first unwritten word, or found every word it
came to written and did not stop at a slot, and it succeeded on a valid stream only. -/
def State.readsStream (s : State) (ws : List Half) (r : Except Stop CommandResult) : Prop :=
  (∃ j, s.firstUnwritten ws j ∧ r = .error (.unwritten j)) ∨
    (∀ j, streamReads s.params ws j → s.written j) ∧ (∀ j, r ≠ .error (.unwritten j)) ∧
      ∀ c, r = .ok c → streamValid s.params ws

theorem State.readsStream_of_raise (s : State) (ws : List Half) (r : Except Stop CommandResult)
    (e : CommandError) (info : Half) (hr : r = .error (.raise e info))
    (hw : ∀ j, streamReads s.params ws j → s.written j) : s.readsStream ws r := by
  subst hr
  exact .inr ⟨hw, nofun, nofun⟩

/-- The body of UNSUPPRESS stops at block `k`, the first with an unwritten word or a failed check
(41_unsuppress.md R129). -/
theorem State.unsuppressBody_readsStream_block (s : State) (ws : List Half)
    (h : s.agreesWithStream ws) (hL : streamLengthOk s.params ws)
    (hN : streamNOk s.params ws) (hB : streamBOk s.params ws)
    (h0 : s.written 0) (h1 : s.written 1) (k : Nat) (hk : k < (streamB ws).toNat)
    (hw : ∀ i < k, s.written (2 + i) ∧ s.written (2 + (streamB ws).toNat + i))
    (hok : ∀ i < k, streamBlockOk ws i)
    (hstop : ¬ (s.written (2 + k) ∧ s.written (2 + (streamB ws).toNat + k) ∧ streamBlockOk ws k)) :
    s.readsStream ws (s.unsuppressBody ws.length (streamN ws).toNat (streamB ws).toNat) := by
  have ⟨_, _, hfit⟩ := hB
  have hword : ∀ i < k, s.hasWord ws (2 + i) ∧ s.hasWord ws (2 + (streamB ws).toNat + i) :=
    fun i hi => ⟨h.hasWord _ (by omega) (hw i hi).1, h.hasWord _ (by omega) (hw i hi).2⟩
  obtain ⟨hnone, hread⟩ := s.unsuppressBody_block ws k hN.1 hk hword hok
  by_cases hs : s.written (2 + k)
  case neg =>
    rw [s.not_written_iff] at hs
    refine .inl ⟨2 + k,
      ⟨⟨hL, .inr ⟨hN, .inr ⟨hB, .inl ⟨k, hk, hok, .inl rfl⟩⟩⟩⟩, hs, fun i _ hi => ?_⟩, hnone hs⟩
    rw [readRank_start _ k hk] at hi
    exact s.written_of_readRank_lt _ _ i h0 h1 (fun i _ hi => (hw i (by omega)).1)
      (fun i _ hi => (hw i (by omega)).2) (fun i _ _ => by omega) hi
  obtain ⟨hnone, hraise⟩ := hread (h.hasWord _ (by omega) hs)
  by_cases hl : s.written (2 + (streamB ws).toNat + k)
  case neg =>
    rw [s.not_written_iff] at hl
    refine .inl ⟨2 + (streamB ws).toNat + k,
      ⟨⟨hL, .inr ⟨hN, .inr ⟨hB, .inl ⟨k, hk, hok, .inr rfl⟩⟩⟩⟩, hl, fun i _ hi => ?_⟩, hnone hl⟩
    rw [readRank_length _ k hk] at hi
    refine s.written_of_readRank_lt _ _ i h0 h1 (fun i _ hi => ?_)
      (fun i _ hi => (hw i (by omega)).2) (fun i _ _ => by omega) hi
    obtain rfl | hlt : i = k ∨ i < k := by omega
    · exact hs
    · exact (hw i hlt).1
  have hbad : ¬ streamBlockOk ws k := fun hk => hstop ⟨hs, hl, hk⟩
  refine s.readsStream_of_raise ws _ _ _ (hraise (h.hasWord _ (by omega) hl) hbad) fun j hj => ?_
  obtain ⟨-, rfl | ⟨-, rfl | ⟨-, ⟨k', hk', hbefore, hj⟩ | ⟨hall, -⟩⟩⟩⟩ := hj
  · exact h0
  · exact h1
  · have hle : ¬ k < k' := fun hlt => hbad (hbefore k hlt)
    obtain rfl | hlt : k' = k ∨ k' < k := by omega
    · obtain rfl | rfl := hj
      · exact hs
      · exact hl
    · obtain rfl | rfl := hj
      · exact (hw k' hlt).1
      · exact (hw k' hlt).2
  · exact absurd (hall k hk) hbad

/-- The body of UNSUPPRESS once every block is written and sound: it stops at ERR_SIZE_MISMATCH or
at the first unwritten sample, or succeeds (41_unsuppress.md R130, R131). -/
theorem State.unsuppressBody_readsStream_samples (s : State) (ws : List Half)
    (h : s.agreesWithStream ws) (hL : streamLengthOk s.params ws) (hN : streamNOk s.params ws)
    (hB : streamBOk s.params ws) (h0 : s.written 0) (h1 : s.written 1)
    (hw : ∀ i < (streamB ws).toNat, s.written (2 + i) ∧ s.written (2 + (streamB ws).toNat + i))
    (hok : ∀ i < (streamB ws).toNat, streamBlockOk ws i) :
    s.readsStream ws (s.unsuppressBody ws.length (streamN ws).toNat (streamB ws).toNat) := by
  have ⟨hB0, _, hfit⟩ := hB
  have hword : ∀ i < (streamB ws).toNat,
      s.hasWord ws (2 + i) ∧ s.hasWord ws (2 + (streamB ws).toNat + i) :=
    fun i hi => ⟨h.hasWord _ (by omega) (hw i hi).1, h.hasWord _ (by omega) (hw i hi).2⟩
  obtain ⟨hraise, hread⟩ := s.unsuppressBody_samples ws hN.1 hB0 hfit hword hok
  by_cases htotal : streamTotalOk ws
  case neg =>
    refine s.readsStream_of_raise ws _ _ _ (hraise htotal) fun j hj => ?_
    obtain ⟨-, rfl | ⟨-, rfl | ⟨-, ⟨k, hk, -, rfl | rfl⟩ | ⟨-, hgood, -⟩⟩⟩⟩ := hj
    · exact h0
    · exact h1
    · exact (hw k hk).1
    · exact (hw k hk).2
    · exact absurd hgood htotal
  rw [hread htotal]
  cases hx : s.ibufWords (2 + 2 * (streamB ws).toNat) (ws.length - (2 + 2 * (streamB ws).toNat)) with
  | error e =>
    obtain ⟨j, hj, rfl, hnone, hbefore⟩ := (s.ibufWords_eq_error _ _ e).1 hx
    refine .inl ⟨_, ⟨⟨hL, .inr ⟨hN, .inr ⟨hB, .inr ⟨hok, htotal, by omega, by omega⟩⟩⟩⟩, hnone,
      fun i _ hi => ?_⟩, rfl⟩
    rw [readRank_sample _ (_ + j) (by omega)] at hi
    refine s.written_of_readRank_lt _ _ i h0 h1 (fun i hb _ => (hw i hb).1)
      (fun i hb _ => (hw i hb).2) (fun i hge hlt => ?_) hi
    obtain ⟨m, rfl⟩ := Nat.exists_eq_add_of_le hge
    exact hbefore m (by omega)
  | ok xs =>
    obtain ⟨hlen, hall⟩ := (s.ibufWords_eq_ok _ _ xs).1 hx
    refine .inr ⟨fun j hj => ?_, nofun, fun _ _ => ⟨hL, hN, hB, hok, htotal⟩⟩
    obtain ⟨-, rfl | ⟨-, rfl | ⟨-, ⟨k, hk, -, rfl | rfl⟩ | ⟨-, -, hge, hlt⟩⟩⟩⟩ := hj
    · exact h0
    · exact h1
    · exact (hw k hk).1
    · exact (hw k hk).2
    · obtain ⟨m, rfl⟩ := Nat.exists_eq_add_of_le hge
      rw [State.written, hall m (by omega), List.getElem?_eq_getElem (by omega)]
      rfl

/-- UNSUPPRESS reads its stream in the order of the pseudocode, and stops at the first unwritten
word it comes to (41_unsuppress.md R125). -/
theorem State.unsuppressResult_readsStream (s : State) (ws : List Half) (h : s.agreesWithStream ws) :
    s.readsStream ws s.unsuppressResult := by
  by_cases hL : streamLengthOk s.params ws
  case neg =>
    exact s.readsStream_of_raise ws _ _ _ (s.unsuppressResult_length ws h.1 hL)
      fun j hj => absurd hj.1 hL
  have hlen : 2 ≤ ws.length := hL.1
  obtain ⟨hnone, hread⟩ := s.unsuppressResult_legal ws h.1 hL
  by_cases h0 : s.written 0
  case neg =>
    rw [s.not_written_iff] at h0
    refine .inl ⟨0, ⟨⟨hL, .inl rfl⟩, h0, fun i _ hi => ?_⟩, hnone h0⟩
    exact absurd hi (Nat.not_lt_zero _)
  obtain ⟨hraise, hread⟩ := hread (h.hasWord 0 (by omega) h0)
  by_cases hN : streamNOk s.params ws
  case neg =>
    refine s.readsStream_of_raise ws _ _ _ (hraise hN) fun j hj => ?_
    obtain ⟨-, rfl | ⟨hgood, -⟩⟩ := hj
    · exact h0
    · exact absurd hgood hN
  obtain ⟨hnone, hread⟩ := hread hN
  by_cases h1 : s.written 1
  case neg =>
    rw [s.not_written_iff] at h1
    refine .inl ⟨1, ⟨⟨hL, .inr ⟨hN, .inl rfl⟩⟩, h1, fun i _ hi => ?_⟩, hnone h1⟩
    have hi0 : readRank (streamB ws).toNat i = readRank (streamB ws).toNat 0 := by
      rw [readRank_header _ 1 (by omega)] at hi
      rw [readRank_header _ 0 (by omega)]
      omega
    obtain rfl := readRank_injective _ hi0
    exact h0
  obtain ⟨hraise, hread⟩ := hread (h.hasWord 1 (by omega) h1)
  by_cases hB : streamBOk s.params ws
  case neg =>
    refine s.readsStream_of_raise ws _ _ _ (hraise hB) fun j hj => ?_
    obtain ⟨-, rfl | ⟨-, rfl | ⟨hgood, -⟩⟩⟩ := hj
    · exact h0
    · exact h1
    · exact absurd hgood hB
  rw [hread hB]
  by_cases hblocks : ∀ k < (streamB ws).toNat,
      s.written (2 + k) ∧ s.written (2 + (streamB ws).toNat + k) ∧ streamBlockOk ws k
  · exact s.unsuppressBody_readsStream_samples ws h hL hN hB h0 h1
      (fun i hi => ⟨(hblocks i hi).1, (hblocks i hi).2.1⟩) fun i hi => (hblocks i hi).2.2
  · simp only [not_forall, exists_prop] at hblocks
    obtain ⟨hk, hstop⟩ := Nat.find_spec hblocks
    have hbefore := fun i (hi : i < Nat.find hblocks) =>
      not_not.1 (not_and.1 (Nat.find_min hblocks hi) (hi.trans hk))
    exact s.unsuppressBody_readsStream_block ws h hL hN hB h0 h1 _ hk
      (fun i hi => ⟨(hbefore i hi).1, (hbefore i hi).2.1⟩) (fun i hi => (hbefore i hi).2.2) hstop

/-! ### Which slot a fault names -/

theorem exec_fault_iff (i : Instr) (s : State) (j : Nat) :
    exec i s = .fault (.unwrittenIbuf j) ↔ s.commandResult i = .error (.unwritten j) := by
  rw [exec_eq_finish_commandResult, s.finish_eq_fault]
  constructor
  · rintro ⟨i, hr, hf⟩
    cases hf
    exact hr
  · exact fun hr => ⟨j, hr, rfl⟩

/-- Reading a waveform stops at its lowest unwritten slot. -/
theorem State.ibufWords_unwritten_iff (s : State) (n j : Nat) :
    s.ibufWords 0 n = .error (.unwritten j) ↔
      j < n ∧ Memory.slot s.mem (ibufOff j) = none ∧ s.ibufWritten j := by
  simp only [s.ibufWords_eq_error, Nat.zero_add, Stop.unwritten.injEq]
  constructor
  · rintro ⟨i, hi, rfl, hnone, hbefore⟩
    exact ⟨hi, hnone, hbefore⟩
  · rintro ⟨hj, hnone, hbefore⟩
    exact ⟨j, hj, rfl, hnone, hbefore⟩

/-- SUPPRESS stops at an unwritten slot once its prologue passes (40_suppress.md R106). -/
theorem State.suppressResult_unwritten_iff (s : State) (j : Nat) :
    s.suppressResult = .error (.unwritten j) ↔ s.lenIn.toNat ≤ s.params.nMax ∧ j < s.lenIn.toNat ∧
      Memory.slot s.mem (ibufOff j) = none ∧ s.ibufWritten j := by
  rcases s.suppressPrologue_cases with ⟨hle, hp⟩ | ⟨hlt, hp⟩
  · rw [← s.ibufWords_unwritten_iff]
    cases hw : s.ibufWords 0 s.lenIn.toNat <;> simp [State.suppressResult, hp, hw, hle]
  · simp [State.suppressResult, hp, Nat.not_le.2 hlt]

/-- SUPPRESS_NN stops at an unwritten slot once its prologue passes and D is not negative
(40_suppress.md R106, R117). -/
theorem State.suppressNNResult_unwritten_iff (s : State) (j : Nat) :
    s.suppressNNResult = .error (.unwritten j) ↔
      s.lenIn.toNat ≤ s.params.nMax ∧ 0 ≤ s.ndist.toInt ∧ j < s.lenIn.toNat ∧
        Memory.slot s.mem (ibufOff j) = none ∧ s.ibufWritten j := by
  rcases s.suppressPrologue_cases with ⟨hle, hp⟩ | ⟨hlt, hp⟩
  · by_cases hd : s.ndist.toInt < 0
    · simp [State.suppressNNResult, hp, sext16, hd]
    · rw [← s.ibufWords_unwritten_iff]
      cases hw : s.ibufWords 0 s.lenIn.toNat <;>
        simp [State.suppressNNResult, hp, sext16, hw, hle, hd, Int.not_lt.1 hd]
  · simp [State.suppressNNResult, hp, Nat.not_le.2 hlt]

/-- UNSUPPRESS stops exactly at the first unwritten word of its stream (41_unsuppress.md R125). -/
theorem State.unsuppressResult_unwritten_iff (s : State) (ws : List Half) (h : s.agreesWithStream ws)
    (j : Nat) : s.unsuppressResult = .error (.unwritten j) ↔ s.firstUnwritten ws j := by
  rcases s.unsuppressResult_readsStream ws h with ⟨i, hi, hr⟩ | ⟨hw, hr, -⟩
  · rw [hr, Except.error.injEq, Stop.unwritten.injEq]
    constructor
    · rintro rfl
      exact hi
    · exact hi.unique
  · refine iff_of_false (hr j) fun ⟨hread, hnone, _⟩ => ?_
    exact (s.not_written_iff j).2 hnone (hw j hread)

/-! ### A completion whose inputs are written -/

/-- A command that finds the slots it reads written completes (10_state.md R54). -/
theorem sequencerTurn_of_inputsReady (s : State) (hb : s.busy = true) (h : s.inputsReady) :
    ∃ t, sequencerTurn s = .next t := by
  unfold State.inputsReady at h
  cases hf : s.fetch with
  | error r => exact ⟨_, sequencerTurn_of_reject s r hb hf⟩
  | ok i =>
    rw [sequencerTurn_of_fetch s i hb hf]
    refine (exec_cases i s).resolve_right fun ⟨j, hfault⟩ => ?_
    rw [exec_fault_iff] at hfault
    rw [hf] at h
    cases i with
    | suppress =>
      obtain ⟨hle, hj, hnone, -⟩ := (s.suppressResult_unwritten_iff j).1 hfault
      exact (s.not_written_iff j).2 hnone (h hle j hj)
    | suppressNN =>
      obtain ⟨hle, hd, hj, hnone, -⟩ := (s.suppressNNResult_unwritten_iff j).1 hfault
      exact (s.not_written_iff j).2 hnone (h hle hd j hj)
    | unsuppress =>
      obtain ⟨ws, hws, hw⟩ := h
      obtain ⟨hread, hnone, -⟩ := (s.unsuppressResult_unwritten_iff ws hws j).1 hfault
      exact (s.not_written_iff j).2 hnone (hw j hread)

/-- Host accesses while BUSY = 1 leave the inputs as they are (20_memory.md R77). -/
theorem State.hostChanged.inputsReady {s u : State} (h : s.hostChanged u) (hr : s.inputsReady) :
    u.inputsReady := by
  obtain ⟨_, _, _, _, _, _, rfl⟩ := h
  exact hr

/-- A run over the host accesses of a schedule comes to the sequencer's turn, with nothing scheduled
and nothing changed that the running command reads. -/
theorem run_hostTurns (s : State) (ops : List HostOp) (hb : s.busy = true)
    (hs : s.schedule = ops.map Turn.host) :
    ∃ u, State.hostChanged { s with schedule := [] } u ∧
      Host.Core.run Sys2Proof.core (ops.length + 1) s = sequencerTurn u := by
  induction ops generalizing s with
  | nil =>
    refine ⟨s, ?_, (run_one s).trans (step_nil s hs)⟩
    rw [List.map_nil] at hs
    rw [← hs]
    exact State.hostChanged.refl s
  | cons op ops ih =>
    have hop := State.hostAccess_hostChanged { s with schedule := ops.map Turn.host } op hb
    obtain ⟨-, -, -, -, -, hbusy, -, hsched⟩ := hop.frame
    obtain ⟨u, hu, hrun⟩ := ih _ (hbusy.trans hb) hsched
    refine ⟨u, State.hostChanged.trans ?_ hu, (run_succ _ s _ (step_host s op _ hs)).trans hrun⟩
    obtain ⟨_, _, _, _, _, _, hop⟩ := hop
    rw [hop]
    exact ⟨_, _, _, _, _, _, rfl⟩

/-! ### The statements -/

/-- Settles O39. -/
theorem commandFaultsOnlyOnUnwrittenSlot : Obligations.CommandFaultsOnlyOnUnwrittenSlot := by
  intro s
  refine ⟨fun j => ⟨?_, ?_⟩, fun ws hws j => ?_, fun hw => ?_, fun i r => ?_⟩
  · exact (exec_fault_iff .suppress s j).trans (s.suppressResult_unwritten_iff j)
  · exact (exec_fault_iff .suppressNN s j).trans (s.suppressNNResult_unwritten_iff j)
  · exact (exec_fault_iff .unsuppress s j).trans (s.unsuppressResult_unwritten_iff ws hws j)
  · refine (exec_cases .unsuppress s).resolve_right fun ⟨j, hfault⟩ => ?_
    obtain ⟨ws, hws⟩ := s.exists_agreesWithStream
    obtain ⟨hread, hnone, -⟩ :=
      (s.unsuppressResult_unwritten_iff ws hws j).1 ((exec_fault_iff .unsuppress s j).1 hfault)
    exact (s.not_written_iff j).2 hnone (hw j (hws.1 ▸ hread.lt_length))
  · rw [exec_eq_finish_commandResult]
    exact s.finish_ne_refused _ r

/-- Settles O9. -/
theorem pendingCompletionIsTaken : Obligations.PendingCompletionIsTaken := by
  intro s ops hb hr hs
  obtain ⟨u, hu, hrun⟩ := run_hostTurns s ops hb hs
  obtain ⟨-, -, -, -, -, hbusy, -, hsched⟩ := hu.frame
  have hub : u.busy = true := hbusy.trans hb
  obtain ⟨t, ht⟩ := sequencerTurn_of_inputsReady u hub (hu.inputsReady hr)
  obtain ⟨htb, htd, ⟨-, -, -, -, -, -, -, -, -, hkeep, -⟩, -⟩ := everyCompletionRaisesDone u t hub ht
  exact ⟨t, hrun.trans ht, htb, htd, hkeep.trans hsched⟩

end Sys2Proof.Machine
end

section
/-! PROOFS. What a completion that succeeds stores (10_state.md R44, R51): the size of what the
three commands compute, the frame of a completion, and the invariants of the storage and of the
results. -/

namespace Sys2Proof.Machine

open Sys2Proof

/-! ### What a command that succeeds has computed -/

/-- The result fits OBUF and the BBRF, and its blocks lie in a waveform of at most N_MAX samples
(10_state.md R42, R43; 40_suppress.md R111, R121; 41_unsuppress.md R127 to R129). -/
def CommandResult.fits (p : Params) (c : CommandResult) : Prop :=
  c.out.length ≤ bufDepth p ∧ c.blocks.length ≤ p.bMax ∧
    ∀ b ∈ c.blocks, 1 ≤ b.len ∧ b.start + b.len ≤ p.nMax

/-- A suppress command that succeeds had a written waveform of legal length (40_suppress.md R106,
R117). -/
theorem State.holdsWaveform_of_commandResult (s : State) (i : Instr) (c : CommandResult)
    (hp : s.params.wellFormed = true) (hi : i ≠ .unsuppress) (h : s.commandResult i = .ok c) :
    (∃ xs, s.holdsWaveform xs) ∧ (i = .suppressNN → 0 ≤ s.ndist.toInt) := by
  have hwave : ∀ xs, s.lenIn.toNat ≤ s.params.nMax → s.ibufWords 0 s.lenIn.toNat = .ok xs →
      s.holdsWaveform xs := by
    intro xs hle hx
    obtain ⟨hlen, hall⟩ := (s.ibufWords_eq_ok _ _ xs).1 hx
    refine ⟨hp, hlen.symm, hlen ▸ hle, fun j hj => ?_⟩
    rw [← hall j (hlen ▸ hj), Nat.zero_add]
  rcases s.suppressPrologue_cases with ⟨hle, hpro⟩ | ⟨-, hpro⟩
  · cases hx : s.ibufWords 0 s.lenIn.toNat with
    | error e =>
      cases i with
      | suppress => simp [State.commandResult, State.suppressResult, hpro, hx] at h
      | suppressNN =>
        simp only [State.commandResult, State.suppressNNResult, hpro, hx] at h
        split at h <;> cases h
      | unsuppress => exact absurd rfl hi
    | ok xs =>
      refine ⟨⟨xs, hwave xs hle hx⟩, ?_⟩
      rintro rfl
      by_contra hneg
      simp [State.commandResult, State.suppressNNResult, hpro, sext16, Int.not_le.1 hneg] at h
  · cases i with
    | suppress => simp [State.commandResult, State.suppressResult, hpro] at h
    | suppressNN => simp [State.commandResult, State.suppressNNResult, hpro] at h
    | unsuppress => exact absurd rfl hi

/-- UNSUPPRESS succeeds on a written, valid stream only (41_unsuppress.md R136). -/
theorem State.holdsStream_of_unsuppressResult (s : State) (c : CommandResult)
    (hp : s.params.wellFormed = true) (h : s.unsuppressResult = .ok c) :
    ∃ ws, s.holdsStream ws ∧ streamValid s.params ws := by
  obtain ⟨ws, hws⟩ := s.exists_agreesWithStream
  rcases s.unsuppressResult_readsStream ws hws with ⟨j, -, hr⟩ | ⟨hw, -, hvalid⟩
  · rw [h] at hr
    cases hr
  · have hv := hvalid c h
    refine ⟨ws, ⟨hp, hws.1, fun j hj => ?_⟩, hv⟩
    refine (hws.2 j hj).resolve_left fun hnone => ?_
    exact (s.not_written_iff j).2 hnone (hw j (streamReads_of_streamValid _ ws j hv hj))

/-- The encoding of a suppress command fits (40_suppress.md R111, R121). -/
theorem emit_fits (p : Params) (xs : List Half) (bs : List Block) (hp : p.wellFormed = true)
    (hx : xs.length ≤ p.nMax) (hbs : spacedBlocks 0 xs.length bs) : (emit xs bs).fits p := by
  obtain ⟨hcount, hdepth⟩ := emit_fits_bufDepth p xs bs hp hx hbs
  refine ⟨(length_emit_out xs bs hbs.end_le).trans_le hdepth, hcount, fun b hb => ?_⟩
  obtain ⟨-, hlen, hend⟩ := hbs.2 b hb
  exact ⟨hlen, hend.trans hx⟩

/-- The waveform of a valid stream fits (41_unsuppress.md R127 to R129). -/
theorem streamResult_fits (p : Params) (ws : List Half) (hv : streamValid p ws) :
    (streamResult ws).fits p := by
  obtain ⟨-, ⟨hN0, hN⟩, ⟨hB0, hB, -⟩, hblocks, -⟩ := hv
  refine ⟨?_, ?_, fun b hb => ?_⟩
  · rw [length_streamResult_out ws hblocks, bufDepth]
    omega
  · rw [streamResult, length_streamBlocks]
    omega
  · obtain ⟨hlen, hend⟩ := (streamBlocks_blockListValid ws _ hblocks).2 b hb
    exact ⟨hlen, by omega⟩

/-- Every command that succeeds computes a result that fits. -/
theorem exec_success_fits (i : Instr) (s t : State) (hp : s.params.wellFormed = true)
    (h : exec i s = .next t) :
    (∃ c, c.fits s.params ∧ t = s.succeed c) ∨ ∃ e info, t = s.raiseError e info := by
  have hexec := h
  rw [exec_eq_finish_commandResult] at h
  rcases (s.finish_eq_next t _).1 h with ⟨c, hc, rfl⟩ | ⟨e, info, -, rfl⟩
  · left
    by_cases hi : i = .unsuppress
    · subst hi
      obtain ⟨ws, hws, hv⟩ := s.holdsStream_of_unsuppressResult c hp hc
      rw [exec_unsuppress_of_streamValid s ws hws hv] at hexec
      exact ⟨_, streamResult_fits _ ws hv, (Host.Outcome.next.inj hexec).symm⟩
    · obtain ⟨⟨xs, hwave⟩, hd⟩ := s.holdsWaveform_of_commandResult i c hp hi hc
      obtain ⟨bs, hemit, hbs⟩ := exec_emits_spacedBlocks i s xs hi hwave hd
      rw [hemit] at hexec
      obtain ⟨-, -, hmax, -⟩ := hwave
      exact ⟨_, emit_fits _ xs bs hp hmax hbs, (Host.Outcome.next.inj hexec).symm⟩
  · exact .inr ⟨e, info, rfl⟩

/-- Everything the sequencer's turn can do, with the size of what it stores. -/
theorem sequencerTurn_fits_cases (s t : State) (hp : s.params.wellFormed = true)
    (h : sequencerTurn s = .next t) :
    t = s ∨ (∃ c, c.fits s.params ∧ t = s.succeed c) ∨ ∃ e info, t = s.raiseError e info := by
  cases hb : s.busy with
  | false =>
    rw [sequencerTurn_idle s hb] at h
    exact .inl (Host.Outcome.next.inj h).symm
  | true =>
    right
    cases hf : s.fetch with
    | ok i =>
      rw [sequencerTurn_of_fetch s i hb hf] at h
      exact exec_success_fits i s t hp h
    | error r =>
      rw [sequencerTurn_of_reject s r hb hf] at h
      exact .inr ⟨_, _, (Host.Outcome.next.inj h).symm⟩

/-! ### The bytes a successful completion stores -/

/-- A window offset at which a completion with the result `c` stores a word: a slot
OBUF[0..LEN_OUT-1] or a field of a BBRF entry 0..NBLK-1 (10_state.md R44, R51). -/
def CommandResult.stores (c : CommandResult) (off : Nat) : Prop :=
  (∃ j < c.out.length, off = obufOff j) ∨ ∃ k < c.blocks.length, off = bsOff k ∨ off = blOff k

theorem State.read_succeed_other (s : State) (c : CommandResult) (a : Nat)
    (h : ∀ off, c.stores off → ¬ inSlot a off) :
    Memory.read (s.succeed c).mem a = Memory.read s.mem a := by
  rw [State.succeed_mem, Memory.read_writeSlots_other _ _ _ _ fun j hj => ?_,
    Memory.read_writeBlocks_other _ _ _ _ fun k hk => ?_]
  · rw [Nat.zero_add]
    have hs := h (bsOff k) (.inr ⟨k, hk, .inl rfl⟩)
    have hl := h (blOff k) (.inr ⟨k, hk, .inr rfl⟩)
    rw [inSlot] at hs hl
    omega
  · have ho := h (obufOff j) (.inl ⟨j, hj, rfl⟩)
    simp only [inSlot, obufOff] at ho ⊢
    omega

/-- After a successful completion every word it stores is written. -/
theorem State.slot_succeed_stored (s : State) (c : CommandResult) (off : Nat)
    (hlen : c.blocks.length < 0x10000) (h : c.stores off) :
    (Memory.slot (s.succeed c).mem off).isSome = true := by
  rcases h with ⟨j, hj, rfl⟩ | ⟨k, hk, hoff⟩
  · have hword := s.succeed_obufWord c j _ (List.getElem?_eq_getElem hj)
    rw [State.obufWord] at hword
    rw [hword]
    rfl
  · obtain ⟨hstart, hlength⟩ :=
      Memory.slot_writeBlocks s.mem 0 k c.blocks _ (List.getElem?_eq_getElem hk)
    rw [Nat.zero_add] at hstart hlength
    have hbelow : off + 1 < obufOff 0 := by
      simp only [bsOff, blOff, obufOff] at *
      omega
    rw [State.succeed_mem, Memory.slot_writeSlots_below _ _ _ _ hbelow]
    obtain rfl | rfl := hoff
    · rw [hstart]
      rfl
    · rw [hlength]
      rfl

/-- LEN_OUT and NBLK of a successful completion count the words and the blocks (10_state.md R34,
R35). -/
theorem State.succeed_counts (s : State) (c : CommandResult) (hp : s.params.wellFormed = true)
    (hc : c.fits s.params) :
    (s.succeed c).lenOut.toNat = c.out.length ∧ (s.succeed c).nblk.toNat = c.blocks.length := by
  obtain ⟨hout, hblocks, -⟩ := hc
  obtain ⟨-, -, -, hd, -⟩ := (Params.wellFormed_iff s.params).1 hp
  rw [bufDepth] at hout
  exact ⟨store16_toNat _ (by omega), store16_toNat _ (by omega)⟩

/-! ### The invariant of the results -/

/-- A BBRF entry depends on the bytes below IBUF (20_memory.md R65). -/
theorem State.block_congr (s t : State) (k : Nat) (hk : bsOff k + 8 ≤ 0x80000)
    (h : ∀ a < 0x80000, Memory.read t.mem a = Memory.read s.mem a) : t.block k = s.block k := by
  simp only [State.block, Memory.slot]
  rw [h (bsOff k) (by omega), h (bsOff k + 1) (by omega),
    h (blOff k) (by simp only [bsOff, blOff] at *; omega),
    h (blOff k + 1) (by simp only [bsOff, blOff] at *; omega)]

/-- The BBRF ends below IBUF (00_scope.md R8, 20_memory.md R65). -/
theorem bsOff_add_le (p : Params) (k : Nat) (hp : p.wellFormed = true) (hk : k < p.bMax) :
    bsOff k + 8 ≤ 0x80000 := by
  obtain ⟨-, -, -, hd, -⟩ := (Params.wellFormed_iff p).1 hp
  rw [bsOff]
  omega

/-- A completion leaves the BBRF entries from NBLK on as they were (10_state.md R44). -/
theorem State.succeed_block_other (s : State) (c : CommandResult) (k : Nat)
    (hk : c.blocks.length ≤ k) (hk' : bsOff k + 8 ≤ 0x80000) :
    (s.succeed c).block k = s.block k := by
  have keep : ∀ off, off = bsOff k ∨ off = blOff k →
      Memory.slot (s.succeed c).mem off = Memory.slot s.mem off := by
    intro off hoff
    simp only [Memory.slot]
    rw [s.read_succeed_other c off fun o ho => ?_, s.read_succeed_other c (off + 1) fun o ho => ?_]
    all_goals
      rcases ho with ⟨j, -, rfl⟩ | ⟨i, hi, hoi⟩
      all_goals
        simp only [bsOff, blOff, obufOff, inSlot] at *
        omega
  simp only [State.block, keep _ (.inl rfl), keep _ (.inr rfl)]

theorem State.resultsInv_congr (s t : State) (hi : s.resultsInv) (hp : t.params = s.params)
    (ho : t.lenOut = s.lenOut) (hn : t.nblk = s.nblk)
    (hm : ∀ a < 0x80000, Memory.read t.mem a = Memory.read s.mem a) : t.resultsInv := by
  obtain ⟨hwf, hout, hnblk, hblocks⟩ := hi
  rw [State.resultsInv, hp, ho, hn]
  refine ⟨hwf, hout, hnblk, fun k hk b hb => hblocks k hk b ?_⟩
  rw [← hb, s.block_congr t k (bsOff_add_le _ k hwf hk) hm]

/-- A successful completion keeps the results' invariant: the entries it writes fit, and the others
stay. -/
theorem State.resultsInv_succeed (s : State) (c : CommandResult) (hi : s.resultsInv)
    (hc : c.fits s.params) : (s.succeed c).resultsInv := by
  obtain ⟨hwf, -, -, hold⟩ := hi
  obtain ⟨hlenOut, hnblk⟩ := s.succeed_counts c hwf hc
  obtain ⟨hout, hcount, hnew⟩ := hc
  obtain ⟨-, hmax, -, hd, -⟩ := (Params.wellFormed_iff s.params).1 hwf
  refine ⟨hwf, hlenOut.trans_le hout, hnblk.trans_le hcount, fun k hk b hb => ?_⟩
  rw [State.succeed_params] at hk ⊢
  by_cases hlt : k < c.blocks.length
  · have hmem := hnew _ (List.getElem_mem hlt)
    rw [s.succeed_block c k _ (List.getElem?_eq_getElem hlt) (by omega) (by omega) (by omega),
      Option.some.injEq] at hb
    rwa [← hb]
  · rw [s.succeed_block_other c k (Nat.not_lt.1 hlt) (bsOff_add_le _ k hwf hk)] at hb
    exact hold k hk b hb

/-- An error keeps the results' invariant: it stores nothing and clears both counts
(60_exceptions.md R146). -/
theorem State.resultsInv_raiseError (s : State) (e : CommandError) (info : Half) (hi : s.resultsInv) :
    (s.raiseError e info).resultsInv := by
  obtain ⟨hwf, -, -, hblocks⟩ := hi
  exact ⟨hwf, Nat.zero_le _, Nat.zero_le _, hblocks⟩

/-! ### The invariant of the storage -/

/-- The storage's invariant as a property of the memory (10_state.md R54, 20_memory.md R65 to R68).
-/
def storageHolds (p : Params) (m : Memory) : Prop :=
  Memory.wf m = true ∧
    (∀ a, (Memory.read m a).isSome = true →
      a % 4 < 2 ∧ isStorage (targetOf p (a - a % 4)) = true) ∧
    (∀ off, off % 4 = 0 → (Memory.read m off).isSome = (Memory.read m (off + 1)).isSome) ∧
    (∀ k, k < p.bMax → (Memory.slot m (bsOff k)).isSome = (Memory.slot m (blOff k)).isSome)

theorem State.storageInv_iff (s : State) :
    s.storageInv ↔ s.params.wellFormed = true ∧ storageHolds s.params s.mem :=
  Iff.rfl

theorem Memory.slot_isSome_iff (m : Memory) (off : Nat) :
    (Memory.slot m off).isSome = true ↔
      (Memory.read m off).isSome = true ∧ (Memory.read m (off + 1)).isSome = true := by
  unfold Memory.slot
  cases Memory.read m off <;> cases Memory.read m (off + 1) <;> simp

/-- Storing whole words at slots that exist, both fields of a BBRF entry together, keeps the
storage's invariant. -/
theorem storageHolds.store {p : Params} {m m' : Memory} (h : storageHolds p m) (stored : Nat → Prop)
    (hwf : Memory.wf m' = true)
    (hread : ∀ a, (Memory.read m' a).isSome = true ↔
      (∃ off, stored off ∧ inSlot a off) ∨ (Memory.read m a).isSome = true)
    (hslot : ∀ off, stored off → off % 4 = 0 ∧ isStorage (targetOf p off) = true)
    (hpair : ∀ k < p.bMax, stored (bsOff k) ↔ stored (blOff k)) : storageHolds p m' := by
  obtain ⟨-, hbytes, hwords, hentries⟩ := h
  have hlow : ∀ off, off % 4 = 0 → ((Memory.read m' off).isSome = true ↔
      stored off ∨ (Memory.read m off).isSome = true) := by
    intro off h4
    rw [hread]
    refine or_congr_left ⟨fun ⟨o, ho, hin⟩ => ?_, fun ho => ⟨off, ho, .inl rfl⟩⟩
    have := (hslot o ho).1
    obtain rfl : o = off := by omega
    exact ho
  have hhigh : ∀ off, off % 4 = 0 → ((Memory.read m' (off + 1)).isSome = true ↔
      stored off ∨ (Memory.read m off).isSome = true) := by
    intro off h4
    rw [hread, hwords off h4]
    refine or_congr_left ⟨fun ⟨o, ho, hin⟩ => ?_, fun ho => ⟨off, ho, .inr rfl⟩⟩
    have := (hslot o ho).1
    obtain rfl : o = off := by omega
    exact ho
  have hwhole : ∀ off, off % 4 = 0 → ((Memory.slot m' off).isSome = true ↔
      stored off ∨ (Memory.slot m off).isSome = true) := by
    intro off h4
    rw [Memory.slot_isSome_iff, hlow off h4, hhigh off h4, and_self, Memory.slot_isSome_iff,
      ← hwords off h4, and_self]
  refine ⟨hwf, fun a ha => ?_, fun off h4 => ?_, fun k hk => ?_⟩
  · rcases (hread a).1 ha with ⟨off, hoff, hin⟩ | hold
    · obtain ⟨h4, hs⟩ := hslot off hoff
      have : a % 4 < 2 ∧ a - a % 4 = off := by omega
      rw [this.2]
      exact ⟨this.1, hs⟩
    · exact hbytes a hold
  · rw [Bool.eq_iff_iff, hlow off h4, hhigh off h4]
  · rw [Bool.eq_iff_iff, hwhole _ (by rw [bsOff]; omega), hwhole _ (by rw [blOff]; omega), hpair k hk,
      hentries k hk]

/-- A slot write lists the two bytes of the slot (20_memory.md R68, R71). -/
theorem Memory.isSome_read_writeSlot (m : Memory) (off a : Nat) (w : Half) :
    (Memory.read (Memory.writeSlot m off w) a).isSome = true ↔
      inSlot a off ∨ (Memory.read m a).isSome = true := by
  by_cases h : inSlot a off
  · have hsome := (Memory.slot_isSome_iff (Memory.writeSlot m off w) off).1 (by simp)
    refine iff_of_true ?_ (.inl h)
    obtain rfl | rfl := h
    · exact hsome.1
    · exact hsome.2
  · obtain ⟨h0, h1⟩ := not_or.1 h
    simp [Memory.read_writeSlot_other m off a w h0 h1, h0, h1]

/-- The host's write of an IBUF slot keeps the storage's invariant (20_memory.md R66). -/
theorem storageHolds_writeIbuf (p : Params) (m : Memory) (i : Nat) (w : Half)
    (hp : p.wellFormed = true) (hi : i < bufDepth p) (h : storageHolds p m) :
    storageHolds p (Memory.writeSlot m (ibufOff i) w) := by
  refine h.store (· = ibufOff i) (Memory.wf_writeSlot _ _ _ h.1) (fun a => ?_) ?_ fun k hk => ?_
  · simp [Memory.isSome_read_writeSlot]
  · rintro off rfl
    rw [targetOf_ibufOff p i hp hi]
    exact ⟨by rw [ibufOff]; omega, rfl⟩
  · have := bsOff_add_le p k hp hk
    simp only [bsOff, blOff, ibufOff] at *
    omega

/-- A successful completion whose result fits keeps the storage's invariant (10_state.md R44, R51).
-/
theorem State.storageHolds_succeed (s : State) (c : CommandResult) (hp : s.params.wellFormed = true)
    (hc : c.fits s.params) (h : storageHolds s.params s.mem) :
    storageHolds s.params (s.succeed c).mem := by
  obtain ⟨hout, hblocks, -⟩ := hc
  obtain ⟨-, -, -, hd, -⟩ := (Params.wellFormed_iff s.params).1 hp
  refine h.store c.stores ?_ (fun a => ?_) ?_ fun k hk => ?_
  · exact Memory.wf_writeSlots _ _ _ (Memory.wf_writeBlocks _ _ _ h.1)
  · by_cases hs : ∃ off, c.stores off ∧ inSlot a off
    · refine iff_of_true ?_ (.inl hs)
      obtain ⟨off, hoff, hin⟩ := hs
      have hsome := (Memory.slot_isSome_iff _ _).1 (s.slot_succeed_stored c off (by omega) hoff)
      obtain rfl | rfl := hin
      · exact hsome.1
      · exact hsome.2
    · rw [s.read_succeed_other c a fun off hoff hin => hs ⟨off, hoff, hin⟩, or_iff_right hs]
  · rintro off (⟨j, hj, rfl⟩ | ⟨k, hk, rfl | rfl⟩)
    · rw [targetOf_obufOff _ j (by omega)]
      exact ⟨by rw [obufOff]; omega, rfl⟩
    · rw [targetOf_bsOff _ k hp (by omega)]
      exact ⟨by rw [bsOff]; omega, rfl⟩
    · rw [targetOf_blOff _ k hp (by omega)]
      exact ⟨by rw [blOff]; omega, rfl⟩
  · have hbs := bsOff_add_le s.params k hp hk
    have hentry : ∀ off, off = bsOff k ∨ off = blOff k → (c.stores off ↔ k < c.blocks.length) := by
      intro off hoff
      constructor
      · rintro (⟨j, hj, rfl⟩ | ⟨i, hi, hoff'⟩)
        · simp only [bsOff, blOff, obufOff] at *
          omega
        · simp only [bsOff, blOff] at *
          omega
      · exact fun hlt => .inr ⟨k, hlt, hoff⟩
    rw [hentry _ (.inl rfl), hentry _ (.inr rfl)]

/-! ### The statements -/

/-- Settles O54: the host stores in IBUF slots that exist, and what a completion stores fits. -/
theorem storageInvariantIsKept : Obligations.StorageInvariantIsKept := by
  intro s t hi h
  simp only [State.storageInv_iff] at hi ⊢
  obtain ⟨hp, hm⟩ := hi
  refine ⟨step_params s t h ▸ hp, step_params s t h ▸ ?_⟩
  obtain ⟨ts, hseq | ⟨r, d, rfl⟩ | ⟨off, v, hoff, h4, -, rfl⟩ | ⟨-, rfl⟩⟩ := step_next_cases s t h
  · rcases sequencerTurn_fits_cases { s with schedule := ts } t hp hseq with
      rfl | ⟨c, hc, rfl⟩ | ⟨e, info, rfl⟩
    · exact hm
    · exact State.storageHolds_succeed { s with schedule := ts } c hp hc hm
    · exact hm
  · exact hm
  · rw [State.hostWrite_eq _ off v hoff h4]
    rcases State.writeTarget_mem { s with schedule := ts } v (targetOf s.params off) with
      hkeep | ⟨i, hg, -, hwrite⟩
    · show storageHolds s.params (State.writeTarget { s with schedule := ts } v _).mem
      rw [hkeep]
      exact hm
    · show storageHolds s.params (State.writeTarget { s with schedule := ts } v _).mem
      rw [hwrite]
      exact storageHolds_writeIbuf _ _ i _ hp (targetOf_eq_ibuf _ off i hg h4).2 hm
  · obtain ⟨-, hreset, -⟩ := State.resetOf_invariants s.params hp
    exact hreset.2

/-- Settles O55: what a completion stores fits, and no host access reaches the results. -/
theorem resultsInvariantIsKept : Obligations.ResultsInvariantIsKept := by
  intro s t hi h
  have hp := hi.1
  obtain ⟨ts, hseq | ⟨r, d, rfl⟩ | ⟨off, v, hoff, h4, -, rfl⟩ | ⟨-, rfl⟩⟩ := step_next_cases s t h
  · rcases sequencerTurn_fits_cases { s with schedule := ts } t hp hseq with
      rfl | ⟨c, hc, rfl⟩ | ⟨e, info, rfl⟩
    · exact hi
    · exact State.resultsInv_succeed { s with schedule := ts } c hi hc
    · exact State.resultsInv_raiseError { s with schedule := ts } e info hi
  · exact hi
  · obtain ⟨ho, hn, -, hparams, hmem, -⟩ :=
      hostAccessesKeepResults { s with schedule := ts } ⟨s.params.base + off, 4, .write v⟩ hp
    exact s.resultsInv_congr _ hi hparams ho hn fun a ha => hmem a (.inl ha)
  · obtain ⟨-, -, hreset⟩ := State.resetOf_invariants s.params hp
    exact hreset

/-- Settles O40. -/
theorem commandsStoreOnlyTheirResults : Obligations.CommandsStoreOnlyTheirResults := by
  intro i s t hp h
  rcases exec_success_fits i s t hp h with ⟨c, hc, rfl⟩ | ⟨e, info, rfl⟩
  · obtain ⟨-, -, hkeep, -⟩ := completes_frame s _ (.inl ⟨c, rfl⟩)
    obtain ⟨hlenOut, hnblk⟩ := s.succeed_counts c hp hc
    refine ⟨hkeep, fun a ha => s.read_succeed_other c a fun off hoff hin => ha ?_⟩
    rw [State.storedBy, hlenOut, hnblk]
    rcases hoff with ⟨j, hj, rfl⟩ | ⟨k, hk, rfl | rfl⟩
    · exact .inl ⟨j, hj, hin⟩
    · exact .inr ⟨k, hk, .inl hin⟩
    · exact .inr ⟨k, hk, .inr hin⟩
  · obtain ⟨-, -, hkeep, -⟩ := completes_frame s _ (.inr ⟨e, info, rfl⟩)
    exact ⟨hkeep, fun _ _ => rfl⟩

end Sys2Proof.Machine
end

section
/-! PROOFS. The blocks SUPPRESS records (40_suppress.md R108, R109), and the bounds of the block
lists and header words of both suppress commands (30_encoding.md R99, R100; 40_suppress.md R111,
R121). -/

namespace Sys2Proof.Machine

open Sys2Proof

/-! ### Active samples of a waveform -/

theorem activeAt_iff (thresh : Half) (xs : List Half) (p : Nat) (x : Half) (h : xs[p]? = some x) :
    activeAt thresh xs p ↔ active thresh x = true := by
  rw [active_iff, activeAt, h]
  simp

theorem activeAt.lt_length {thresh : Half} {xs : List Half} {p : Nat} (h : activeAt thresh xs p) :
    p < xs.length := by
  obtain ⟨w, hw, -⟩ := h
  exact (List.getElem?_eq_some_iff.1 hw).1

/-- The samples a scan has before it, one by one. -/
theorem getElem?_of_cons_eq_drop {xs rest : List Half} {i : Nat} {x : Half}
    (h : x :: rest = xs.drop i) : xs[i]? = some x ∧ rest = xs.drop (i + 1) := by
  constructor
  · have := List.getElem?_drop (xs := xs) (i := i) (j := 0)
    rw [← h] at this
    exact this.symm
  · have := congrArg List.tail h
    rwa [List.tail_cons, List.tail_drop] at this

/-! ### The scan of SUPPRESS -/

/-- What the scan of SUPPRESS knows when it comes to sample `i`: with no block open, sample `i - 1`
is not active; with `b` open, the samples from its start up to `i - 1` are, and the one before its
start is not. -/
def suppressScanAt (thresh : Half) (xs : List Half) (i : Nat) : Option Block → Prop
  | none => 0 < i → ¬ activeAt thresh xs (i - 1)
  | some b => b.start < i ∧ b.len = i - b.start ∧
      (∀ p, b.start ≤ p → p < i → activeAt thresh xs p) ∧
      (0 < b.start → ¬ activeAt thresh xs (b.start - 1))

/-- Where sample `i` is not active, the open block is a maximal run, and the other runs from its
start on come after sample `i` (40_suppress.md R109). -/
theorem suppressScanAt.maximalRun_iff {thresh : Half} {xs : List Half} {i : Nat} {b : Block}
    (h : suppressScanAt thresh xs i (some b)) (hi : ¬ activeAt thresh xs i) (f l : Nat) :
    b.start ≤ f ∧ maximalRun thresh xs f l ↔
      (f = b.start ∧ l = i - 1) ∨ (i + 1 ≤ f ∧ maximalRun thresh xs f l) := by
  obtain ⟨hlt, -, hrun, hbefore⟩ := h
  constructor
  · rintro ⟨hle, hmax⟩
    have ⟨hfl, hall, hfirst, hlast⟩ := hmax
    by_cases hf : i + 1 ≤ f
    · exact .inr ⟨hf, hmax⟩
    · left
      have hfb : f = b.start := by
        by_contra hne
        rcases Nat.lt_or_ge f i with hfi | hfi
        · exact hfirst (by omega) (hrun (f - 1) (by omega) (by omega))
        · obtain rfl : f = i := by omega
          exact hi (hall f (Nat.le_refl f) hfl)
      refine ⟨hfb, ?_⟩
      by_contra hne
      rcases Nat.lt_or_ge l i with hli | hli
      · exact hlast (hrun (l + 1) (by omega) (by omega))
      · exact hi (hall i (by omega) hli)
  · rintro (⟨rfl, rfl⟩ | ⟨hf, hmax⟩)
    · refine ⟨Nat.le_refl _, by omega, fun p h1 h2 => hrun p h1 (by omega), hbefore, ?_⟩
      rwa [Nat.sub_add_cancel (by omega)]
    · exact ⟨by omega, hmax⟩

/-- The scan of SUPPRESS from sample `i` on closes exactly the blocks of the maximal runs from there
on, the open block's among them (40_suppress.md R108, R109). -/
theorem mem_suppressScan_iff (thresh : Half) (xs : List Half) (i : Nat) (cur : Option Block)
    (rest : List Half) (hrest : rest = xs.drop i) (hcur : suppressScanAt thresh xs i cur)
    (b : Block) :
    b ∈ suppressScan thresh i cur rest ↔
      ∃ f l, (cur.elim i Block.start ≤ f ∧ maximalRun thresh xs f l) ∧
        b = runBlock xs.length f l := by
  induction rest generalizing i cur with
  | nil =>
    have hend : xs.length ≤ i := List.drop_eq_nil_iff.1 hrest.symm
    have hnone : ∀ p, i ≤ p → ¬ activeAt thresh xs p := fun p hp hact => by
      have := hact.lt_length
      omega
    have hrun : ∀ f l, i ≤ f → ¬ maximalRun thresh xs f l := fun f l hf ⟨hfl, hall, _⟩ =>
      hnone f hf (hall f (Nat.le_refl f) hfl)
    cases cur with
    | none =>
      simp only [suppressScan, List.not_mem_nil, false_iff, Option.elim_none]
      rintro ⟨f, l, ⟨hf, hmax⟩, -⟩
      exact hrun f l hf hmax
    | some c =>
      simp only [suppressScan, List.mem_singleton, Option.elim_some,
        hcur.maximalRun_iff (hnone i (Nat.le_refl i))]
      have hblock : runBlock xs.length c.start (i - 1) = c := by
        obtain ⟨hlt, hlen, -, -⟩ := hcur
        rw [runBlock, if_neg (by omega)]
        obtain ⟨start, len⟩ := c
        simp only [Block.mk.injEq, true_and] at *
        omega
      constructor
      · rintro rfl
        exact ⟨_, _, .inl ⟨rfl, rfl⟩, hblock.symm⟩
      · rintro ⟨f, l, ⟨rfl, rfl⟩ | ⟨hf, hmax⟩, rfl⟩
        · exact hblock
        · exact absurd hmax (hrun f l (by omega))
  | cons x rest ih =>
    obtain ⟨hx, hrest⟩ := getElem?_of_cons_eq_drop hrest
    have hact := activeAt_iff thresh xs i x hx
    cases cur with
    | none =>
      cases ha : active thresh x with
      | true =>
        rw [suppressScan, if_pos ha]
        refine ih (i + 1) (some ⟨i, 1⟩) hrest ⟨Nat.lt_succ_self i, by simp, fun p h1 h2 => ?_, hcur⟩
        obtain rfl : p = i := Nat.le_antisymm (Nat.lt_succ_iff.1 h2) h1
        exact hact.2 ha
      | false =>
        have hi : ¬ activeAt thresh xs i := by simp [hact, ha]
        rw [suppressScan, if_neg (by simp [ha]), ih (i + 1) none hrest (fun _ => hi)]
        refine exists₂_congr fun f l => and_congr_left fun _ => and_congr_left fun hmax => ?_
        simp only [Option.elim_none]
        refine ⟨fun hf => by omega, fun hf => ?_⟩
        by_contra hlt
        obtain rfl : f = i := by omega
        obtain ⟨hfl, hall, -⟩ := hmax
        exact hi (hall f (Nat.le_refl f) hfl)
    | some c =>
      have ⟨hlt, hlen, hrun, hbefore⟩ := hcur
      cases ha : active thresh x with
      | true =>
        rw [suppressScan, if_pos ha]
        refine ih (i + 1) (some ⟨c.start, c.len + 1⟩) hrest
          ⟨by simp only; omega, by simp only; omega, fun p h1 h2 => ?_, hbefore⟩
        rcases Nat.lt_succ_iff_lt_or_eq.1 h2 with hp | rfl
        · exact hrun p h1 hp
        · exact hact.2 ha
      | false =>
        have hi : ¬ activeAt thresh xs i := by simp [hact, ha]
        have hblock : runBlock xs.length c.start (i - 1) = ⟨c.start, c.len + 1⟩ := by
          have : i < xs.length := (List.getElem?_eq_some_iff.1 hx).1
          rw [runBlock, if_pos (by omega), Block.mk.injEq]
          exact ⟨rfl, by omega⟩
        rw [suppressScan, if_neg (by simp [ha]), List.mem_cons, ih (i + 1) none hrest (fun _ => hi)]
        simp only [Option.elim_some, Option.elim_none, hcur.maximalRun_iff hi]
        constructor
        · rintro (rfl | ⟨f, l, hfl, rfl⟩)
          · exact ⟨_, _, .inl ⟨rfl, rfl⟩, hblock.symm⟩
          · exact ⟨f, l, .inr hfl, rfl⟩
        · rintro ⟨f, l, ⟨rfl, rfl⟩ | hfl, rfl⟩
          · exact .inl hblock
          · exact .inr ⟨f, l, hfl, rfl⟩

/-! ### Bounds -/

/-- Separated blocks leave a sample between neighbours, so with those samples they still fit
(40_suppress.md R121). -/
theorem separatedBlocks.totalLength_add_length_le {n lo : Nat} {bs : List Block}
    (h : separatedBlocks n bs) (hlo : ∀ b ∈ bs, lo ≤ b.start) :
    totalLength bs + bs.length ≤ n + 1 - lo := by
  induction bs generalizing lo with
  | nil => simp [totalLength]
  | cons b bs ih =>
    obtain ⟨hpair, hmem⟩ := h
    obtain ⟨hafter, hpair⟩ := List.pairwise_cons.1 hpair
    obtain ⟨⟨-, hend⟩, hmem⟩ := List.forall_mem_cons.1 hmem
    have htail := ih ⟨hpair, hmem⟩ (lo := b.start + b.len + 1) fun c hc => hafter c hc
    have hstart := hlo b (by simp)
    rw [totalLength, List.map_cons, List.sum_cons, ← totalLength, List.length_cons]
    omega

/-- A suppress command on a written waveform of legal length completes with the encoding of spaced
blocks, which for SUPPRESS_NN are separated (40_suppress.md R111, R121). -/
theorem exec_emits_blocks (i : Instr) (s : State) (xs : List Half) (hi : i ≠ .unsuppress)
    (h : s.holdsWaveform xs) (hd : i = .suppressNN → 0 ≤ s.ndist.toInt) :
    ∃ bs, exec i s = .next (s.succeed (emit xs bs)) ∧ spacedBlocks 0 xs.length bs ∧
      (i = .suppressNN → separatedBlocks xs.length bs) := by
  by_cases hnn : i = .suppressNN
  · subst hnn
    have hscan := suppressNNScan_separatedBlocks s.thresh s.distance 0 [] none xs
      (separatedBlocks_nil 0)
    rw [Nat.zero_add] at hscan
    exact ⟨_, exec_suppressNN_of_holdsWaveform s xs h (hd rfl), hscan.spacedBlocks, fun _ => hscan⟩
  · obtain ⟨bs, hexec, hbs⟩ := exec_emits_spacedBlocks i s xs hi h hd
    exact ⟨bs, hexec, hbs, fun hnn' => absurd hnn' hnn⟩

/-- A command that ends with ERRCODE 0 ends with what it computed. -/
theorem exec_success (i : Instr) (s t : State) (h : exec i s = .next t) (hc : t.errCode = 0#4) :
    ∃ c, s.commandResult i = .ok c ∧ t = s.succeed c := by
  rw [exec_eq_finish_commandResult] at h
  rcases (s.finish_eq_next t _).1 h with hok | ⟨e, info, -, rfl⟩
  · exact hok
  · exact absurd hc (errorCode_ne_zero e)

/-- Every header word of the encoding of spaced blocks is at most 32766: N is, and no count, start
or length is above N (30_encoding.md R100). -/
theorem emit_header_le (xs : List Half) (bs : List Block) (hx : xs.length ≤ 32766)
    (hbs : spacedBlocks 0 xs.length bs) (j : Nat) (hj : j < 2 + 2 * bs.length) :
    ∃ w, (emit xs bs).out[j]? = some w ∧ w.toNat ≤ 32766 := by
  have hcount := hbs.two_mul_length_le
  have hfits : ∀ v, v ≤ 32766 → (store16 v).toNat ≤ 32766 := fun v hv => by
    rw [store16_toNat _ (by omega)]
    exact hv
  rcases streamSlot_cases bs.length j with (rfl | rfl) | ⟨k, hk, rfl⟩ | ⟨k, hk, rfl⟩ | hge
  · exact ⟨_, emit_out_zero xs bs, hfits _ hx⟩
  · exact ⟨_, emit_out_one xs bs, hfits _ (by omega)⟩
  · obtain ⟨-, -, hend⟩ := hbs.2 bs[k] (List.getElem_mem hk)
    exact ⟨_, emit_out_start xs bs k _ (List.getElem?_eq_getElem hk), hfits _ (by omega)⟩
  · obtain ⟨-, -, hend⟩ := hbs.2 bs[k] (List.getElem_mem hk)
    exact ⟨_, emit_out_length xs bs k _ (List.getElem?_eq_getElem hk), hfits _ (by omega)⟩
  · omega

/-! ### The statements -/

/-- Settles O42. -/
theorem suppressRecordsMaximalRuns : Obligations.SuppressRecordsMaximalRuns := by
  intro s xs h
  have hscan := suppressScan_spacedBlocks s.thresh 0 none xs (by simp)
  rw [Nat.zero_add] at hscan
  have ⟨hp, _, hmax, _⟩ := h
  obtain ⟨-, hn, -⟩ := (Params.wellFormed_iff s.params).1 hp
  refine ⟨_, _, exec_suppress_of_holdsWaveform s xs h, s.succeed_errCode _, s.succeed_errInfo _,
    s.succeed_busy _, s.succeed_done _, s.succeed_emit_recordsBlocks xs _ (by omega) hscan,
    hscan.1.imp fun hbc => by omega, fun b => ?_⟩
  rw [mem_suppressScan_iff s.thresh xs 0 none xs rfl (fun h0 => absurd h0 (Nat.lt_irrefl 0))]
  simp

/-- Settles O45. -/
theorem suppressBlockListIsValid : Obligations.SuppressBlockListIsValid := by
  intro i s xs hi h hd
  obtain ⟨bs, hexec, hbs, hsep⟩ := exec_emits_blocks i s xs hi h hd
  obtain ⟨hp, -, hmax, -⟩ := h
  obtain ⟨-, -, -, hdepth, -⟩ := (Params.wellFormed_iff s.params).1 hp
  obtain ⟨hfit, hout⟩ := emit_fits_bufDepth s.params xs bs hp hmax hbs
  have hcount := hbs.two_mul_length_le
  have htotal := hbs.totalLength_le
  have hlenOut : (s.succeed (emit xs bs)).lenOut.toNat = 2 + 2 * bs.length + totalLength bs := by
    rw [bufDepth] at hout
    rw [State.succeed_lenOut, length_emit_out xs bs hbs.end_le, store16_toNat _ (by omega)]
  refine ⟨_, bs, hexec, s.succeed_errCode _, s.succeed_emit_recordsBlocks xs bs (by omega) hbs,
    hbs.blockListValid, by omega, ?_, hfit, by omega, hlenOut.trans_le hout, fun hnn => ?_⟩
  · rw [samplesBefore_length]
    omega
  · have := (hsep hnn).totalLength_add_length_le (lo := 0) fun _ _ => Nat.zero_le _
    rw [samplesBefore_length]
    omega

/-- Settles O46. -/
theorem headerWordsStayNonNegative : Obligations.HeaderWordsStayNonNegative := by
  intro i s t hi hp h hc j hj
  obtain ⟨c, hresult, -⟩ := exec_success i s t h hc
  obtain ⟨⟨xs, hwave⟩, hd⟩ := s.holdsWaveform_of_commandResult i c hp hi hresult
  obtain ⟨bs, hexec, hbs⟩ := exec_emits_spacedBlocks i s xs hi hwave hd
  obtain ⟨-, -, hmax, -⟩ := hwave
  obtain ⟨-, hn, -⟩ := (Params.wellFormed_iff s.params).1 hp
  obtain rfl := Host.Outcome.next.inj (h.symm.trans hexec)
  rw [(s.succeed_emit_recordsBlocks xs bs (by omega) hbs).1] at hj
  obtain ⟨w, hw, hle⟩ := emit_header_le xs bs (by omega) hbs j hj
  exact ⟨w, s.succeed_obufWord _ j w hw, hle⟩

end Sys2Proof.Machine
end

section
/-! PROOFS. The blocks SUPPRESS_NN records (40_suppress.md R113, R120): the groups of active
samples, and the scan that finds them. -/

namespace Sys2Proof.Machine

open Sys2Proof

/-! ### Consecutive active samples -/

theorem exists_consecutiveActive_after (thresh : Half) (xs : List Half) (a b : Nat) (hab : a < b)
    (ha : activeAt thresh xs a) (hb : activeAt thresh xs b) :
    ∃ q, consecutiveActive thresh xs a q ∧ q ≤ b := by
  classical
  have hex : ∃ q, a < q ∧ activeAt thresh xs q := ⟨b, hab, hb⟩
  obtain ⟨hlt, hq⟩ := Nat.find_spec hex
  exact ⟨Nat.find hex, ⟨hlt, ha, hq, fun r h1 h2 hr => Nat.find_min hex h2 ⟨h1, hr⟩⟩,
    Nat.find_min' hex ⟨hab, hb⟩⟩

theorem exists_consecutiveActive_before (thresh : Half) (xs : List Half) (a b : Nat) (hab : a < b)
    (ha : activeAt thresh xs a) (hb : activeAt thresh xs b) :
    ∃ p, a ≤ p ∧ consecutiveActive thresh xs p b := by
  classical
  have hle : a ≤ b - 1 := by omega
  have hgreatest := Nat.findGreatest_le (P := activeAt thresh xs) (b - 1)
  exact ⟨Nat.findGreatest (activeAt thresh xs) (b - 1), Nat.le_findGreatest hle ha, by omega,
    Nat.findGreatest_spec hle ha, hb,
    fun r h1 h2 => Nat.findGreatest_is_greatest h1 (by omega)⟩

/-! ### The groups of the samples before an index -/

/-- `gs` are the groups of the active samples before sample `i`, the latest first, each as its first
and its last sample (40_suppress.md R120). It is tied to the spec's description by
`groupsBefore.mem_iff_activeGroup`. -/
structure groupsBefore (thresh : Half) (d : Nat) (xs : List Half) (i : Nat) (gs : List (Nat × Nat)) :
    Prop where
  ends : ∀ g ∈ gs, g.1 ≤ g.2 ∧ g.2 < i ∧ activeAt thresh xs g.1 ∧ activeAt thresh xs g.2
  covers : ∀ p < i, activeAt thresh xs p → ∃ g ∈ gs, g.1 ≤ p ∧ p ≤ g.2
  inside : ∀ g ∈ gs, ∀ p q, consecutiveActive thresh xs p q → g.1 ≤ p → q ≤ g.2 →
    q - p - 1 ≤ groupGap d
  apart : gs.Pairwise fun g h => groupGap d < g.1 - h.2 - 1

theorem groupsBefore_zero (thresh : Half) (d : Nat) (xs : List Half) :
    groupsBefore thresh d xs 0 [] where
  ends := by simp
  covers := by simp
  inside := by simp
  apart := List.Pairwise.nil

section
variable {thresh : Half} {d : Nat} {xs : List Half} {i : Nat} {gs : List (Nat × Nat)}

/-- A sample that is not active leaves the groups as they are. -/
theorem groupsBefore.skip (h : groupsBefore thresh d xs i gs) (hi : ¬ activeAt thresh xs i) :
    groupsBefore thresh d xs (i + 1) gs where
  ends g hg := by
    obtain ⟨hle, hlt, hact⟩ := h.ends g hg
    exact ⟨hle, by omega, hact⟩
  covers p hp hact := by
    rcases Nat.lt_succ_iff_lt_or_eq.1 hp with hlt | rfl
    · exact h.covers p hlt hact
    · exact absurd hact hi
  inside := h.inside
  apart := h.apart

/-- After the latest group's last sample none is active. -/
theorem groupsBefore.not_active_after {g : Nat × Nat} (h : groupsBefore thresh d xs i (g :: gs))
    (q : Nat) (hq : g.2 < q) (hqi : q < i) : ¬ activeAt thresh xs q := by
  intro hact
  obtain ⟨hapart, -⟩ := List.pairwise_cons.1 h.apart
  have hg := h.ends g (by simp)
  obtain ⟨g', hg', hcover⟩ := h.covers q hqi hact
  rcases List.mem_cons.1 hg' with rfl | hg'
  · omega
  · have := hapart g' hg'
    omega

/-- An active sample at most G after the latest group joins it. -/
theorem groupsBefore.extend {f l : Nat} (h : groupsBefore thresh d xs i ((f, l) :: gs))
    (hi : activeAt thresh xs i) (hgap : i - l - 1 ≤ groupGap d) :
    groupsBefore thresh d xs (i + 1) ((f, i) :: gs) := by
  obtain ⟨⟨hfl, hli, hf, hl⟩, hends⟩ := List.forall_mem_cons.1 h.ends
  obtain ⟨hin, hinside⟩ := List.forall_mem_cons.1 h.inside
  obtain ⟨hapart, hpair⟩ := List.pairwise_cons.1 h.apart
  have hquiet := h.not_active_after
  simp only at hfl hli hf hl hin hapart hquiet
  refine ⟨List.forall_mem_cons.2 ⟨⟨by omega, Nat.lt_succ_self i, hf, hi⟩, fun g hg => ?_⟩,
    fun p hp hact => ?_, List.forall_mem_cons.2 ⟨fun p q hpq hfp hqi => ?_, hinside⟩,
    List.pairwise_cons.2 ⟨hapart, hpair⟩⟩
  · obtain ⟨hle, hlt, hact⟩ := hends g hg
    exact ⟨hle, by omega, hact⟩
  · rcases Nat.lt_succ_iff_lt_or_eq.1 hp with hlt | rfl
    · obtain ⟨g, hg, hcover⟩ := h.covers p hlt hact
      rcases List.mem_cons.1 hg with rfl | hg
      · exact ⟨(f, i), by simp, hcover.1, by simp only; omega⟩
      · exact ⟨g, by simp [hg], hcover⟩
    · exact ⟨(f, p), by simp, by simp only; omega, Nat.le_refl _⟩
  · have ⟨hlt, hp, hq, hbetween⟩ := hpq
    simp only at hqi
    by_cases hql : q ≤ l
    · exact hin p q hpq hfp hql
    · have hqi : q = i := by
        by_contra hne
        exact hquiet q (by omega) (by omega) hq
      have hpl : p = l := by
        by_contra hne
        rcases Nat.lt_or_ge p l with h1 | h1
        · exact hbetween l h1 (by omega) hl
        · exact hquiet p (by omega) (by omega) hp
      rwa [hqi, hpl]

/-- An active sample more than G after the latest group opens the next one. -/
theorem groupsBefore.next (h : groupsBefore thresh d xs i gs) (hi : activeAt thresh xs i)
    (hgap : ∀ g ∈ gs.head?, groupGap d < i - g.2 - 1) :
    groupsBefore thresh d xs (i + 1) ((i, i) :: gs) := by
  refine ⟨List.forall_mem_cons.2 ⟨⟨Nat.le_refl i, Nat.lt_succ_self i, hi, hi⟩, fun g hg => ?_⟩,
    fun p hp hact => ?_, List.forall_mem_cons.2 ⟨fun p q hpq hip hqi => ?_, h.inside⟩,
    List.pairwise_cons.2 ⟨fun g hg => ?_, h.apart⟩⟩
  · obtain ⟨hle, hlt, hact⟩ := h.ends g hg
    exact ⟨hle, by omega, hact⟩
  · rcases Nat.lt_succ_iff_lt_or_eq.1 hp with hlt | rfl
    · obtain ⟨g, hg, hcover⟩ := h.covers p hlt hact
      exact ⟨g, by simp [hg], hcover⟩
    · exact ⟨(p, p), by simp, Nat.le_refl p, Nat.le_refl p⟩
  · have := hpq.1
    simp only at hip hqi
    omega
  · cases gs with
    | nil => simp at hg
    | cons g' gs =>
      have hlast := hgap g' rfl
      obtain ⟨hapart, -⟩ := List.pairwise_cons.1 h.apart
      rcases List.mem_cons.1 hg with rfl | hg
      · exact hlast
      · have := hapart g hg
        have := h.ends g' (by simp)
        simp only
        omega

/-- Two groups are the same, or more than G apart. -/
theorem groupsBefore.eq_or_apart (h : groupsBefore thresh d xs i gs) {g g' : Nat × Nat} (hg : g ∈ gs)
    (hg' : g' ∈ gs) :
    g = g' ∨ groupGap d < g.1 - g'.2 - 1 ∨ groupGap d < g'.1 - g.2 - 1 :=
  List.Pairwise.forall_of_forall_of_flip
    (R := fun g g' => g = g' ∨ groupGap d < g.1 - g'.2 - 1 ∨ groupGap d < g'.1 - g.2 - 1)
    (fun _ _ => .inl rfl) (h.apart.imp fun hlater => .inr (.inl hlater))
    (h.apart.imp fun hlater => .inr (.inr hlater)) hg hg'

/-- Each listed pair is a group of the waveform (40_suppress.md R120). -/
theorem groupsBefore.activeGroup (h : groupsBefore thresh d xs xs.length gs) {f l : Nat}
    (hg : (f, l) ∈ gs) : activeGroup thresh d xs f l := by
  obtain ⟨hfl, -, hf, hl⟩ := h.ends (f, l) hg
  refine ⟨hfl, hf, hl, fun p q hpq => ⟨h.inside (f, l) hg p q hpq, ?_, ?_⟩⟩
  · rintro rfl
    obtain ⟨hlt, hp, -, -⟩ := hpq
    obtain ⟨g', hg', hcover⟩ := h.covers p hp.lt_length hp
    rcases h.eq_or_apart hg hg' with rfl | hapart | hapart
    all_goals
      simp only at *
      omega
  · rintro rfl
    obtain ⟨hlt, -, hq, -⟩ := hpq
    obtain ⟨g', hg', hcover⟩ := h.covers q hq.lt_length hq
    rcases h.eq_or_apart hg hg' with rfl | hapart | hapart
    all_goals
      simp only at *
      omega

/-- The groups of the whole waveform are those of the spec: a group of the spec begins where the
listed group around its first sample begins, and ends where that one ends (40_suppress.md R120). -/
theorem groupsBefore.mem_iff_activeGroup (h : groupsBefore thresh d xs xs.length gs) (f l : Nat) :
    (f, l) ∈ gs ↔ Machine.activeGroup thresh d xs f l := by
  refine ⟨h.activeGroup, fun ⟨hfl, hf, hl, hgap⟩ => ?_⟩
  obtain ⟨⟨f', l'⟩, hg, hcover⟩ := h.covers f hf.lt_length hf
  obtain ⟨-, -, -, hgap'⟩ := h.activeGroup hg
  obtain ⟨-, -, hf', hl'⟩ := h.ends _ hg
  simp only at hcover hf' hl'
  have hfirst : f' = f := by
    by_contra hne
    obtain ⟨p, hp, hpq⟩ := exists_consecutiveActive_before thresh xs f' f (by omega) hf' hf
    obtain ⟨-, hlarge, -⟩ := hgap p f hpq
    obtain ⟨hsmall, -⟩ := hgap' p f hpq
    have := hlarge rfl
    have := hsmall hp hcover.2
    omega
  have hlast : l' = l := by
    rcases Nat.lt_trichotomy l l' with hlt | rfl | hlt
    · obtain ⟨q, hpq, hq⟩ := exists_consecutiveActive_after thresh xs l l' hlt hl hl'
      obtain ⟨-, -, hlarge⟩ := hgap l q hpq
      obtain ⟨hsmall, -⟩ := hgap' l q hpq
      have := hlarge rfl
      have := hsmall (by omega) hq
      omega
    · rfl
    · obtain ⟨q, hpq, hq⟩ := exists_consecutiveActive_after thresh xs l' l hlt hl' hl
      obtain ⟨-, -, hlarge⟩ := hgap' l' q hpq
      obtain ⟨hsmall, -⟩ := hgap l' q hpq
      have := hlarge rfl
      have := hsmall (by omega) hq
      omega
  rwa [hfirst, hlast] at hg

end

/-! ### The scan of SUPPRESS_NN -/

/-- The padded block of a group given as its first and its last sample (40_suppress.md R120). -/
def pairBlock (d n : Nat) (g : Nat × Nat) : Block := groupBlock d n g.1 g.2

/-- What the scan of SUPPRESS_NN holds when it comes to sample `i`, `gs` the groups before it. With
no block open, every group has been closed, and the latest one so that no sample up to three after
its padding is active (R115). With a block open, it is the latest group's, grown up to `i`: `i` is
within the padding, or past it because an active sample follows (R115). -/
def nnScanAt (thresh : Half) (d : Nat) (xs : List Half) (i : Nat) (gs : List (Nat × Nat))
    (closed : List Block) : Option (Block × Nat) → Prop
  | none => closed = gs.map (pairBlock d xs.length) ∧
      ∀ g ∈ gs.head?, ∀ q, g.2 < q → q ≤ g.2 + d + 3 → ¬ activeAt thresh xs q
  | some (b, cnt) => ∃ f l gs', gs = (f, l) :: gs' ∧ closed = gs'.map (pairBlock d xs.length) ∧
      b = ⟨f - d, i - (f - d)⟩ ∧
      (i = l + 1 + cnt ∧ cnt ≤ d ∨
        cnt = d ∧ l + d + 1 < i ∧ ∃ q, i ≤ q ∧ q ≤ l + d + 3 ∧ activeAt thresh xs q)

/-- The look-ahead asks for two samples that are not active (40_suppress.md R115). -/
theorem lookAhead_iff (thresh : Half) (xs : List Half) (j : Nat) :
    lookAhead thresh (xs.drop j) = true ↔
      ¬ activeAt thresh xs j ∧ ¬ activeAt thresh xs (j + 1) := by
  have beyond : ∀ p, xs.length ≤ p → ¬ activeAt thresh xs p := fun p hp hact => by
    have := hact.lt_length
    omega
  have within : ∀ p x, xs[p]? = some x → (sub thresh x = true ↔ ¬ activeAt thresh xs p) := by
    intro p x hx
    rw [activeAt_iff thresh xs p x hx, sub, Bool.not_eq_true', Bool.not_eq_true]
  match hdrop : xs.drop j with
  | [] =>
    have := List.drop_eq_nil_iff.1 hdrop
    exact iff_of_true rfl ⟨beyond j this, beyond (j + 1) (by omega)⟩
  | [x] =>
    obtain ⟨hx, hrest⟩ := getElem?_of_cons_eq_drop hdrop.symm
    have := beyond (j + 1) (List.drop_eq_nil_iff.1 hrest.symm)
    simp [lookAhead, within j x hx, this]
  | x :: y :: rest =>
    obtain ⟨hx, hrest⟩ := getElem?_of_cons_eq_drop hdrop.symm
    obtain ⟨hy, -⟩ := getElem?_of_cons_eq_drop hrest
    simp [lookAhead, within j x hx, within (j + 1) y hy]

section
variable {thresh : Half} {d : Nat} {xs : List Half} {i : Nat} {gs : List (Nat × Nat)}
  {closed : List Block}

/-- An active sample that no group reaches opens a block (40_suppress.md R114). -/
theorem nnScanAt_open (h : groupsBefore thresh d xs i gs) (hi : activeAt thresh xs i)
    (hclosed : closed = gs.map (pairBlock d xs.length))
    (hgap : ∀ g ∈ gs.head?, groupGap d < i - g.2 - 1) :
    ∃ gs', groupsBefore thresh d xs (i + 1) gs' ∧
      nnScanAt thresh d xs (i + 1) gs' closed (some (openBlock d i, 0)) := by
  refine ⟨_, h.next hi hgap, i, i, gs, rfl, hclosed, ?_, .inl ⟨rfl, Nat.zero_le d⟩⟩
  rw [openBlock, Block.mk.injEq]
  exact ⟨rfl, by omega⟩

/-- An active sample within G of the latest group grows its block (40_suppress.md R113, R116). -/
theorem nnScanAt_grow {f l len : Nat} (h : groupsBefore thresh d xs i ((f, l) :: gs))
    (hi : activeAt thresh xs i) (hclosed : closed = gs.map (pairBlock d xs.length))
    (hgap : i - l - 1 ≤ groupGap d) (hlen : f - d + len = i + 1) :
    ∃ gs', groupsBefore thresh d xs (i + 1) gs' ∧
      nnScanAt thresh d xs (i + 1) gs' closed (some (⟨f - d, len⟩, 0)) := by
  refine ⟨_, h.extend hi hgap, f, i, gs, rfl, hclosed, ?_, .inl ⟨rfl, Nat.zero_le d⟩⟩
  rw [Block.mk.injEq]
  exact ⟨rfl, by omega⟩

/-- Where the latest group is closed and sample `i` is active, `i` re-opens the group's block
exactly when it is at most G after it (40_suppress.md R116, R120). -/
theorem merges_pairBlock_iff {f l : Nat} (h : groupsBefore thresh d xs i ((f, l) :: gs))
    (hi : activeAt thresh xs i)
    (hquiet : ∀ q, l < q → q ≤ l + d + 3 → ¬ activeAt thresh xs q) :
    merges d i (pairBlock d xs.length (f, l)) = true ↔ i - l - 1 ≤ groupGap d := by
  obtain ⟨hfl, hli, -⟩ := h.ends (f, l) (by simp)
  have hfar : l + d + 3 < i := by
    by_contra hle
    exact hquiet i hli (by omega) hi
  have hn := hi.lt_length
  rw [merges, decide_eq_true_eq, pairBlock, groupBlock, groupGap]
  simp only at hfl hli ⊢
  omega

/-- A sample that is not active, met with a block open, either leaves it open, grown by the sample,
or closes it as the block of its group (40_suppress.md R113, R115). -/
theorem nnScanAt_quiet {b : Block} {cnt : Nat} (h : groupsBefore thresh d xs i gs)
    (hat : nnScanAt thresh d xs i gs closed (some (b, cnt))) (hn : i < xs.length)
    (hi : ¬ activeAt thresh xs i) :
    (cnt < d → nnScanAt thresh d xs (i + 1) gs closed (some (⟨b.start, b.len + 1⟩, cnt + 1))) ∧
    (¬ cnt < d → lookAhead thresh (xs.drop (i + 1)) = true →
      nnScanAt thresh d xs (i + 1) gs (b :: closed) none) ∧
    (¬ cnt < d → ¬ lookAhead thresh (xs.drop (i + 1)) = true →
      nnScanAt thresh d xs (i + 1) gs closed (some (⟨b.start, b.len + 1⟩, cnt))) := by
  obtain ⟨f, l, gs', rfl, hclosed, rfl, hpos⟩ := hat
  obtain ⟨hfl, hli, -⟩ := h.ends (f, l) (by simp)
  have hafter := h.not_active_after
  simp only at hfl hli hafter
  have hgrown : (⟨f - d, i - (f - d) + 1⟩ : Block) = ⟨f - d, i + 1 - (f - d)⟩ := by
    rw [Block.mk.injEq]
    exact ⟨rfl, by omega⟩
  rw [lookAhead_iff]
  refine ⟨fun hlt => ?_, fun hge hahead => ?_, fun hge hahead => ?_⟩
  · refine ⟨f, l, gs', rfl, hclosed, hgrown, .inl ?_⟩
    rcases hpos with ⟨hil, hcnt⟩ | ⟨hcnt, -⟩ <;> omega
  · have hil : i = l + d + 1 := by
      rcases hpos with ⟨hil, hcnt⟩ | ⟨hcnt, hfar, q, hiq, hql, hq⟩
      · omega
      · obtain rfl | rfl : q = i ∨ q = i + 1 := by omega
        · exact absurd hq hi
        · exact absurd hq hahead.1
    constructor
    · rw [List.map_cons, ← hclosed, pairBlock, groupBlock, min_eq_left (by simp only; omega), hil]
    · intro g hg q hlq hql
      obtain rfl : (f, l) = g := by simpa using hg
      simp only at hlq hql
      rcases Nat.lt_or_ge q i with hqi | hqi
      · exact hafter q hlq hqi
      · obtain rfl | rfl | rfl : q = i ∨ q = i + 1 ∨ q = i + 2 := by omega
        · exact hi
        · exact hahead.1
        · exact hahead.2
  · refine ⟨f, l, gs', rfl, hclosed, hgrown, .inr ?_⟩
    obtain ⟨q, hiq, hqi, hq⟩ : ∃ q, i + 1 ≤ q ∧ q ≤ i + 2 ∧ activeAt thresh xs q := by
      by_cases h1 : activeAt thresh xs (i + 1)
      · exact ⟨i + 1, Nat.le_refl _, Nat.le_succ _, h1⟩
      · exact ⟨i + 2, Nat.le_succ _, Nat.le_refl _, not_not.1 fun h2 => hahead ⟨h1, h2⟩⟩
    rcases hpos with ⟨hil, hcnt⟩ | ⟨hcnt, hfar, q', hiq', hql', hq'⟩
    · exact ⟨by omega, by omega, q, hiq, by omega, hq⟩
    · have hne : q' ≠ i := fun heq => hi (heq ▸ hq')
      exact ⟨hcnt, by omega, q', by omega, hql', hq'⟩

/-- At the end of the waveform the closed blocks, with the open one, are the blocks of its groups
(40_suppress.md R113, R120). -/
theorem nnScanAt_end {b : Block} {cnt : Nat} (h : groupsBefore thresh d xs xs.length gs)
    (hat : nnScanAt thresh d xs xs.length gs closed (some (b, cnt))) :
    b :: closed = gs.map (pairBlock d xs.length) := by
  obtain ⟨f, l, gs', rfl, hclosed, rfl, hpos⟩ := hat
  obtain ⟨-, hli, -⟩ := h.ends (f, l) (by simp)
  have hle : xs.length ≤ l + d + 1 := by
    rcases hpos with ⟨hil, hcnt⟩ | ⟨-, -, q, hnq, -, hq⟩
    · omega
    · exact absurd hq.lt_length (Nat.not_lt.2 hnq)
  rw [List.map_cons, ← hclosed, pairBlock, groupBlock, min_eq_right hle]

end

/-- The scan of SUPPRESS_NN closes exactly the padded blocks of the waveform's groups, in ascending
order (40_suppress.md R113, R120). -/
theorem suppressNNScan_eq_groups (thresh : Half) (d : Nat) (xs : List Half) (i : Nat)
    (closed : List Block) (cur : Option (Block × Nat)) (rest : List Half)
    (hrest : rest = xs.drop i) (hi : i ≤ xs.length)
    (h : ∃ gs, groupsBefore thresh d xs i gs ∧ nnScanAt thresh d xs i gs closed cur) :
    ∃ gs, groupsBefore thresh d xs xs.length gs ∧
      suppressNNScan thresh d i closed cur rest = (gs.map (pairBlock d xs.length)).reverse := by
  obtain ⟨gs, hgs, hat⟩ := h
  induction i, closed, cur, rest using suppressNNScan.induct thresh d generalizing gs with
  | case1 i closed =>
    obtain rfl : i = xs.length := Nat.le_antisymm hi (List.drop_eq_nil_iff.1 hrest.symm)
    exact ⟨gs, hgs, by rw [suppressNNScan, hat.1]⟩
  | case2 i closed b cnt =>
    obtain rfl : i = xs.length := Nat.le_antisymm hi (List.drop_eq_nil_iff.1 hrest.symm)
    exact ⟨gs, hgs, by rw [suppressNNScan, nnScanAt_end hgs hat]⟩
  | case3 i x rest hx ih =>
    obtain ⟨hxi, hrest⟩ := getElem?_of_cons_eq_drop hrest
    have hact := (activeAt_iff thresh xs i x hxi).2 hx
    obtain ⟨hclosed, -⟩ := hat
    obtain rfl : gs = [] := List.map_eq_nil_iff.1 hclosed.symm
    obtain ⟨gs, hgs, hat⟩ := nnScanAt_open hgs hact hclosed (by simp)
    rw [suppressNNScan, if_pos hx]
    exact ih hrest hact.lt_length gs hgs hat
  | case4 i x rest hx p ps hm ih =>
    obtain ⟨hxi, hrest⟩ := getElem?_of_cons_eq_drop hrest
    have hact := (activeAt_iff thresh xs i x hxi).2 hx
    obtain ⟨hclosed, hquiet⟩ := hat
    obtain ⟨⟨f, l⟩, gs, rfl, rfl, hps⟩ := List.map_eq_cons_iff.1 hclosed.symm
    have hgap := (merges_pairBlock_iff hgs hact (hquiet (f, l) rfl)).1 hm
    obtain ⟨hfl, hli, -⟩ := hgs.ends (f, l) (by simp)
    obtain ⟨gs, hgs, hat⟩ := nnScanAt_grow hgs hact hps.symm hgap
      (len := i - (f - d) + 1) (by simp only at hfl hli; omega)
    rw [suppressNNScan, if_pos hx, if_pos hm]
    exact ih hrest hact.lt_length gs hgs hat
  | case5 i x rest hx p ps hm ih =>
    obtain ⟨hxi, hrest⟩ := getElem?_of_cons_eq_drop hrest
    have hact := (activeAt_iff thresh xs i x hxi).2 hx
    obtain ⟨hclosed, hquiet⟩ := hat
    obtain ⟨⟨f, l⟩, gs, rfl, rfl, hps⟩ := List.map_eq_cons_iff.1 hclosed.symm
    have hgap := mt (merges_pairBlock_iff hgs hact (hquiet (f, l) rfl)).2 hm
    obtain ⟨gs, hgs, hat⟩ := nnScanAt_open hgs hact hclosed fun g hg => by
      obtain rfl : (f, l) = g := by simpa using hg
      exact Nat.not_le.1 hgap
    rw [suppressNNScan, if_pos hx, if_neg hm]
    exact ih hrest hact.lt_length gs hgs hat
  | case6 i closed x rest hx ih =>
    obtain ⟨hxi, hrest⟩ := getElem?_of_cons_eq_drop hrest
    have hquiet := mt (activeAt_iff thresh xs i x hxi).1 hx
    rw [suppressNNScan_skip thresh d i closed x rest hx]
    exact ih hrest (List.getElem?_eq_some_iff.1 hxi).1 gs (hgs.skip hquiet) hat
  | case7 i closed b cnt x rest hx ih =>
    obtain ⟨hxi, hrest⟩ := getElem?_of_cons_eq_drop hrest
    have hact := (activeAt_iff thresh xs i x hxi).2 hx
    obtain ⟨f, l, gs, rfl, hclosed, rfl, hpos⟩ := hat
    obtain ⟨hfl, hli, -⟩ := hgs.ends (f, l) (by simp)
    have hgap : i - l - 1 ≤ groupGap d := by
      rw [groupGap]
      rcases hpos with ⟨hil, hcnt⟩ | ⟨-, -, q, hiq, hql, -⟩ <;> omega
    obtain ⟨gs, hgs, hat⟩ := nnScanAt_grow hgs hact hclosed hgap
      (len := i - (f - d) + 1) (by simp only at hfl hli; omega)
    rw [suppressNNScan, if_pos hx]
    exact ih hrest hact.lt_length gs hgs hat
  | case8 i closed b cnt x rest hx hc ih =>
    obtain ⟨hxi, hrest⟩ := getElem?_of_cons_eq_drop hrest
    have hquiet := mt (activeAt_iff thresh xs i x hxi).1 hx
    have hn := (List.getElem?_eq_some_iff.1 hxi).1
    obtain ⟨hpad, -, -⟩ := nnScanAt_quiet hgs hat hn hquiet
    rw [suppressNNScan, if_neg hx, if_pos hc]
    exact ih hrest hn gs (hgs.skip hquiet) (hpad hc)
  | case9 i closed b cnt x rest hx hc hl ih =>
    obtain ⟨hxi, hrest⟩ := getElem?_of_cons_eq_drop hrest
    have hquiet := mt (activeAt_iff thresh xs i x hxi).1 hx
    have hn := (List.getElem?_eq_some_iff.1 hxi).1
    obtain ⟨-, hclose, -⟩ := nnScanAt_quiet hgs hat hn hquiet
    rw [suppressNNScan, if_neg hx, if_neg hc, if_pos hl]
    exact ih hrest hn gs (hgs.skip hquiet) (hclose hc (hrest ▸ hl))
  | case10 i closed b cnt x rest hx hc hl ih =>
    obtain ⟨hxi, hrest⟩ := getElem?_of_cons_eq_drop hrest
    have hquiet := mt (activeAt_iff thresh xs i x hxi).1 hx
    have hn := (List.getElem?_eq_some_iff.1 hxi).1
    obtain ⟨-, -, hkeep⟩ := nnScanAt_quiet hgs hat hn hquiet
    rw [suppressNNScan, if_neg hx, if_neg hc, if_neg hl]
    exact ih hrest hn gs (hgs.skip hquiet) (hkeep hc (hrest ▸ hl))

/-- The blocks SUPPRESS_NN finds are the padded groups (40_suppress.md R120). -/
theorem mem_suppressNNScan_iff (thresh : Half) (d : Nat) (xs : List Half) (b : Block) :
    b ∈ suppressNNScan thresh d 0 [] none xs ↔
      ∃ f l, activeGroup thresh d xs f l ∧ b = groupBlock d xs.length f l := by
  obtain ⟨gs, hgs, hscan⟩ := suppressNNScan_eq_groups thresh d xs 0 [] none xs rfl (Nat.zero_le _)
    ⟨[], groupsBefore_zero thresh d xs, rfl, by simp⟩
  simp only [hscan, List.mem_reverse, List.mem_map, Prod.exists, hgs.mem_iff_activeGroup, pairBlock,
    eq_comm]

/-- A group's block holds the group's first sample (40_suppress.md R120). -/
theorem activeGroup.first_mem_groupBlock {thresh : Half} {d : Nat} {xs : List Half} {f l : Nat}
    (h : activeGroup thresh d xs f l) :
    (groupBlock d xs.length f l).start ≤ f ∧
      f < (groupBlock d xs.length f l).start + (groupBlock d xs.length f l).len := by
  obtain ⟨hfl, hf, -, -⟩ := h
  have hn := hf.lt_length
  simp only [groupBlock]
  omega

/-! ### The statement -/

/-- Settles O43. -/
theorem suppressNNRecordsGroups : Obligations.SuppressNNRecordsGroups := by
  intro s xs h hd
  have hscan := suppressNNScan_separatedBlocks s.thresh s.distance 0 [] none xs
    (separatedBlocks_nil 0)
  rw [Nat.zero_add] at hscan
  have ⟨hp, _, hmax, _⟩ := h
  obtain ⟨-, hn, -⟩ := (Params.wellFormed_iff s.params).1 hp
  refine ⟨_, _, exec_suppressNN_of_holdsWaveform s xs h hd, s.succeed_errCode _, s.succeed_errInfo _,
    s.succeed_busy _, s.succeed_done _,
    s.succeed_emit_recordsBlocks xs _ (by omega) hscan.spacedBlocks, hscan.1,
    mem_suppressNNScan_iff s.thresh s.distance xs, fun b hb => ?_⟩
  obtain ⟨f, l, hgroup, rfl⟩ := (mem_suppressNNScan_iff s.thresh s.distance xs b).1 hb
  obtain ⟨hstart, hend⟩ := hgroup.first_mem_groupBlock
  exact ⟨f, hstart, hend, hgroup.2.1⟩

end Sys2Proof.Machine
end

section
/-! PROOFS. The round trip of a suppress command and UNSUPPRESS (41_unsuppress.md R134, R135): the
stream EMIT writes is valid, and it is read back as the blocks and samples it was made of. -/

namespace Sys2Proof.Machine

open Sys2Proof

/-! ### The encoding of a waveform, read as a stream -/

/-- A number below 2^15 is read back from its word with its sign (92_eei_decisions.md D32). -/
theorem streamInt_of_store16 (ws : List Half) (j v : Nat) (h : ws[j]? = some (store16 v))
    (hv : v < 32768) : streamInt ws j = v := by
  have htoNat := store16_toNat v (by omega)
  rw [streamInt, List.getD_eq_getElem?_getD, h, Option.getD_some,
    BitVec.toInt_eq_toNat_of_lt (by omega), htoNat]

section
variable {xs : List Half} {bs : List Block}

theorem streamN_emit (hx : xs.length ≤ 32766) : streamN (emit xs bs).out = xs.length :=
  streamInt_of_store16 _ 0 _ (emit_out_zero xs bs) (by omega)

theorem streamB_emit (hx : xs.length ≤ 32766) (hbs : spacedBlocks 0 xs.length bs) :
    streamB (emit xs bs).out = bs.length := by
  have hcount := hbs.two_mul_length_le
  exact streamInt_of_store16 _ 1 _ (emit_out_one xs bs) (by omega)

/-- Block `k` of the encoding is read back with its start and its length (30_encoding.md R95, R96).
-/
theorem streamBlock_emit (hx : xs.length ≤ 32766) (hbs : spacedBlocks 0 xs.length bs) (k : Nat)
    (b : Block) (hk : bs[k]? = some b) :
    streamStart (emit xs bs).out k = b.start ∧ streamLen (emit xs bs).out k = b.len := by
  have hend := hbs.end_le b (List.mem_of_getElem? hk)
  refine ⟨streamInt_of_store16 _ _ _ (emit_out_start xs bs k b hk) (by omega), ?_⟩
  rw [streamLen, streamB_emit hx hbs, Int.toNat_natCast]
  exact streamInt_of_store16 _ _ _ (emit_out_length xs bs k b hk) (by omega)

/-- The blocks of the encoding are the blocks it was made of. -/
theorem streamBlocks_emit (hx : xs.length ≤ 32766) (hbs : spacedBlocks 0 xs.length bs) :
    streamBlocks (emit xs bs).out bs.length = bs := by
  refine List.ext_getElem (length_streamBlocks _ _) fun k hk hk' => ?_
  obtain ⟨hstart, hlen⟩ := streamBlock_emit hx hbs k _ (List.getElem?_eq_getElem hk')
  rw [List.getElem_eq_iff, streamBlocks_getElem? _ _ k hk', streamBlock, hstart, hlen,
    Int.toNat_natCast, Int.toNat_natCast]

/-- Every block of the encoding passes the checks of UNSUPPRESS (41_unsuppress.md R129). -/
theorem streamBlockOk_emit (hx : xs.length ≤ 32766) (hbs : spacedBlocks 0 xs.length bs) (k : Nat)
    (hk : k < bs.length) : streamBlockOk (emit xs bs).out k := by
  obtain ⟨hstart, hlen⟩ := streamBlock_emit hx hbs k _ (List.getElem?_eq_getElem hk)
  obtain ⟨-, hpos, hend⟩ := hbs.2 _ (List.getElem_mem hk)
  have hprev : streamPrevEnd (emit xs bs).out k ≤ bs[k].start := by
    cases k with
    | zero => exact Int.natCast_nonneg _
    | succ k =>
      obtain ⟨hstart', hlen'⟩ :=
        streamBlock_emit hx hbs k _ (List.getElem?_eq_getElem (Nat.lt_of_succ_lt hk))
      have hnext := List.pairwise_iff_getElem.1 hbs.1 k (k + 1) (by omega) hk (Nat.lt_succ_self k)
      rw [streamPrevEnd, hstart', hlen']
      omega
  rw [streamBlockOk, hstart, hlen, streamN_emit hx]
  omega

/-- The samples of the encoding are the words after its headers (30_encoding.md R97). -/
theorem drop_emit_out (xs : List Half) (bs : List Block) :
    (emit xs bs).out.drop (2 + 2 * bs.length) = blockSamples xs bs := by
  refine List.ext_getElem? fun j => ?_
  rw [List.getElem?_drop, emit_out_samples]

/-- The encoding of spaced blocks of a legal waveform is a valid stream (41_unsuppress.md R126 to
R130). -/
theorem streamValid_emit (p : Params) (hp : p.wellFormed = true) (hx : xs.length ≤ p.nMax)
    (hbs : spacedBlocks 0 xs.length bs) : streamValid p (emit xs bs).out := by
  obtain ⟨-, hn, -⟩ := (Params.wellFormed_iff p).1 hp
  obtain ⟨hcount, hdepth⟩ := emit_fits_bufDepth p xs bs hp hx hbs
  have hlength := length_emit_out xs bs hbs.end_le
  have hN := streamN_emit (bs := bs) (hx.trans hn)
  have hB := streamB_emit (hx.trans hn) hbs
  have hok := streamBlockOk_emit (hx.trans hn) hbs
  have htotal := totalLength_streamBlocks _ bs.length hok
  rw [← streamBlocks, streamBlocks_emit (hx.trans hn) hbs] at htotal
  refine ⟨⟨by omega, by omega⟩, ?_, ?_, ?_, ?_⟩
  · rw [streamNOk, hN]
    omega
  · rw [streamBOk, hB]
    omega
  · rw [hB, Int.toNat_natCast]
    exact hok
  · rw [streamTotalOk, hB, Int.toNat_natCast, ← htotal]
    omega

/-- UNSUPPRESS rebuilds from the encoding the waveform of its blocks' samples (41_unsuppress.md
R131). -/
theorem streamResult_emit (hx : xs.length ≤ 32766) (hbs : spacedBlocks 0 xs.length bs) :
    streamResult (emit xs bs).out =
      { out := reinflate xs.length bs (blockSamples xs bs), blocks := bs } := by
  simp only [streamResult, streamN_emit hx, streamB_emit hx hbs, Int.toNat_natCast,
    streamBlocks_emit hx hbs, drop_emit_out]

/-- Inside a block the rebuilt waveform is the original (41_unsuppress.md R134). -/
theorem reinflate_blockSamples_inside (hbs : spacedBlocks 0 xs.length bs) (b : Block) (hb : b ∈ bs)
    (j : Nat) (hj : b.start ≤ j ∧ j < b.start + b.len) :
    (reinflate xs.length bs (blockSamples xs bs))[j]? = xs[j]? := by
  obtain ⟨k, hk⟩ := List.mem_iff_getElem?.1 hb
  obtain ⟨m, rfl⟩ := Nat.exists_eq_add_of_le hj.1
  rw [reinflate_getElem?_block _ bs _ hbs.blockListValid
      (length_blockSamples xs bs hbs.end_le).ge k m b hk (by omega),
    blockSamples_getElem? xs bs hbs.end_le k m b hk (by omega)]

end

/-! ### The samples a state reports as recorded -/

/-- The indices a state's BBRF covers are those of the blocks it reports (10_state.md R44). -/
theorem State.recordsBlocks.recorded_iff {t : State} {bs : List Block} (h : t.recordsBlocks bs)
    (j : Nat) :
    t.recorded j ↔ ∃ b ∈ bs, b.start ≤ j ∧ j < b.start + b.len := by
  obtain ⟨hcount, hblock⟩ := h
  constructor
  · rintro ⟨k, hk, b, hb, hj⟩
    rw [hblock k (hcount ▸ hk)] at hb
    exact ⟨b, List.mem_of_getElem? hb, hj⟩
  · rintro ⟨b, hb, hj⟩
    obtain ⟨k, hk⟩ := List.mem_iff_getElem?.1 hb
    have hlt := (List.getElem?_eq_some_iff.1 hk).1
    exact ⟨k, hcount ▸ hlt, b, (hblock k hlt).trans hk, hj⟩

/-- A state whose IBUF holds what a completion left in OBUF holds that result as its stream. -/
theorem State.holdsStream_of_obuf (s u : State) (c : CommandResult) (hp : s.params.wellFormed = true)
    (hc : c.fits s.params) (hparams : u.params = s.params) (hlen : u.lenIn = (s.succeed c).lenOut)
    (hcopy : ∀ j < (s.succeed c).lenOut.toNat,
      Memory.slot u.mem (ibufOff j) = (s.succeed c).obufWord j) : u.holdsStream c.out := by
  obtain ⟨hlenOut, -⟩ := s.succeed_counts c hp hc
  refine ⟨hparams ▸ hp, hlen ▸ hlenOut, fun j hj => ?_⟩
  rw [hcopy j (hlenOut ▸ hj), List.getElem?_eq_getElem hj]
  exact s.succeed_obufWord c j _ (List.getElem?_eq_getElem hj)

/-- UNSUPPRESS of the encoding of spaced blocks succeeds and leaves the rebuilt waveform in OBUF
(41_unsuppress.md R131). -/
theorem exec_unsuppress_of_emit (u : State) (xs : List Half) (bs : List Block)
    (hu : u.holdsStream (emit xs bs).out) (hx : xs.length ≤ u.params.nMax)
    (hbs : spacedBlocks 0 xs.length bs) :
    ∃ y, exec .unsuppress u = .next y ∧ y.errCode = 0#4 ∧ y.lenOut.toNat = xs.length ∧
      ∀ j < xs.length, y.obufWord j = (reinflate xs.length bs (blockSamples xs bs))[j]? := by
  have hp := hu.1
  obtain ⟨-, hn, -⟩ := (Params.wellFormed_iff u.params).1 hp
  have hout := length_reinflate xs.length bs (blockSamples xs bs) hbs.blockListValid
  have hexec := exec_unsuppress_of_streamValid u _ hu (streamValid_emit u.params hp hx hbs)
  rw [streamResult_emit (hx.trans hn) hbs] at hexec
  refine ⟨_, hexec, u.succeed_errCode _, ?_, fun j hj => ?_⟩
  · rw [State.succeed_lenOut, hout, store16_toNat _ (by omega)]
  · have hget := List.getElem?_eq_getElem (hout.symm ▸ hj)
    rw [hget]
    exact u.succeed_obufWord _ j _ hget

/-! ### The statement -/

/-- Settles O49: the rebuilt waveform is the original inside the recorded blocks and 0 outside. -/
theorem roundTripKeepsRecordedSamples : Obligations.RoundTripKeepsRecordedSamples := by
  intro i s t u xs hi h hexec hc hparams hlen hcopy
  have ⟨hp, _, hmax, _⟩ := h
  obtain ⟨-, hn, -⟩ := (Params.wellFormed_iff s.params).1 hp
  obtain ⟨c, hresult, -⟩ := exec_success i s t hexec hc
  obtain ⟨-, hd⟩ := s.holdsWaveform_of_commandResult i c hp hi hresult
  obtain ⟨bs, hemit, hbs⟩ := exec_emits_spacedBlocks i s xs hi h hd
  obtain rfl := Host.Outcome.next.inj (hexec.symm.trans hemit)
  have hstream := s.holdsStream_of_obuf u _ hp (emit_fits _ xs bs hp hmax hbs) hparams hlen hcopy
  have hrecorded := (s.succeed_emit_recordsBlocks xs bs (by omega) hbs).recorded_iff
  obtain ⟨y, hback, hcode, hlenOut, hword⟩ :=
    exec_unsuppress_of_emit u xs bs hstream (hparams ▸ hmax) hbs
  have hinside : ∀ j < xs.length, (s.succeed (emit xs bs)).recorded j → y.obufWord j = xs[j]? :=
    fun j hj hrec => by
      obtain ⟨b, hb, hjb⟩ := (hrecorded j).1 hrec
      rw [hword j hj, reinflate_blockSamples_inside hbs b hb j hjb]
  have houtside : ∀ j < xs.length, ¬ (s.succeed (emit xs bs)).recorded j →
      y.obufWord j = some 0#16 :=
    fun j hj hrec => by
      rw [hword j hj, reinflate_getElem?_outside _ bs _ hbs.blockListValid j hj
        fun b hb hjb => hrec ((hrecorded j).2 ⟨b, hb, hjb⟩)]
  refine ⟨y, hback, hcode, hlenOut, fun j hj => ⟨hinside j hj, houtside j hj⟩,
    fun hall j hj hrec => ?_, fun hzero j hj => ?_⟩
  · rw [← hall j hj, houtside j hj hrec]
  · by_cases hrec : (s.succeed (emit xs bs)).recorded j
    · exact hinside j hj hrec
    · rw [houtside j hj hrec, hzero j hj hrec]

end Sys2Proof.Machine
end
